-- ==== Sys2Proof/Word.lean ====
section
/-! DEFINITION. The two word types of the block: 8-bit samples and stream bytes (00_scope.md R5), and the
32-bit words of the host port (00_scope.md R9). -/

namespace Sys2Proof

/-- An 8-bit sample or input byte (00_scope.md R5). -/
abbrev Byte := BitVec 8

/-- A word of the host port (00_scope.md R9). -/
abbrev Word := BitVec 32

end Sys2Proof
end

