-- ==== Sys2Proof/Syntax.lean ====
section
/-! DEFINITION. The instructions: one constructor for each row of spec/opcode_table.json (30_encoding.md). The two
packets are the length bytes that begin them; their payload stays in the input stream and is read byte by byte by the
steps that follow (40_plane_decoder.md R106 to R108; log 9). -/

namespace Sys2Proof

inductive Instr where
  /-- LIT, a literal run: M is bits 6:0 of its length byte (30_encoding.md R75, R77). -/
  | lit (m : BitVec 7)
  /-- REP, a repeat run: M is bits 6:0 of its length byte (30_encoding.md R75, R77). -/
  | rep (m : BitVec 7)
  /-- MARK_K, the marker before a frame's three planes (30_encoding.md R82). -/
  | markK
  /-- MARK_E, the end-of-frames marker (30_encoding.md R82). -/
  | markE
  /-- DECODE_PLANE with its PL field (30_encoding.md R84, R85). -/
  | decodePlane (pl : BitVec 2)
  /-- DECODE_FRAME (30_encoding.md R85). -/
  | decodeFrame
  /-- GRADE (30_encoding.md R85). -/
  | grade
  /-- SRESET (30_encoding.md R85). -/
  | sreset
deriving DecidableEq, Repr

/-- A whole packet with its samples, as the notation of 30_encoding.md R89 writes it: `LIT v0, …, vk` and
`REP c, v`. -/
inductive Packet where
  | literal (samples : List Byte)
  | repeatRun (count : Nat) (value : Byte)
deriving DecidableEq, Repr

end Sys2Proof
end

