-- ==== Sys2Proof/WellFormed.lean ====
section
/-! DEFINITION. Which terms stand for an encoding the spec calls legal. -/

namespace Sys2Proof

/-- A well-formed instruction. The one operand value without a legal encoding is PL = 3 of DECODE_PLANE
(30_encoding.md R85, R86). -/
def WellFormed : Instr → Bool
  | .lit _ => true
  | .rep _ => true
  | .markK => true
  | .markE => true
  | .decodePlane pl => pl != 3#2
  | .decodeFrame => true
  | .grade => true
  | .sreset => true

/-- A packet that has an encoding (30_encoding.md R77, R89): a literal of 1 to 128 samples, a repeat of 3 to 130. -/
def Packet.wellFormed : Packet → Bool
  | .literal vs => 1 ≤ vs.length && vs.length ≤ 128
  | .repeatRun c _ => 3 ≤ c && c ≤ 130

end Sys2Proof
end

