-- ==== Sys2Proof/Decode.lean ====
section
/-! DEFINITION. The decoder, total on every encoded object; the encoder, from the same tables of 30_encoding.md; the
decoder as the opcode table numbers its words; and the encoders of whole packets and planes (R89, R90). -/

namespace Sys2Proof

/-- An encoded object together with the place it is read at. The place decides a byte's role; nothing in the byte
does (30_encoding.md R87). -/
inductive Encoded where
  /-- A byte read at a marker position (40_plane_decoder.md R103). -/
  | markerByte (b : Byte)
  /-- A byte read as the first byte of a packet (40_plane_decoder.md R106). -/
  | lengthByte (b : Byte)
  /-- A word the host writes to CMD (30_encoding.md R84). -/
  | commandWord (w : Word)
deriving DecidableEq, Repr

/-- Why an object stands for no instruction. -/
inductive Reject where
  /-- A marker byte other than 0x4B and 0x45 (30_encoding.md R83). -/
  | reservedMarker (b : Byte)
  /-- A command word that 30_encoding.md R85 does not list (R86). -/
  | illegalCommand (w : Word)
deriving DecidableEq, Repr

/-- The instruction of a marker byte (30_encoding.md R82, R83). -/
def decodeMarker (b : Byte) : Except Reject Instr :=
  if b = 0x4B#8 then .ok .markK
  else if b = 0x45#8 then .ok .markE
  else .error (.reservedMarker b)

/-- The instruction of a length byte: S is bit 7 and M is bits 6:0 (30_encoding.md R75, R76). Every byte has one. -/
def decodeLength (b : Byte) : Instr :=
  if b.getLsbD 7 then .rep (b.extractLsb' 0 7) else .lit (b.extractLsb' 0 7)

/-- OPC, bits 3:0 of a command word (30_encoding.md R84). -/
def commandOpc (w : Word) : BitVec 4 := w.extractLsb' 0 4

/-- PL, bits 5:4 of a command word (30_encoding.md R84). -/
def commandPl (w : Word) : BitVec 2 := w.extractLsb' 4 2

/-- RSV, bits 31:6 of a command word (30_encoding.md R84). -/
def commandRsv (w : Word) : BitVec 26 := w.extractLsb' 6 26

/-- The instruction of a command word (30_encoding.md R85, R86). -/
def decodeCommand (w : Word) : Except Reject Instr :=
  if commandRsv w ≠ 0#26 then .error (.illegalCommand w)
  else if commandOpc w = 0x1#4 ∧ commandPl w ≠ 3#2 then .ok (.decodePlane (commandPl w))
  else if commandOpc w = 0x2#4 ∧ commandPl w = 0#2 then .ok .decodeFrame
  else if commandOpc w = 0x3#4 ∧ commandPl w = 0#2 then .ok .grade
  else if commandOpc w = 0xF#4 ∧ commandPl w = 0#2 then .ok .sreset
  else .error (.illegalCommand w)

/-- The decoder: total, rejecting by name. -/
def decode : Encoded → Except Reject Instr
  | .markerByte b => decodeMarker b
  | .lengthByte b => .ok (decodeLength b)
  | .commandWord w => decodeCommand w

/-- The length byte with kind bit S and magnitude M (30_encoding.md R75). -/
def lengthByteOf (s : Bool) (m : BitVec 7) : Byte := BitVec.setWidth 8 (BitVec.ofBool s ++ m)

/-- The command word with the given OPC and PL, and RSV = 0 (30_encoding.md R84). -/
def commandWordOf (opc : BitVec 4) (pl : BitVec 2) : Word := BitVec.setWidth 32 (pl ++ opc)

/-- The encoder, from the tables of 30_encoding.md R75, R82 and R85. DECODE_PLANE with PL = 3, which is not well
formed, has the word that R86 calls illegal. -/
def encode : Instr → Encoded
  | .lit m => .lengthByte (lengthByteOf false m)
  | .rep m => .lengthByte (lengthByteOf true m)
  | .markK => .markerByte 0x4B#8
  | .markE => .markerByte 0x45#8
  | .decodePlane pl => .commandWord (commandWordOf 0x1#4 pl)
  | .decodeFrame => .commandWord (commandWordOf 0x2#4 0#2)
  | .grade => .commandWord (commandWordOf 0x3#4 0#2)
  | .sreset => .commandWord (commandWordOf 0xF#4 0#2)

/-- The place an 8-bit table word is read at. DESIGN CHOICE (log 10): the table gives bytes and no places, so the
two marker bytes are taken at a marker position and every other byte as a length byte. -/
def tableBytePlace (b : Byte) : Encoded :=
  if b = 0x4B#8 ∨ b = 0x45#8 then .markerByte b else .lengthByte b

/-- The object a table word of `nbits` bits stands for: the table's rows have 8 bits (a byte of the input stream) or
32 (a command word). -/
def tableObject (nbits w : Nat) : Option Encoded :=
  if nbits = 8 then some (tableBytePlace (BitVec.ofNat 8 w))
  else if nbits = 32 then some (.commandWord (BitVec.ofNat 32 w))
  else none

/-- The instruction the decoder reads from a word of spec/opcode_table.json. -/
def decodeTableWord (nbits w : Nat) : Option Instr :=
  match tableObject nbits w with
  | none => none
  | some e => (decode e).toOption

/-- Samples a literal run declares: M + 1 (30_encoding.md R77). -/
def litCount (m : BitVec 7) : Nat := m.toNat + 1

/-- Samples a repeat run declares: 130 - M (30_encoding.md R77). -/
def repCount (m : BitVec 7) : Nat := 130 - m.toNat

/-- Bytes that follow a length byte in its packet (30_encoding.md R78). -/
def payloadLength (b : Byte) : Nat :=
  if b.getLsbD 7 then 1 else litCount (b.extractLsb' 0 7)

/-- The bytes of a packet (30_encoding.md R89): `k, v0, …, vk` for a literal and `258 - c, v` for a repeat. -/
def Packet.bytes : Packet → List Byte
  | .literal vs => BitVec.ofNat 8 (vs.length - 1) :: vs
  | .repeatRun c v => [BitVec.ofNat 8 (258 - c), v]

/-- The samples a packet declares (30_encoding.md R76). -/
def Packet.samples : Packet → List Byte
  | .literal vs => vs
  | .repeatRun c v => List.replicate c v

/-- The stream bytes of a plane given as packets: nothing stands between them or after them (30_encoding.md R80). -/
def planeBytes (ps : List Packet) : List Byte := ps.flatMap Packet.bytes

/-- The samples of a plane given as packets. -/
def planeSamples (ps : List Packet) : List Byte := ps.flatMap Packet.samples

/-- `RUN v × c` (30_encoding.md R90): repeats of at most 130 while three or more are left, then a literal of the one
or two left. `fuel` bounds the recursion; c is enough. -/
def runPacketsFrom (v : Byte) : (fuel c : Nat) → List Packet
  | 0, _ => []
  | fuel + 1, c =>
    if 3 ≤ c then .repeatRun (min c 130) v :: runPacketsFrom v fuel (c - min c 130)
    else if c = 0 then []
    else [.literal (List.replicate c v)]

/-- `RUN v × c` (30_encoding.md R90). -/
def runPackets (v : Byte) (c : Nat) : List Packet := runPacketsFrom v c c

/-- `LITS v0, …, vm` (30_encoding.md R90): literals of 128 values, then one of what is left. -/
def litsPacketsFrom : (fuel : Nat) → List Byte → List Packet
  | 0, _ => []
  | fuel + 1, vs =>
    if vs.length = 0 then []
    else .literal (vs.take 128) :: litsPacketsFrom fuel (vs.drop 128)

/-- `LITS v0, …, vm` (30_encoding.md R90). -/
def litsPackets (vs : List Byte) : List Packet := litsPacketsFrom vs.length vs

/-- The word `SETPARAMS b, c, s` writes to GRADE: (s << 16) | (c << 8) | b (30_encoding.md R90). -/
def setParamsWord (b c s : Byte) : Word := BitVec.setWidth 32 (s ++ c ++ b)

end Sys2Proof
end

