-- ==== Sys2Proof/Config.lean ====
section
/-! DEFINITION. What an implementation fixes (the parameters of 00_scope.md R6 to R8) and the free values: the
values the spec calls "any value" (93_implementation_defined.md items 1 to 3) and one it states no value for (log 18). -/

namespace Sys2Proof

/-- `OVERSHOOT_POLICY` (00_scope.md R8): what the decoder does with a run count larger than the samples still
needed. -/
inductive OvershootPolicy where
  | clamp
  | fault
deriving DecidableEq, Repr

/-- The parameters a model takes as arguments (00_scope.md R6 to R8). State carries them and no step changes them
(log 3). -/
structure Params where
  /-- `MAX_PIXELS` (R6): OPEN, 1 to 357913941. -/
  maxPixels : Nat
  /-- `IN_FIFO_DEPTH` (R7): OPEN, at least 1. -/
  fifoDepth : Nat
  /-- `OVERSHOOT_POLICY` (R8). -/
  overshoot : OvershootPolicy
deriving DecidableEq, Repr

/-- The ranges 00_scope.md R6 and R7 give the open parameters. -/
abbrev Params.legal (p : Params) : Prop :=
  1 ≤ p.maxPixels ∧ p.maxPixels ≤ 357913941 ∧ 1 ≤ p.fifoDepth

/-- Bytes of the frame buffer: 3 x MAX_PIXELS (10_state.md R31). -/
def Params.fbBytes (p : Params) : Nat := 3 * p.maxPixels

/-- `FB_WORDS` = ceil(3 x MAX_PIXELS / 4) (20_memory.md R53). -/
def Params.fbWords (p : Params) : Nat := (p.fbBytes + 3) / 4

/-- DESIGN CHOICE (log 3): the parameters of `State.reset`. The policy is the spec's value for this hardware
(00_scope.md R8); MAX_PIXELS is what the examples of 95_test_vectors.md assume; IN_FIFO_DEPTH is large enough for
the bytes those examples push. -/
def Config.params : Params := { maxPixels := 16, fifoDepth := 256, overshoot := .clamp }

/-- FREE VALUE (log 4): what FB byte i holds at power-on, until it is first written (20_memory.md R52). -/
opaque Config.powerOnByte : Nat → Byte

/-- FREE VALUE (log 5): the value draw n gives FB byte i of a failed command's region (60_exceptions.md R203). -/
opaque Config.freeByte : Nat → Nat → Byte

/-- FREE VALUE (log 6): the word draw n gives a window read while BUSY = 1 (20_memory.md R59). -/
opaque Config.freeWord : Nat → Word

/-- FREE VALUE (log 18): what IN_LEVEL reads as when IFIFO holds n bytes and n does not fit 32 bits. IN_FIFO_DEPTH has
no upper bound (00_scope.md R7) and the spec states no reading there (10_state.md R41). -/
opaque Config.wideLevel : Nat → Word

end Sys2Proof
end

