-- ==== Sys2Proof/Machine/State.lean ====
section
/-! DEFINITION. The state of the machine as plain data, the reasons a step can stop, and the state after reset
(10_state.md R20 to R49; 70_reset_and_hazards.md R230). -/

namespace Sys2Proof.Machine

/-- The sequencer state STATE (10_state.md R22). -/
inductive Seq where
  | idle
  | marker
  | hdr
  | lit
  | repv
  | fill
  | grade
  | error
deriving DecidableEq, Repr

/-- MODE (10_state.md R23): is the decode in progress one plane, or a frame of three? -/
inductive Mode where
  | plane
  | frame
deriving DecidableEq, Repr

/-- The values of CUR_PLANE (10_state.md R24). Value 3 never occurs, so it has no constructor (log 12). -/
inductive Plane where
  | red
  | green
  | blue
deriving DecidableEq, Repr

/-- The values of ERRCODE (60_exceptions.md R200). Codes 6 to 15 are never raised and have no constructor (log 12). -/
inductive ErrCode where
  | none
  | truncated
  | overshoot
  | format
  | dimension
  | illegalCmd
deriving DecidableEq, Repr

/-- Bytes of the frame buffer written since power-on, by byte index. Canonical form: the indexes strictly rise. A
byte not listed was never written, and its entry would be no byte at all (log 4). -/
abbrev Memory := List Host.Cell

/-- The two operations of the host (20_memory.md R51). -/
inductive HostOp where
  | read (a : Word)
  | write (a w : Word)
deriving DecidableEq, Repr

/-- Whose step comes next in the total order of 00_scope.md R16. -/
inductive Turn where
  | block
  | host (op : HostOp)
deriving DecidableEq, Repr

/-- What the host port answers (20_memory.md R51); `none` before the first access. -/
inductive HostResponse where
  | none
  | ok
  | data (w : Word)
  | busError
deriving DecidableEq, Repr

/-- Why the machine stops. -/
inductive Fault where
  /-- Raised by a block step (literal copy, fill or grade) whose FB byte index is 3 x MAX_PIXELS or more. Safe: the
  spec says the block never makes such an access (00_scope.md R14), and no state that meets the invariant of
  Safety.lean makes it (log 8). -/
  | noFrameBufferByte
deriving DecidableEq, Repr

/-- Why an instruction has no meaning. -/
inductive Refusal where
  /-- Raised by an arm of `exec` whose instruction has no meaning yet. Safe. No arm of this model raises it. -/
  | notModelled (mnemonic : String)
deriving DecidableEq, Repr

/-- Everything the spec gives the machine, and the model's own `sched`, `response` and `draws`. -/
structure State where
  /-- The parameters; fixed for one machine (00_scope.md R6 to R8; log 3). -/
  params : Params
  /-- STATE (R22). -/
  seq : Seq
  /-- MODE (R23). -/
  mode : Mode
  /-- CUR_PLANE (R24). -/
  curPlane : Plane
  /-- CNT (R25), read as POS (R44). -/
  cnt : BitVec 32
  /-- RUN_LEFT (R26). -/
  runLeft : BitVec 8
  /-- RUN_VAL (R27). -/
  runVal : Byte
  /-- ERRCODE (R46). -/
  errcode : ErrCode
  /-- ERR_BYTE (R45). -/
  errByte : Byte
  /-- STATUS.DONE (R34, R47). -/
  done : Bool
  /-- STATUS.END (R34, R47). -/
  endFlag : Bool
  /-- STATUS.CMD_REJ (R34, R47). -/
  cmdRej : Bool
  /-- STATUS.WR_REJ (R34, R47). -/
  wrRej : Bool
  /-- STATUS.IN_REJ (R34, R47). -/
  inRej : Bool
  /-- WIDTH (R35). -/
  width : Word
  /-- HEIGHT (R36). -/
  height : Word
  /-- The GRADE register (R37). -/
  gradeReg : Word
  /-- IRQ_EN (R38). -/
  irqEn : Word
  /-- IFIFO, oldest byte first (R32). -/
  ififo : List Byte
  /-- EOS (R33, R40). -/
  eos : Bool
  /-- IN_COUNT (R42). -/
  inCount : Word
  /-- FRAME_COUNT (R43). -/
  frameCount : Word
  /-- FB (R31). -/
  fb : Memory
  /-- The model's own: the turns still to come; when there is none, the block moves (log 1). -/
  sched : List Turn
  /-- The model's own: the host port's last answer (log 7). -/
  response : HostResponse
  /-- The model's own: the number of the next free value (log 6). -/
  draws : Nat
deriving DecidableEq, Repr

/-- The machine with parameters p right after power-on: every register at the reset value of 10_state.md R22 to R46,
as 70_reset_and_hazards.md R230 sums up, and no FB byte written. `sched`, `response` and `draws` are the model's own
(DESIGN CHOICE, log 1, 6, 7). -/
def State.resetWith (p : Params) : State where
  params := p
  seq := .idle
  mode := .plane
  curPlane := .red
  cnt := 0
  runLeft := 0
  runVal := 0
  errcode := .none
  errByte := 0
  done := false
  endFlag := false
  cmdRej := false
  wrRej := false
  inRej := false
  width := 0
  height := 0
  gradeReg := 0x00323232#32
  irqEn := 0
  ififo := []
  eos := false
  inCount := 0
  frameCount := 0
  fb := []
  sched := []
  response := .none
  draws := 0

/-- The machine right after reset, with the parameters of `Config.params` (log 3). -/
def State.reset : State := State.resetWith Config.params

end Sys2Proof.Machine
end

