-- ==== Sys2Proof/Machine/Operands.lean ====
section
/-! DEFINITION. Where an instruction's operands come from: the pixel count N, the samples a packet may still produce,
the plane numbers, the fields of GRADE, and the targets of a host access. -/

namespace Sys2Proof.Machine

/-- N = WIDTH x HEIGHT, exact (10_state.md R28). -/
def State.pixels (s : State) : Nat := s.width.toNat * s.height.toNat

/-- `rem`, the samples the plane still needs: N - CNT (40_plane_decoder.md R106). In a state with CNT > N, which no
run reaches, it is 0 (log 11). -/
def State.remaining (s : State) : Nat := s.pixels - s.cnt.toNat

/-- May a command start with these dimensions? WIDTH and HEIGHT are not 0 and N is at most MAX_PIXELS
(42_commands.md R172, R173). -/
def State.dimensionsLegal (s : State) : Bool :=
  s.width != 0 && s.height != 0 && s.pixels ≤ s.params.maxPixels

/-- A plane's number: 0 red, 1 green, 2 blue (10_state.md R24). -/
def Plane.index : Plane → Nat
  | .red => 0
  | .green => 1
  | .blue => 2

/-- A plane's number in 2 bits, as STATUS.PLANE and PL have it (10_state.md R24, R34). -/
def Plane.bits : Plane → BitVec 2
  | .red => 0#2
  | .green => 1#2
  | .blue => 2#2

/-- The plane a PL field names; PL = 3 names none (30_encoding.md R84). -/
def Plane.ofBits? (pl : BitVec 2) : Option Plane :=
  if pl = 0#2 then some .red
  else if pl = 1#2 then some .green
  else if pl = 2#2 then some .blue
  else none

/-- The next plane of a frame: R, G, B (10_state.md R24). -/
def Plane.next? : Plane → Option Plane
  | .red => some .green
  | .green => some .blue
  | .blue => none

/-- The code of an error (60_exceptions.md R200). -/
def ErrCode.bits : ErrCode → BitVec 4
  | .none => 0#4
  | .truncated => 1#4
  | .overshoot => 2#4
  | .format => 3#4
  | .dimension => 4#4
  | .illegalCmd => 5#4

/-- The FB byte of sample i of plane c: 3i + c (10_state.md R31; 40_plane_decoder.md R114). -/
def sampleIndex (c : Plane) (i : Nat) : Nat := 3 * i + c.index

/-- The FB byte the next sample of the plane being decoded goes to (40_plane_decoder.md R114). -/
def State.writeIndex (s : State) : Nat := sampleIndex s.curPlane s.cnt.toNat

/-- BRIGHT, bits 7:0 of a GRADE word (10_state.md R37). -/
def brightField (w : Word) : Byte := w.extractLsb' 0 8

/-- CONTRAST, bits 15:8 of a GRADE word (10_state.md R37). -/
def contrastField (w : Word) : Byte := w.extractLsb' 8 8

/-- SATUR, bits 23:16 of a GRADE word (10_state.md R37). -/
def saturField (w : Word) : Byte := w.extractLsb' 16 8

/-- What a write of w stores in GRADE (41_color_grader.md R140): the three fields if all are at most 100, and the
default triple otherwise. -/
def gradeStored (w : Word) : Word :=
  if (brightField w).toNat ≤ 100 ∧ (contrastField w).toNat ≤ 100 ∧ (saturField w).toNat ≤ 100 then
    BitVec.setWidth 32 (saturField w ++ contrastField w ++ brightField w)
  else 0x00323232#32

/-- The registers of the host port (10_state.md R29). -/
inductive Reg where
  | cmd
  | status
  | width
  | height
  | grade
  | irqEn
  | inData
  | inCtrl
  | inLevel
  | inCount
  | frameCount
  | pos
  | errByte
deriving DecidableEq, Repr

/-- A register's offset (10_state.md R29). -/
def Reg.offset : Reg → Word
  | .cmd => 0x00#32
  | .status => 0x04#32
  | .width => 0x08#32
  | .height => 0x0C#32
  | .grade => 0x10#32
  | .irqEn => 0x14#32
  | .inData => 0x18#32
  | .inCtrl => 0x1C#32
  | .inLevel => 0x20#32
  | .inCount => 0x24#32
  | .frameCount => 0x28#32
  | .pos => 0x2C#32
  | .errByte => 0x30#32

/-- All registers, in the order of the map. -/
def Reg.all : List Reg :=
  [.cmd, .status, .width, .height, .grade, .irqEn, .inData, .inCtrl, .inLevel, .inCount, .frameCount, .pos, .errByte]

/-- The offset of window word k: 0x40000000 + 4k (20_memory.md R55). -/
def windowOffset (k : Nat) : Word := BitVec.ofNat 32 (0x40000000 + 4 * k)

/-- What a mapped offset of the host port addresses (20_memory.md R53). -/
inductive PortTarget where
  | reg (r : Reg)
  | window (k : Nat)
deriving DecidableEq, Repr

/-- The target of an access at offset a; none where the port answers BusError: a misaligned or unmapped offset
(20_memory.md R51, R53 to R55). -/
def portTarget (p : Params) (a : Word) : Option PortTarget :=
  if a.toNat % 4 ≠ 0 then none
  else if 0x40000000 ≤ a.toNat then
    let k := (a.toNat - 0x40000000) / 4
    if k < p.fbWords then some (.window k) else none
  else (Reg.all.find? fun r => r.offset == a).map .reg

end Sys2Proof.Machine
end

