-- ==== Sys2Proof/Machine/Flags.lean ====
section
/-! DEFINITION. The STATUS flags and the interrupt line: how each is computed, set and cleared (10_state.md R34, R47;
42_commands.md R175; 60_exceptions.md R207). -/

namespace Sys2Proof.Machine

/-- STATUS.BUSY: STATE is neither IDLE nor ERROR (10_state.md R34). -/
def State.busy (s : State) : Bool := s.seq != .idle && s.seq != .error

/-- Does the block's step in this STATE read an input byte? (40_plane_decoder.md R102.) -/
def Seq.readsInput : Seq → Bool
  | .marker => true
  | .hdr => true
  | .lit => true
  | .repv => true
  | .idle => false
  | .fill => false
  | .grade => false
  | .error => false

/-- STATUS.HOLD: STATE reads input, IFIFO is empty and EOS = 0 (10_state.md R34). -/
def State.holding (s : State) : Bool := s.seq.readsInput && s.ififo.isEmpty && !s.eos

/-- Is the block's step enabled? (00_scope.md R16.) -/
def State.blockEnabled (s : State) : Bool := s.busy && !s.holding

/-- STATUS.ERRCODE: the error code while STATE = ERROR, 0 otherwise (10_state.md R34). -/
def State.statusErrcode (s : State) : BitVec 4 := if s.seq = .error then s.errcode.bits else 0#4

/-- STATUS as it is read (10_state.md R34; 42_commands.md R180); bits 31:14 are 0. -/
def State.statusWord (s : State) : Word :=
  BitVec.setWidth 32
    (s.curPlane.bits ++ s.statusErrcode ++ BitVec.ofBool s.inRej ++ BitVec.ofBool s.wrRej
      ++ BitVec.ofBool s.cmdRej ++ BitVec.ofBool s.holding ++ BitVec.ofBool s.endFlag
      ++ BitVec.ofBool (s.seq == .error) ++ BitVec.ofBool s.done ++ BitVec.ofBool s.busy)

/-- A write of w to STATUS clears each W1C bit whose written bit is 1 (42_commands.md R175). -/
def State.clearFlags (w : Word) (s : State) : State :=
  { s with
    done := s.done && !w.getLsbD 1
    endFlag := s.endFlag && !w.getLsbD 3
    cmdRej := s.cmdRej && !w.getLsbD 5
    wrRej := s.wrRej && !w.getLsbD 6
    inRej := s.inRej && !w.getLsbD 7 }

/-- DONE and END are cleared when a command other than SRESET is accepted from IDLE (42_commands.md R172). -/
def State.clearCompletion (s : State) : State := { s with done := false, endFlag := false }

/-- IRQ_EN.DONE_IE (10_state.md R38). -/
def State.doneIe (s : State) : Bool := s.irqEn.getLsbD 0

/-- IRQ_EN.ERR_IE (10_state.md R38). -/
def State.errIe (s : State) : Bool := s.irqEn.getLsbD 1

/-- The interrupt line (60_exceptions.md R207). -/
def State.irq (s : State) : Bool := (s.doneIe && s.done) || (s.errIe && s.seq == .error)

end Sys2Proof.Machine
end

