-- ==== Sys2Proof/Machine/Ops.lean ====
section
/-! DEFINITION. The operations the meanings share: the frame buffer's bytes, reading the input, raising an error (the
block's form of taking an exception), starting a command, producing a sample and ending a plane. -/

namespace Sys2Proof.Machine

/-- What a listed byte holds; none for a byte never written since power-on. -/
def Memory.read? : Memory → Nat → Option Byte
  | [], _ => none
  | (a, v) :: rest, i => if a = i then some v else Memory.read? rest i

/-- Byte i becomes v. Keeps the indexes strictly rising. -/
def Memory.write : Memory → Nat → Byte → Memory
  | [], i, v => [(i, v)]
  | (a, u) :: rest, i, v =>
    if i < a then (i, v) :: (a, u) :: rest
    else if i = a then (i, v) :: rest
    else (a, u) :: Memory.write rest i v

/-- Every index listed in m is larger than the bound. -/
def Memory.above (bound : Nat) : Memory → Bool
  | [] => true
  | (a, _) :: rest => decide (bound < a) && Memory.above bound rest

/-- The canonical form: strictly rising indexes. A listed byte is never what an unlisted one is, since an unlisted
byte is none at all. -/
def Memory.wf : Memory → Bool
  | [] => true
  | (a, _) :: rest => Memory.above a rest && Memory.wf rest

/-- Every byte of `is` becomes `value` of its index. -/
def Memory.fill (value : Nat → Byte) (is : List Nat) (m : Memory) : Memory :=
  is.foldl (fun m i => Memory.write m i (value i)) m

/-- What a read of FB byte i returns: the last value written or, if there was none since power-on, the byte's
unspecified power-on value (20_memory.md R52; FREE VALUE, log 4). -/
def State.fbByte (s : State) (i : Nat) : Byte := (Memory.read? s.fb i).getD (Config.powerOnByte i)

/-- `MemRead(i, 1)` (00_scope.md R14); none for an index that is no byte of FB. -/
def State.memRead (s : State) (i : Nat) : Option Byte :=
  if i < s.params.fbBytes then some (s.fbByte i) else none

/-- `MemWrite(i, 1, v)` (00_scope.md R14); none for an index that is no byte of FB. -/
def State.memWrite (s : State) (i : Nat) (v : Byte) : Option State :=
  if i < s.params.fbBytes then some { s with fb := Memory.write s.fb i v } else none

/-- The outcomes of `InRead()` (00_scope.md R13). -/
inductive Input where
  | byte (b : Byte) (s : State)
  | endOfStream
  | hold

/-- The state after `InRead()` has taken a byte and left `rest` in IFIFO (00_scope.md R13). -/
def State.consumed (s : State) (rest : List Byte) : State :=
  { s with ififo := rest, inCount := s.inCount + 1 }

/-- `InRead()` (00_scope.md R13). -/
def State.inRead (s : State) : Input :=
  match s.ififo with
  | b :: rest => .byte b (s.consumed rest)
  | [] => if s.eos then .endOfStream else .hold

/-- Error entry, `raise Error(code, byte)` (60_exceptions.md R202): ERRCODE, ERR_BYTE and STATE are written and
nothing else. -/
def State.raise (code : ErrCode) (byte : Byte) (s : State) : State :=
  { s with errcode := code, errByte := byte, seq := .error }

/-- The FB bytes the failed command may write (60_exceptions.md R203): one channel for DECODE_PLANE, all bytes below
3N for DECODE_FRAME. Only bytes that exist count, which is all of them in every state a run reaches (log 11). -/
def State.failedRegion (s : State) : List Nat :=
  let n := min s.pixels s.params.maxPixels
  match s.mode with
  | .plane => (List.range n).map (sampleIndex s.curPlane)
  | .frame => List.range (3 * n)

/-- The failed command's FB region becomes unspecified: one draw for each of its bytes, fixed until the byte is next
written (60_exceptions.md R203; FREE VALUE, log 5). -/
def State.forgetRegion (s : State) : State :=
  { s with fb := Memory.fill (Config.freeByte s.draws) s.failedRegion s.fb, draws := s.draws + 1 }

/-- An error raised by a decode step after acceptance (60_exceptions.md R202, R203). -/
def State.blockError (code : ErrCode) (byte : Byte) (s : State) : State :=
  (s.forgetRegion).raise code byte

/-- A command written while STATE is not IDLE: CMD_REJ and nothing else (42_commands.md R171). -/
def State.rejectCommand (s : State) : State := { s with cmdRej := true }

/-- Acceptance of a legal command word other than SRESET (42_commands.md R171, R172): rejected unless IDLE, then DONE
and END cleared, then the dimension check, then the command's own start. -/
def State.acceptCommand (start : State → State) (s : State) : State :=
  if s.seq = .idle then
    if s.dimensionsLegal then start s.clearCompletion
    else s.clearCompletion.raise .dimension 0x00#8
  else s.rejectCommand

/-- An illegal command word whose low byte is `byte` (42_commands.md R171, R172): rejected unless IDLE, then DONE and
END cleared and ILLEGAL_CMD raised. -/
def State.illegalCommand (byte : Byte) (s : State) : State :=
  if s.seq = .idle then s.clearCompletion.raise .illegalCmd byte else s.rejectCommand

/-- The end of a command: `DONE <- 1; STATE <- IDLE` (40_plane_decoder.md R109; 41_color_grader.md R150). -/
def State.complete (s : State) : State := { s with done := true, seq := .idle }

/-- `FrameEnd()` (40_plane_decoder.md R110). -/
def State.frameEnd (s : State) : State := { s with frameCount := s.frameCount + 1 }.complete

/-- `PlaneEnd()` (40_plane_decoder.md R109). -/
def State.planeEnd (s : State) : State :=
  if s.cnt.toNat < s.pixels then { s with seq := .hdr }
  else
    match s.mode with
    | .plane => s.complete
    | .frame =>
      match s.curPlane.next? with
      | some c => { s with curPlane := c, cnt := 0, seq := .hdr }
      | none => s.frameEnd

/-- `CNT <- CNT + 1; RUN_LEFT <- RUN_LEFT - 1` (40_plane_decoder.md R107, R108). -/
def State.countSample (s : State) : State := { s with cnt := s.cnt + 1, runLeft := s.runLeft - 1 }

/-- The counters after a sample, then `if RUN_LEFT = 0: PlaneEnd()` (40_plane_decoder.md R107, R108). -/
def State.advanceRun (s : State) : State :=
  if s.countSample.runLeft = 0 then s.countSample.planeEnd else s.countSample

/-- One sample of the current run goes to the frame buffer (40_plane_decoder.md R107, R108, R114). -/
def State.produceSample (v : Byte) (s : State) : Host.Outcome State Fault Refusal :=
  match s.memWrite s.writeIndex v with
  | some t => .next t.advanceRun
  | none => .fault .noFrameBufferByte

/-- The rest of the length-byte step once the byte is known to declare `count` samples (40_plane_decoder.md R106):
under FAULT an overshooting count raises OVERSHOOT with the length byte; otherwise the count is cut to what the plane
needs and the run begins in STATE `runState`. -/
def State.startRun (runState : Seq) (count : Nat) (lengthByte : Byte) (s : State) : State :=
  if s.remaining < count ∧ s.params.overshoot = .fault then s.blockError .overshoot lengthByte
  else { s with runLeft := BitVec.ofNat 8 (min count s.remaining), seq := runState }

end Sys2Proof.Machine
end

