-- ==== Sys2Proof/Machine/Commands.lean ====
section
/-! DEFINITION. The system command SRESET (42_commands.md R174). -/

namespace Sys2Proof.Machine

/-- The effect of SRESET: every register, flag, internal register and IFIFO takes its reset value, and FB is left
unchanged (42_commands.md R174; 70_reset_and_hazards.md R231). The parameters and the model's own fields stay
(log 13). -/
def State.softReset (s : State) : State :=
  { State.resetWith s.params with fb := s.fb, sched := s.sched, response := s.response, draws := s.draws }

/-- SRESET, in any STATE (42_commands.md R174). -/
def execSreset (s : State) : Host.Outcome State Fault Refusal := .next s.softReset

end Sys2Proof.Machine
end

