-- ==== Sys2Proof/Machine/Grader.lean ====
section
/-! DEFINITION. The colour grader (41_color_grader.md): the exact stage arithmetic in its integer forms, the GRADE
command and the step that grades one pixel. A stage whose factor is 1 is computed like any other; skipping it could
not be seen (R147). -/

namespace Sys2Proof.Machine

/-- `clamp8` (00_scope.md R11). -/
def clamp8 (x : Int) : Byte := BitVec.ofInt 8 (min 255 (max 0 x))

/-- `isqrt` (00_scope.md R11), two bits of the radicand at a time. `fuel` bounds the recursion; one more than the
radicand's number of base-4 digits is enough. -/
def isqrtFrom : (fuel m : Nat) → Nat
  | 0, _ => 0
  | fuel + 1, m =>
    let r := 2 * isqrtFrom fuel (m / 4)
    if (r + 1) * (r + 1) ≤ m then r + 1 else r

/-- `isqrt(m)`, the greatest t with t² ≤ m (00_scope.md R11). -/
def isqrt (m : Nat) : Nat := isqrtFrom (m.log2 + 1) m

/-- The brightness stage in its integer form (41_color_grader.md R143). `Int` division by a positive number rounds
toward minus infinity, as `div` does (00_scope.md R11). -/
def brightStage (v b : Byte) : Byte :=
  clamp8 ((v.toNat : Int) * ((b.toNat : Int) + 10) / 60)

/-- The contrast stage in its integer form (41_color_grader.md R144). -/
def contrastStage (v c : Byte) : Byte :=
  clamp8 ((c.toNat : Int) * ((v.toNat : Int) - 128) / 50 + 128)

/-- `Q`, 1000 times the square of the saturation pivot (41_color_grader.md R145). -/
def pivotQ (r g b : Byte) : Nat :=
  299 * r.toNat * r.toNat + 587 * g.toNat * g.toNat + 114 * b.toNat * b.toNat

/-- `fkP` = floor(k * P) for an integer k, from M = k² * Q (41_color_grader.md R146). -/
def floorKP (k : Int) (q : Nat) : Int :=
  let m : Nat := k.natAbs * k.natAbs * q
  let t : Nat := isqrt (m / 1000)
  if 0 ≤ k then (t : Int) else if 1000 * t * t = m then -(t : Int) else -((t : Int) + 1)

/-- The saturation stage in its integer form, for a pixel with this `Q` (41_color_grader.md R146). -/
def saturStage (v : Byte) (q : Nat) (s : Byte) : Byte :=
  clamp8 (((s.toNat : Int) * (v.toNat : Int) + floorKP (50 - (s.toNat : Int)) q) / 50)

/-- A pixel: red, green, blue (00_scope.md R5). -/
structure Pixel where
  r : Byte
  g : Byte
  b : Byte
deriving DecidableEq, Repr

/-- Brightness, then contrast, on each channel (41_color_grader.md R147, 1 and 2). -/
def toneStages (bright contrast : Byte) (p : Pixel) : Pixel where
  r := contrastStage (brightStage p.r bright) contrast
  g := contrastStage (brightStage p.g bright) contrast
  b := contrastStage (brightStage p.b bright) contrast

/-- Saturation of a pixel about its own pivot (41_color_grader.md R147, 3 and 4). -/
def saturatePixel (satur : Byte) (p : Pixel) : Pixel :=
  let q := pivotQ p.r p.g p.b
  { r := saturStage p.r q satur, g := saturStage p.g q satur, b := saturStage p.b q satur }

/-- The whole pipeline on one pixel with a GRADE word's parameters (41_color_grader.md R147). -/
def gradePixel (grade : Word) (p : Pixel) : Pixel :=
  saturatePixel (saturField grade) (toneStages (brightField grade) (contrastField grade) p)

/-- Pixel i of the frame buffer (10_state.md R31); none where the buffer has no such bytes. -/
def State.loadPixel (s : State) (i : Nat) : Option Pixel :=
  match s.memRead (sampleIndex .red i), s.memRead (sampleIndex .green i), s.memRead (sampleIndex .blue i) with
  | some r, some g, some b => some { r := r, g := g, b := b }
  | _, _, _ => none

/-- Pixel i of the frame buffer becomes p. -/
def State.storePixel (s : State) (i : Nat) (p : Pixel) : Option State :=
  ((s.memWrite (sampleIndex .red i) p.r).bind fun t =>
    (t.memWrite (sampleIndex .green i) p.g)).bind fun t =>
      t.memWrite (sampleIndex .blue i) p.b

/-- The start of an accepted GRADE (41_color_grader.md R148). -/
def State.startGrade (s : State) : State := { s with cnt := 0, seq := .grade }

/-- GRADE (41_color_grader.md R148; 42_commands.md R171, R172). The pixels are graded by `gradeStep`, one step each. -/
def execGrade (s : State) : Host.Outcome State Fault Refusal :=
  .next (s.acceptCommand State.startGrade)

/-- `CNT <- CNT + 1; if CNT = N: GradeEnd()` (41_color_grader.md R149, R150). -/
def State.advanceGrade (s : State) : State :=
  let t := { s with cnt := s.cnt + 1 }
  if t.cnt.toNat = t.pixels then t.complete else t

/-- The step that grades pixel CNT in place (41_color_grader.md R149). -/
def gradeStep (s : State) : Host.Outcome State Fault Refusal :=
  match s.loadPixel s.cnt.toNat with
  | some p =>
    match s.storePixel s.cnt.toNat (gradePixel s.gradeReg p) with
    | some t => .next t.advanceGrade
    | none => .fault .noFrameBufferByte
  | none => .fault .noFrameBufferByte

end Sys2Proof.Machine
end

