-- ==== Sys2Proof/Machine/PlaneDecoder.lean ====
section
/-! DEFINITION. The plane decoder (40_plane_decoder.md): the commands DECODE_PLANE and DECODE_FRAME, the markers, the
packets, and the block steps that carry a packet on. -/

namespace Sys2Proof.Machine

/-- LIT, the length-byte step of a literal run (40_plane_decoder.md R106, R107): RUN_LEFT <- count, STATE <- LIT. The
payload bytes are copied by `litByteStep`, one step each (log 9). -/
def execLit (m : BitVec 7) (s : State) : Host.Outcome State Fault Refusal :=
  .next (s.startRun .lit (litCount m) (lengthByteOf false m))

/-- REP, the length-byte step of a repeat run (40_plane_decoder.md R106, R108): RUN_LEFT <- count, STATE <- REPV. The
value byte is read by `repeatValueStep` and the samples are written by `fillStep` (log 9). -/
def execRep (m : BitVec 7) (s : State) : Host.Outcome State Fault Refusal :=
  .next (s.startRun .repv (repCount m) (lengthByteOf true m))

/-- MARK_K (40_plane_decoder.md R104). -/
def execMarkK (s : State) : Host.Outcome State Fault Refusal :=
  .next { s with curPlane := .red, cnt := 0, seq := .hdr }

/-- MARK_E (40_plane_decoder.md R105). -/
def execMarkE (s : State) : Host.Outcome State Fault Refusal :=
  .next { s with endFlag := true, done := true, seq := .idle }

/-- The start of an accepted DECODE_PLANE of plane c (40_plane_decoder.md R100). -/
def State.startPlane (c : Plane) (s : State) : State :=
  { s with mode := .plane, curPlane := c, cnt := 0, runLeft := 0, seq := .hdr }

/-- The start of an accepted DECODE_FRAME (40_plane_decoder.md R101). -/
def State.startFrame (s : State) : State :=
  { s with mode := .frame, curPlane := .red, cnt := 0, runLeft := 0, seq := .marker }

/-- DECODE_PLANE (40_plane_decoder.md R100; 42_commands.md R171, R172). PL = 3 is an illegal command word with low
byte 0x31 (30_encoding.md R86; log 16). -/
def execDecodePlane (pl : BitVec 2) (s : State) : Host.Outcome State Fault Refusal :=
  match Plane.ofBits? pl with
  | some c => .next (s.acceptCommand (State.startPlane c))
  | none => .next (s.illegalCommand ((commandWordOf 0x1#4 pl).extractLsb' 0 8))

/-- DECODE_FRAME (40_plane_decoder.md R101; 42_commands.md R171, R172). -/
def execDecodeFrame (s : State) : Host.Outcome State Fault Refusal :=
  .next (s.acceptCommand State.startFrame)

/-- LIT's step for one payload byte (40_plane_decoder.md R107); R111 at the end of the stream. -/
def litByteStep (s : State) : Host.Outcome State Fault Refusal :=
  match s.inRead with
  | .byte b t => t.produceSample b
  | .endOfStream => .next (s.blockError .truncated 0x00#8)
  | .hold => .next s

/-- REP's step for its value byte (40_plane_decoder.md R108, REPV); R111 at the end of the stream. -/
def repeatValueStep (s : State) : Host.Outcome State Fault Refusal :=
  match s.inRead with
  | .byte b t => .next { t with runVal := b, seq := .fill }
  | .endOfStream => .next (s.blockError .truncated 0x00#8)
  | .hold => .next s

/-- REP's step for one repeated sample (40_plane_decoder.md R108, FILL). It reads no input. -/
def fillStep (s : State) : Host.Outcome State Fault Refusal := s.produceSample s.runVal

end Sys2Proof.Machine
end

