-- ==== Sys2Proof/Machine/Dispatch.lean ====
section
/-! DEFINITION. The meaning of each instruction, one arm for each constructor of Instr. -/

namespace Sys2Proof.Machine

def exec (i : Instr) (s : State) : Host.Outcome State Fault Refusal :=
  match i with
  | .lit m => Sys2Proof.Machine.execLit m s
  | .rep m => Sys2Proof.Machine.execRep m s
  | .markK => Sys2Proof.Machine.execMarkK s
  | .markE => Sys2Proof.Machine.execMarkE s
  | .decodePlane pl => Sys2Proof.Machine.execDecodePlane pl s
  | .decodeFrame => Sys2Proof.Machine.execDecodeFrame s
  | .grade => Sys2Proof.Machine.execGrade s
  | .sreset => Sys2Proof.Machine.execSreset s

end Sys2Proof.Machine
end

