-- ==== Sys2Proof/Machine/HostPort.lean ====
section
/-! DEFINITION. The host's steps: register and window reads and writes (20_memory.md R50 to R60; 42_commands.md R170
to R180). -/

namespace Sys2Proof.Machine

/-- A byte of the window as the host reads it; one that does not exist reads as 0 (20_memory.md R57). -/
def State.windowByte (s : State) (j : Nat) : Byte := (s.memRead j).getD 0#8

/-- Window word k, little-endian (20_memory.md R56). -/
def State.windowWord (s : State) (k : Nat) : Word :=
  BitVec.setWidth 32
    (s.windowByte (4 * k + 3) ++ s.windowByte (4 * k + 2) ++ s.windowByte (4 * k + 1) ++ s.windowByte (4 * k))

/-- A write of one byte of the window; one that does not exist is ignored (20_memory.md R57). -/
def State.writeWindowByte (j : Nat) (v : Byte) (s : State) : State := (s.memWrite j v).getD s

/-- A write of window word k, little-endian (20_memory.md R56). -/
def State.writeWindowWord (k : Nat) (w : Word) (s : State) : State :=
  (((s.writeWindowByte (4 * k) (w.extractLsb' 0 8)).writeWindowByte (4 * k + 1) (w.extractLsb' 8 8)).writeWindowByte
    (4 * k + 2) (w.extractLsb' 16 8)).writeWindowByte (4 * k + 3) (w.extractLsb' 24 8)

/-- A write the block refuses because BUSY = 1 (20_memory.md R58). -/
def State.unlessBusy (write : State → State) (s : State) : State :=
  if s.busy then { s with wrRej := true } else write s

/-- IN_DATA push (42_commands.md R177). -/
def State.pushInput (b : Byte) (s : State) : State :=
  if s.eos = false ∧ s.ififo.length < s.params.fifoDepth then { s with ififo := s.ififo ++ [b] }
  else { s with inRej := true }

/-- IN_LEVEL as it is read: the number of bytes in IFIFO (10_state.md R41; 42_commands.md R180). The spec is silent on a
number that does not fit the register's 32 bits; the model's choice is a free value there (log 18). -/
def State.levelWord (s : State) : Word :=
  if s.ififo.length < 2 ^ 32 then BitVec.ofNat 32 s.ififo.length else Config.wideLevel s.ififo.length

/-- What a register reads as (42_commands.md R180; 10_state.md R29 to R45). -/
def State.readReg (s : State) : Reg → Word
  | .cmd => 0#32
  | .status => s.statusWord
  | .width => s.width
  | .height => s.height
  | .grade => s.gradeReg
  | .irqEn => s.irqEn
  | .inData => 0#32
  | .inCtrl => BitVec.setWidth 32 (BitVec.ofBool s.eos)
  | .inLevel => s.levelWord
  | .inCount => s.inCount
  | .frameCount => s.frameCount
  | .pos => s.cnt
  | .errByte => BitVec.setWidth 32 s.errByte

/-- A write of w to CMD (42_commands.md R170 to R172): a legal word runs its instruction, an illegal one is an error
or a rejection. -/
def commandWrite (w : Word) (s : State) : Host.Outcome State Fault Refusal :=
  match decodeCommand w with
  | .ok i => exec i s
  | .error _ => .next (s.illegalCommand (w.extractLsb' 0 8))

/-- A write of w to a register (42_commands.md R170 to R179; 20_memory.md R54, R58). -/
def writeReg (r : Reg) (w : Word) (s : State) : Host.Outcome State Fault Refusal :=
  match r with
  | .cmd => commandWrite w s
  | .status => .next (s.clearFlags w)
  | .width => .next (s.unlessBusy fun t => { t with width := w })
  | .height => .next (s.unlessBusy fun t => { t with height := w })
  | .grade => .next (s.unlessBusy fun t => { t with gradeReg := gradeStored w })
  | .irqEn => .next { s with irqEn := BitVec.setWidth 32 (w.extractLsb' 0 2) }
  | .inData => .next (s.pushInput (w.extractLsb' 0 8))
  | .inCtrl => .next { s with eos := s.eos || w.getLsbD 0 }
  | .inLevel => .next s
  | .inCount => .next s
  | .frameCount => .next s
  | .pos => .next s
  | .errByte => .next s

/-- `HostRead(a)` (20_memory.md R51). A window read while BUSY = 1 is any word (R59; FREE VALUE, log 6). -/
def hostRead (a : Word) (s : State) : State :=
  match portTarget s.params a with
  | none => { s with response := .busError }
  | some (.reg r) => { s with response := .data (s.readReg r) }
  | some (.window k) =>
    if s.busy then { s with response := .data (Config.freeWord s.draws), draws := s.draws + 1 }
    else { s with response := .data (s.windowWord k) }

/-- `HostWrite(a, w)` (20_memory.md R51). -/
def hostWrite (a w : Word) (s : State) : Host.Outcome State Fault Refusal :=
  match portTarget s.params a with
  | none => .next { s with response := .busError }
  | some (.reg r) => writeReg r w { s with response := .ok }
  | some (.window k) => .next ({ s with response := .ok }.unlessBusy (State.writeWindowWord k w))

/-- One host step (00_scope.md R16; 42_commands.md R181). -/
def hostStep (op : HostOp) (s : State) : Host.Outcome State Fault Refusal :=
  match op with
  | .read a => .next (hostRead a s)
  | .write a w => hostWrite a w s

end Sys2Proof.Machine
end

