-- ==== Sys2Proof/Machine/Sequencer.lean ====
section
/-! DEFINITION. The block's step, chosen by STATE (40_plane_decoder.md R102), and what it takes for the block's next
step to read a given byte in a given role. -/

namespace Sys2Proof.Machine

/-- The marker step (40_plane_decoder.md R103): a marker byte runs its instruction, any other byte raises FORMAT. -/
def markerStep (s : State) : Host.Outcome State Fault Refusal :=
  match s.inRead with
  | .byte b t =>
    match decodeMarker b with
    | .ok i => exec i t
    | .error _ => .next (t.blockError .format b)
  | .endOfStream => .next (s.blockError .truncated 0x00#8)
  | .hold => .next s

/-- The length-byte step (40_plane_decoder.md R106): the byte runs the packet's instruction. -/
def headerStep (s : State) : Host.Outcome State Fault Refusal :=
  match s.inRead with
  | .byte b t => exec (decodeLength b) t
  | .endOfStream => .next (s.blockError .truncated 0x00#8)
  | .hold => .next s

/-- The block's turn (40_plane_decoder.md R102). In IDLE, in ERROR and while an InRead holds no step is enabled and
nothing changes (log 2). -/
def blockStep (s : State) : Host.Outcome State Fault Refusal :=
  match s.seq with
  | .idle => .next s
  | .marker => markerStep s
  | .hdr => headerStep s
  | .lit => litByteStep s
  | .repv => repeatValueStep s
  | .fill => fillStep s
  | .grade => gradeStep s
  | .error => .next s

/-- A decode in progress with samples still needed: the one thing a marker or length byte needs before it can be
read. Dimensions that allow one are kept; otherwise they become MAX_PIXELS x 1 and CNT becomes 0 (log 15). -/
def State.readyToDecode (s : State) : State :=
  let t := { s with done := false, endFlag := false, errcode := .none, sched := .block :: s.sched }
  if s.dimensionsLegal ∧ s.cnt.toNat < s.pixels then t
  else { t with width := BitVec.ofNat 32 s.params.maxPixels, height := 1, cnt := 0 }

/-- `bytes` stand where the next bytes are read, in place of as many bytes of IFIFO, within its room. -/
def State.placeInput (bytes : List Byte) (s : State) : State :=
  { s with ififo := (bytes ++ s.ififo.drop bytes.length).take s.params.fifoDepth }

/-- The block's next step reads marker b. -/
def State.placeMarker (b : Byte) (s : State) : State :=
  { s.readyToDecode.placeInput [b] with
    seq := .marker, mode := .frame, curPlane := .red, cnt := 0, runLeft := 0 }

/-- The block's next step reads length byte b; its packet's payload, of zeros, follows. -/
def State.placePacket (b : Byte) (s : State) : State :=
  { s.readyToDecode.placeInput (b :: List.replicate (payloadLength b) 0#8) with seq := .hdr, runLeft := 0 }

end Sys2Proof.Machine
end

