-- ==== Sys2Proof/Machine/Step.lean ====
section
/-! DEFINITION. One step of the whole machine: the turn that State.sched names (00_scope.md R16; log 1). -/

namespace Sys2Proof.Machine

/-- The next turn's step. With no turn named, the block moves. -/
def step (s : State) : Host.Outcome State Fault Refusal :=
  match s.sched with
  | [] => blockStep s
  | .block :: rest => blockStep { s with sched := rest }
  | .host op :: rest => hostStep op { s with sched := rest }

/-- s with a word of spec/opcode_table.json where the very next step reads it: a command word as the host's next
write to CMD, a marker or length byte as the next byte of IFIFO in the STATE that reads it (log 15). -/
def State.withFetchWord (s : State) (nbits w : Nat) : State :=
  match tableObject nbits w with
  | none => s
  | some (.commandWord c) => { s with sched := .host (.write Reg.cmd.offset c) :: s.sched }
  | some (.markerByte b) => s.placeMarker b
  | some (.lengthByte b) => s.placePacket b

end Sys2Proof.Machine
end

