-- ==== Sys2Proof/Machine/PlaneFunction.lean ====
section
/-! DEFINITION. The functional form of the decoder, beside the machine (40_plane_decoder.md R116): what a whole decode
computes from the bytes of the stream. -/

namespace Sys2Proof.Machine

/-- How `decodePlane` ends: with the plane's samples, or with an error after `out` samples; `rest` is the input not
consumed. -/
inductive PlaneResult where
  | ok (samples rest : List Byte)
  | err (code : ErrCode) (byte : Byte) (out rest : List Byte)
deriving DecidableEq, Repr

/-- Samples a length byte declares (40_plane_decoder.md R106; 30_encoding.md R77). -/
def declaredCount (b : Byte) : Nat :=
  if b.getLsbD 7 then repCount (b.extractLsb' 0 7) else litCount (b.extractLsb' 0 7)

/-- The loop of `decodePlane` (40_plane_decoder.md R116) with `need` samples still to produce after `out`. Each packet
produces at least one, so `fuel` = `need` is enough. -/
def decodePlaneFrom (policy : OvershootPolicy) : (fuel need : Nat) → (out input : List Byte) → PlaneResult
  | 0, _, out, input => .ok out input
  | _ + 1, 0, out, input => .ok out input
  | _ + 1, _ + 1, out, [] => .err .truncated 0x00#8 out []
  | fuel + 1, need + 1, out, b :: input =>
    if need + 1 < declaredCount b ∧ policy = .fault then .err .overshoot b out input
    else
      let count := min (declaredCount b) (need + 1)
      if b.getLsbD 7 then
        match input with
        | [] => .err .truncated 0x00#8 out []
        | v :: input => decodePlaneFrom policy fuel (need + 1 - count) (out ++ List.replicate count v) input
      else if input.length < count then .err .truncated 0x00#8 (out ++ input) []
      else decodePlaneFrom policy fuel (need + 1 - count) (out ++ input.take count) (input.drop count)

/-- `decodePlane(s, pos, N, policy)` (40_plane_decoder.md R116) on the bytes from `pos` on. -/
def decodePlane (policy : OvershootPolicy) (n : Nat) (input : List Byte) : PlaneResult :=
  decodePlaneFrom policy n n [] input

/-- How a whole DECODE_FRAME ends (40_plane_decoder.md R116): with the three planes, with the end of frames, or with an
error in plane `plane`. -/
inductive FrameResult where
  | ok (red green blue rest : List Byte)
  | endOfFrames (rest : List Byte)
  | err (code : ErrCode) (byte : Byte) (plane : Plane) (out rest : List Byte)
deriving DecidableEq, Repr

/-- DECODE_FRAME as a function of the stream (40_plane_decoder.md R116): one marker, then three planes in a row. -/
def decodeFrame (policy : OvershootPolicy) (n : Nat) : List Byte → FrameResult
  | [] => .err .truncated 0x00#8 .red [] []
  | m :: input =>
    match decodeMarker m with
    | .ok .markK =>
      match decodePlane policy n input with
      | .err code byte out rest => .err code byte .red out rest
      | .ok red input =>
        match decodePlane policy n input with
        | .err code byte out rest => .err code byte .green out rest
        | .ok green input =>
          match decodePlane policy n input with
          | .err code byte out rest => .err code byte .blue out rest
          | .ok blue rest => .ok red green blue rest
    | .ok _ => .endOfFrames input
    | .error _ => .err .format m .red [] input

end Sys2Proof.Machine
end

