-- ==== Sys2Proof/Safety.lean ====
section
/-! DEFINITION. What the claims are about: the invariant of the states runs reach, the end of a command, and runs of
several steps. -/

namespace Sys2Proof.Machine

/-- The state after a step that goes on; none after a fault or a refusal. -/
def nextState? : Host.Outcome State Fault Refusal → Option State
  | .next s => some s
  | .fault _ => none
  | .refused _ => none

/-- k steps, none if one of them does not go on. -/
def runSteps : Nat → State → Option State
  | 0, s => some s
  | k + 1, s => (nextState? (step s)).bind (runSteps k)

/-- k steps during which a command stays in progress: the block is busy before each of them. -/
def runBusy : Nat → State → Option State
  | 0, s => some s
  | k + 1, s => if s.busy then (nextState? (step s)).bind (runBusy k) else none

/-- The input bytes a host access adds to IFIFO: the low byte of a word written to IN_DATA, where the push is not
dropped (42_commands.md R177). -/
def State.acceptedBytes (s : State) : HostOp → List Byte
  | .read _ => []
  | .write a w =>
    if a = 0x18#32 ∧ s.eos = false ∧ s.ififo.length < s.params.fifoDepth then [w.extractLsb' 0 8] else []

/-- The input bytes the next turn adds to IFIFO. -/
def State.pushedNext (s : State) : List Byte :=
  match s.sched with
  | .host op :: _ => s.acceptedBytes op
  | _ => []

/-- The input bytes k steps add to IFIFO, in order. -/
def pushedIn : Nat → State → List Byte
  | 0, _ => []
  | k + 1, s => s.pushedNext ++ ((nextState? (step s)).map (pushedIn k)).getD []

/-- The host does not write SRESET. It may read, push, set EOS and write any register or window word, and the block's
turns and the host's may mix in any order. -/
abbrev State.noSreset (s : State) : Prop := Turn.host (.write 0x00#32 0x0000000F#32) ∉ s.sched

/-- How many of the next k turns are the block's, the others being the host's: those of the schedule, and every turn
after it has run out (log 1). -/
def blockTurns : Nat → List Turn → Nat
  | 0, _ => 0
  | k + 1, [] => blockTurns k [] + 1
  | k + 1, .block :: rest => blockTurns k rest + 1
  | k + 1, .host _ :: rest => blockTurns k rest

/-- The block moves next in s, and u is s with that turn taken from the schedule. -/
abbrev State.BlockTurn (s u : State) : Prop :=
  (s.sched = [] ∧ u = s) ∨ (s.sched = .block :: u.sched ∧ u = { s with sched := u.sched })

/-- The host reads offset a next in s, and u is s with that turn taken from the schedule. -/
abbrev State.HostReads (s : State) (a : Word) (u : State) : Prop :=
  s.sched = .host (.read a) :: u.sched ∧ u = { s with sched := u.sched }

/-- The host writes w to offset a next in s, and u is s with that turn taken and `Ok` answered. -/
abbrev State.HostWrites (s : State) (a w : Word) (u : State) : Prop :=
  s.sched = .host (.write a w) :: u.sched ∧ u = { s with sched := u.sched, response := .ok }

/-- The next turn is a host write of 0x0000000F to CMD (42_commands.md R174). -/
abbrev State.SresetNext (s : State) : Prop := s.sched.head? = some (.host (.write 0x00#32 0x0000000F#32))

/-- May the decode in progress write FB byte j? (60_exceptions.md R203.) -/
def State.mayWrite (s : State) (j : Nat) : Prop :=
  match s.mode with
  | .plane => ∃ i, i < s.pixels ∧ j = 3 * i + s.curPlane.index
  | .frame => j < 3 * s.pixels

/-- t is u after a block step raised Error(code, byte): ERRCODE, ERR_BYTE and STATE are written, the FB bytes the
failed command may write are any bytes, and everything else is as it was (60_exceptions.md R202, R203). -/
def State.FailsWith (u t : State) (code : ErrCode) (byte : Byte) : Prop :=
  t = { u with errcode := code, errByte := byte, seq := .error, fb := t.fb, draws := t.draws } ∧
  ∀ j, ¬ u.mayWrite j → t.fbByte j = u.fbByte j

/-- Pixel i as the frame buffer holds it (10_state.md R31). -/
def State.pixelAt (s : State) (i : Nat) : Pixel where
  r := s.fbByte (3 * i)
  g := s.fbByte (3 * i + 1)
  b := s.fbByte (3 * i + 2)

/-- A command accepted earlier ends in such a state (70_reset_and_hazards.md R240): success or failure. -/
abbrev State.commandEnded (s : State) : Prop := (s.seq = .idle ∧ s.done = true) ∨ s.seq = .error

/-- t is how a DECODE_PLANE that started its plane in s ends on the input `stream`, as `decodePlane` says: with the
plane's samples in its FB bytes, or with the error, its byte and the count of samples produced; and with the bytes
not consumed in IFIFO (40_plane_decoder.md R116). -/
def State.EndsAsDecodePlane (s t : State) (stream : List Byte) : Prop :=
  match decodePlane s.params.overshoot s.pixels stream with
  | .ok samples rest =>
    t.seq = .idle ∧ t.done = true ∧ t.cnt.toNat = s.pixels ∧ t.ififo = rest ∧ samples.length = s.pixels ∧
    ∀ i, i < s.pixels → some (t.fbByte (3 * i + s.curPlane.index)) = samples[i]?
  | .err code byte out rest =>
    t.seq = .error ∧ t.done = false ∧ t.errcode = code ∧ t.errByte = byte ∧ t.cnt.toNat = out.length ∧ t.ififo = rest

/-- t is how a DECODE_FRAME that waited for its marker in s ends on the input `stream`, as `decodeFrame` says: with the
three planes interleaved, with END, or with the error, its byte, its plane and the count of samples produced; and with
the bytes not consumed in IFIFO (40_plane_decoder.md R116). -/
def State.EndsAsDecodeFrame (s t : State) (stream : List Byte) : Prop :=
  match decodeFrame s.params.overshoot s.pixels stream with
  | .ok red green blue rest =>
    t.seq = .idle ∧ t.done = true ∧ t.endFlag = false ∧ t.frameCount = s.frameCount + 1 ∧ t.ififo = rest ∧
    t.curPlane = .blue ∧ t.cnt.toNat = s.pixels ∧
    ∀ i, i < s.pixels →
      some (t.fbByte (3 * i)) = red[i]? ∧ some (t.fbByte (3 * i + 1)) = green[i]? ∧
      some (t.fbByte (3 * i + 2)) = blue[i]?
  | .endOfFrames rest =>
    t.seq = .idle ∧ t.done = true ∧ t.endFlag = true ∧ t.frameCount = s.frameCount ∧ t.ififo = rest ∧ t.fb = s.fb
  | .err code byte plane out rest =>
    t.seq = .error ∧ t.done = false ∧ t.errcode = code ∧ t.errByte = byte ∧ t.curPlane = plane ∧
    t.cnt.toNat = out.length ∧ t.frameCount = s.frameCount ∧ t.ififo = rest

/-- What the sequencer registers satisfy in each STATE (10_state.md R23 to R26; 40_plane_decoder.md R106). -/
def State.seqInv (s : State) : Prop :=
  match s.seq with
  | .idle => True
  | .error => True
  | .marker => s.mode = .frame ∧ s.curPlane = .red ∧ s.cnt = 0
  | .hdr => s.cnt.toNat < s.pixels
  | .lit => 1 ≤ s.runLeft.toNat ∧ s.runLeft.toNat ≤ 128 ∧ s.cnt.toNat + s.runLeft.toNat ≤ s.pixels
  | .repv => 1 ≤ s.runLeft.toNat ∧ s.runLeft.toNat ≤ 130 ∧ s.cnt.toNat + s.runLeft.toNat ≤ s.pixels
  | .fill => 1 ≤ s.runLeft.toNat ∧ s.runLeft.toNat ≤ 130 ∧ s.cnt.toNat + s.runLeft.toNat ≤ s.pixels
  | .grade => s.cnt.toNat < s.pixels

/-- The invariant of every state a run reaches. -/
structure State.Inv (s : State) : Prop where
  /-- 00_scope.md R6, R7. -/
  params : s.params.legal
  /-- FB keeps its canonical form. -/
  fbWf : Memory.wf s.fb = true
  /-- FB has bytes 0 to 3 x MAX_PIXELS - 1 and no others (10_state.md R31). -/
  fbInside : ∀ i, (Memory.read? s.fb i).isSome → i < s.params.fbBytes
  /-- IFIFO has room for IN_FIFO_DEPTH bytes (10_state.md R32). -/
  fifo : s.ififo.length ≤ s.params.fifoDepth
  /-- A stored field of GRADE never exceeds 100, and the reserved bits read 0 (10_state.md R37). -/
  grade : gradeStored s.gradeReg = s.gradeReg
  /-- The reserved bits of IRQ_EN read 0 (10_state.md R38). -/
  irqEn : s.irqEn.toNat < 4
  /-- ERRCODE is nonzero exactly when STATE = ERROR (10_state.md R46). -/
  errcode : s.errcode ≠ .none ↔ s.seq = .error
  /-- DONE and END are 0 while a command runs and after it failed (10_state.md R47; 60_exceptions.md R202). -/
  flags : s.seq ≠ .idle → s.done = false ∧ s.endFlag = false
  /-- A command runs only with legal dimensions, which cannot change under it (10_state.md R28). -/
  dimensions : s.busy = true → s.dimensionsLegal = true
  /-- The sequencer registers fit STATE. -/
  sequencer : s.seqInv

end Sys2Proof.Machine
end

