-- ==== Sys2Proof/Certificates/Slice0/Obligations.lean ====
section
/-! DEFINITION. The statements for the provers. Each docstring names the rules of spec/ it formalises; values the model
chose are marked with their log entry. -/

open Sys2Proof Sys2Proof.Machine

/-! ### Encodings -/

/-- Decode and encode agree: no bit of a well-formed instruction's encoding is dropped (30_encoding.md R75, R82, R85). -/
def Obligations.DecodeEncodeRoundTrip : Prop :=
  ∀ i : Instr, WellFormed i = true → decode (encode i) = .ok i

/-- Every object the decoder accepts is the encoding of the well-formed instruction it gives, so each accepted object
has one meaning (30_encoding.md R75, R82, R85). -/
def Obligations.DecodedObjectIsItsEncoding : Prop :=
  ∀ (e : Encoded) (i : Instr), decode e = .ok i → WellFormed i = true ∧ encode i = e

/-- R76: length bytes 0x00 to 0x7F are LIT and 0x80 to 0xFF are REP; all 256 are valid. -/
def Obligations.LengthByteKinds : Prop :=
  ∀ b : Byte,
    (b.toNat < 0x80 → decode (.lengthByte b) = .ok (.lit (BitVec.ofNat 7 b.toNat))) ∧
    (0x80 ≤ b.toNat → decode (.lengthByte b) = .ok (.rep (BitVec.ofNat 7 b.toNat)))

/-- R77: with n = sext_8 of the length byte and M its low 7 bits, a literal run declares n + 1 = M + 1 samples, 1 to
128, and a repeat run 2 - n = 130 - M, 3 to 130. -/
def Obligations.RunCountsFromSignedLength : Prop :=
  ∀ b : Byte,
    let m : BitVec 7 := b.extractLsb' 0 7
    (0 ≤ b.toInt → decode (.lengthByte b) = .ok (.lit m) ∧ (litCount m : Int) = b.toInt + 1 ∧
      litCount m = m.toNat + 1 ∧ 1 ≤ litCount m ∧ litCount m ≤ 128) ∧
    (b.toInt < 0 → decode (.lengthByte b) = .ok (.rep m) ∧ (repCount m : Int) = 2 - b.toInt ∧
      repCount m + m.toNat = 130 ∧ 3 ≤ repCount m ∧ repCount m ≤ 130)

/-- R82, R83: at a marker position 0x4B is MARK_K, 0x45 is MARK_E and every other byte is rejected. -/
def Obligations.MarkerBytes : Prop :=
  ∀ b : Byte,
    (b = 0x4B#8 → decode (.markerByte b) = .ok .markK) ∧
    (b = 0x45#8 → decode (.markerByte b) = .ok .markE) ∧
    (b ≠ 0x4B#8 → b ≠ 0x45#8 → decode (.markerByte b) = .error (.reservedMarker b))

/-- R85, R86: over all 2^32 command words, the legal ones are the six of the table, each with its instruction. -/
def Obligations.LegalCommandWords : Prop :=
  ∀ (w : Word) (i : Instr),
    decode (.commandWord w) = .ok i ↔
      (w, i) ∈ [(0x00000001#32, Instr.decodePlane 0#2), (0x00000011#32, .decodePlane 1#2),
        (0x00000021#32, .decodePlane 2#2), (0x00000002#32, .decodeFrame), (0x00000003#32, .grade),
        (0x0000000F#32, .sreset)]

/-- Words written out from the encodings of 30_encoding.md R75, R82 and R85 decode to the instructions they stand for. -/
def Obligations.SpecWordsDecode : Prop :=
  decode (.lengthByte 0b00000000#8) = .ok (.lit 0#7) ∧ decode (.lengthByte 0b01111111#8) = .ok (.lit 127#7) ∧
  decode (.lengthByte 0b11111111#8) = .ok (.rep 127#7) ∧ decode (.lengthByte 0b10000000#8) = .ok (.rep 0#7) ∧
  decode (.markerByte 0b01001011#8) = .ok .markK ∧ decode (.markerByte 0b01000101#8) = .ok .markE ∧
  decode (.commandWord 0x00000011#32) = .ok (.decodePlane 1#2) ∧
  decode (.commandWord 0x0000000F#32) = .ok .sreset

/-- 30_encoding.md R90: RUN and LITS expand to packets that have encodings and that declare exactly the samples named;
SETPARAMS is the word (s << 16) | (c << 8) | b. -/
def Obligations.ExpansionsAreConforming : Prop :=
  (∀ (v : Byte) (c : Nat),
    (∀ p ∈ runPackets v c, p.wellFormed = true) ∧ planeSamples (runPackets v c) = List.replicate c v) ∧
  (∀ vs : List Byte, (∀ p ∈ litsPackets vs, p.wellFormed = true) ∧ planeSamples (litsPackets vs) = vs) ∧
  (∀ b c s : Byte, setParamsWord b c s =
    (s.setWidth 32 <<< 16) ||| (c.setWidth 32 <<< 8) ||| b.setWidth 32)

/-- The functional form decodes every conforming encoding, under either policy, and consumes exactly its bytes
(40_plane_decoder.md R116, R118). -/
def Obligations.ConformingPlaneDecodes : Prop :=
  ∀ (policy : OvershootPolicy) (ps : List Packet) (rest : List Byte), (∀ p ∈ ps, p.wellFormed = true) →
    decodePlane policy (planeSamples ps).length (planeBytes ps ++ rest) = .ok (planeSamples ps) rest

/-! ### The step -/

/-- A step runs the decoded instruction: a host write to CMD runs the command word's instruction, and a block turn in
MARKER or HDR runs the instruction of the byte it takes from IFIFO (40_plane_decoder.md R102, R103, R106;
42_commands.md R170). Around it, the turn leaves the schedule, the port answers Ok, and InRead counts the byte. -/
def Obligations.StepRunsDecodedInstruction : Prop :=
  ∀ (s u : State) (i : Instr),
    (∀ w, s.HostWrites 0x00#32 w u → decode (.commandWord w) = .ok i → step s = exec i u) ∧
    (∀ b q, s.BlockTurn u → u.seq = .marker → u.ififo = b :: q → decode (.markerByte b) = .ok i →
      step s = exec i { u with ififo := q, inCount := u.inCount + 1 }) ∧
    (∀ b q, s.BlockTurn u → u.seq = .hdr → u.ififo = b :: q → decode (.lengthByte b) = .ok i →
      step s = exec i { u with ififo := q, inCount := u.inCount + 1 })

/-- No block step is enabled in IDLE, in ERROR or while an InRead holds: the block's turn then keeps all state
(00_scope.md R13, R16; 60_exceptions.md R214). That the turn passes and the machine goes on waiting is the model's form
(log 2). -/
def Obligations.WaitingKeepsAllState : Prop :=
  ∀ s u : State, s.BlockTurn u →
    u.seq = .idle ∨ u.seq = .error ∨
      (u.seq ∈ [Seq.marker, .hdr, .lit, .repv] ∧ u.ififo = [] ∧ u.eos = false) →
    step s = .next u

/-! ### Commands -/

/-- DECODE_PLANE from IDLE with legal dimensions starts the decode of plane PL (40_plane_decoder.md R100;
42_commands.md R172). -/
def Obligations.DecodePlaneStarts : Prop :=
  ∀ (s : State) (pl : BitVec 2) (c : Plane), (pl, c) ∈ [(0#2, Plane.red), (1#2, .green), (2#2, .blue)] →
    s.seq = .idle → s.width ≠ 0 → s.height ≠ 0 → s.width.toNat * s.height.toNat ≤ s.params.maxPixels →
    exec (.decodePlane pl) s = .next
      { s with done := false, endFlag := false, mode := .plane, curPlane := c, cnt := 0, runLeft := 0, seq := .hdr }

/-- DECODE_FRAME from IDLE with legal dimensions waits for a marker (40_plane_decoder.md R101; 42_commands.md R172). -/
def Obligations.DecodeFrameStarts : Prop :=
  ∀ s : State,
    s.seq = .idle → s.width ≠ 0 → s.height ≠ 0 → s.width.toNat * s.height.toNat ≤ s.params.maxPixels →
    exec .decodeFrame s = .next
      { s with done := false, endFlag := false, mode := .frame, curPlane := .red, cnt := 0, runLeft := 0,
               seq := .marker }

/-- GRADE from IDLE with legal dimensions starts at pixel 0 (41_color_grader.md R148; 42_commands.md R172). -/
def Obligations.GradeStarts : Prop :=
  ∀ s : State,
    s.seq = .idle → s.width ≠ 0 → s.height ≠ 0 → s.width.toNat * s.height.toNat ≤ s.params.maxPixels →
    exec .grade s = .next { s with done := false, endFlag := false, cnt := 0, seq := .grade }

/-- R171: a command word other than SRESET written while STATE is not IDLE sets CMD_REJ and changes nothing else,
whether or not it is legal. -/
def Obligations.CommandRejectedUnlessIdle : Prop :=
  ∀ (s u : State) (w : Word), s.HostWrites 0x00#32 w u → w ≠ 0x0000000F#32 → u.seq ≠ .idle →
    step s = .next { u with cmdRej := true }

/-- 42_commands.md R172, 30_encoding.md R86: an illegal command word written from IDLE clears DONE and END and raises
ILLEGAL_CMD with its low byte, whatever the dimensions are (60_exceptions.md R205 (a)); FB is unchanged. That
exec of the ill-formed term DECODE_PLANE with PL = 3, which no word decodes to, does the same is the model's choice
(log 16). -/
def Obligations.IllegalCommandRaises : Prop :=
  ∀ u : State, u.seq = .idle →
    (∀ (s : State) (w : Word), s.HostWrites 0x00#32 w u →
      w ∉ [0x00000001#32, 0x00000011#32, 0x00000021#32, 0x00000002#32, 0x00000003#32, 0x0000000F#32] →
      step s = .next
        { u with done := false, endFlag := false, errcode := .illegalCmd, errByte := w.extractLsb' 0 8,
                 seq := .error }) ∧
    exec (.decodePlane 3#2) u = .next
      { u with done := false, endFlag := false, errcode := .illegalCmd, errByte := 0x31#8, seq := .error }

/-- 42_commands.md R172, R173: a legal command from IDLE with WIDTH = 0, HEIGHT = 0 or N > MAX_PIXELS, N the exact
product, clears DONE and END and raises DIMENSION; FB is unchanged. -/
def Obligations.BadDimensionsRaise : Prop :=
  ∀ (s : State) (i : Instr),
    i ∈ [Instr.decodePlane 0#2, .decodePlane 1#2, .decodePlane 2#2, .decodeFrame, .grade] → s.seq = .idle →
    s.width = 0 ∨ s.height = 0 ∨ s.params.maxPixels < s.width.toNat * s.height.toNat →
    exec i s = .next
      { s with done := false, endFlag := false, errcode := .dimension, errByte := 0x00#8, seq := .error }

/-- R231, R174: in every STATE, SRESET gives every register, flag, internal register and IFIFO its reset value and
leaves FB unchanged. The parameters and the model's own fields stay (log 13). -/
def Obligations.SoftResetValues : Prop :=
  ∀ s : State, exec .sreset s = .next
    { params := s.params, seq := .idle, mode := .plane, curPlane := .red, cnt := 0, runLeft := 0, runVal := 0,
      errcode := .none, errByte := 0, done := false, endFlag := false, cmdRej := false, wrRej := false,
      inRej := false, width := 0, height := 0, gradeReg := 0x00323232#32, irqEn := 0, ififo := [], eos := false,
      inCount := 0, frameCount := 0, fb := s.fb, sched := s.sched, response := s.response, draws := s.draws }

/-! ### Markers and packets -/

/-- 40_plane_decoder.md R104 and R105: MARK_K begins the red plane; MARK_E sets END and DONE and goes to IDLE. Neither
changes anything else. -/
def Obligations.MarkersEffect : Prop :=
  ∀ s : State,
    exec .markK s = .next { s with curPlane := .red, cnt := 0, seq := .hdr } ∧
    exec .markE s = .next { s with endFlag := true, done := true, seq := .idle }

/-- R112, R103: a byte other than 0x4B and 0x45 at the marker step is consumed and counted, and raises FORMAT with
ERR_BYTE the byte. -/
def Obligations.BadMarkerRaisesFormat : Prop :=
  ∀ (s u : State) (b : Byte) (q : List Byte), s.BlockTurn u → u.seq = .marker → u.ififo = b :: q →
    b ≠ 0x4B#8 → b ≠ 0x45#8 →
    ∃ t, step s = .next t ∧ State.FailsWith { u with ififo := q, inCount := u.inCount + 1 } t .format b

/-- R111, R103: a step that needs a byte and finds the end of the stream raises TRUNCATED with ERR_BYTE 0; DONE is not
set. -/
def Obligations.EndOfStreamRaisesTruncated : Prop :=
  ∀ s u : State, s.BlockTurn u → u.seq ∈ [Seq.marker, .hdr, .lit, .repv] → u.ififo = [] → u.eos = true →
    ∃ t, step s = .next t ∧ u.FailsWith t .truncated 0x00#8

/-- The length-byte step's own effect, for LIT and REP (40_plane_decoder.md R106 to R108): RUN_LEFT takes the declared
count, cut under CLAMP to the samples still needed, and STATE becomes LIT or REPV; under FAULT a larger count raises
OVERSHOOT with the length byte. -/
def Obligations.PacketsBeginTheirRun : Prop :=
  ∀ (s : State) (m : BitVec 7), s.cnt.toNat < s.pixels →
    (m.toNat + 1 ≤ s.pixels - s.cnt.toNat ∨ s.params.overshoot = .clamp →
      exec (.lit m) s = .next
        { s with runLeft := BitVec.ofNat 8 (min (m.toNat + 1) (s.pixels - s.cnt.toNat)), seq := .lit }) ∧
    (130 - m.toNat ≤ s.pixels - s.cnt.toNat ∨ s.params.overshoot = .clamp →
      exec (.rep m) s = .next
        { s with runLeft := BitVec.ofNat 8 (min (130 - m.toNat) (s.pixels - s.cnt.toNat)), seq := .repv }) ∧
    (s.pixels - s.cnt.toNat < m.toNat + 1 → s.params.overshoot = .fault →
      ∃ t, exec (.lit m) s = .next t ∧ s.FailsWith t .overshoot (BitVec.ofNat 8 m.toNat)) ∧
    (s.pixels - s.cnt.toNat < 130 - m.toNat → s.params.overshoot = .fault →
      ∃ t, exec (.rep m) s = .next t ∧ s.FailsWith t .overshoot (BitVec.ofNat 8 (128 + m.toNat)))

/-- R106: the whole length-byte step, on a hold, at the end of the stream, and on a byte. On a hold the spec's step does
not happen (00_scope.md R13); that the block's turn then passes and keeps all state is the model's choice (log 2). -/
def Obligations.LengthByteStep : Prop :=
  ∀ s u : State, s.BlockTurn u → u.seq = .hdr → u.cnt.toNat < u.pixels →
    (u.ififo = [] → u.eos = false → step s = .next u) ∧
    (u.ififo = [] → u.eos = true → ∃ t, step s = .next t ∧ u.FailsWith t .truncated 0x00#8) ∧
    (∀ b q, u.ififo = b :: q →
      let count := if b.toNat < 128 then b.toNat + 1 else 130 - (b.toNat - 128)
      let rem := u.pixels - u.cnt.toNat
      let v : State := { u with ififo := q, inCount := u.inCount + 1 }
      (count ≤ rem ∨ u.params.overshoot = .clamp →
        step s = .next
          { v with runLeft := BitVec.ofNat 8 (min count rem), seq := if b.toNat < 128 then .lit else .repv }) ∧
      (rem < count → u.params.overshoot = .fault → ∃ t, step s = .next t ∧ v.FailsWith t .overshoot b))

/-- R107: a literal step copies one payload byte to FB byte 3*CNT + CUR_PLANE, moves the counters on, and runs
PlaneEnd when RUN_LEFT becomes 0; no other FB byte changes. -/
def Obligations.LiteralStepCopiesOneByte : Prop :=
  ∀ (s u : State) (b : Byte) (q : List Byte), s.BlockTurn u → u.seq = .lit → u.ififo = b :: q →
    u.cnt.toNat < u.params.maxPixels →
    ∃ v : State,
      v = { u with ififo := q, inCount := u.inCount + 1, cnt := u.cnt + 1, runLeft := u.runLeft - 1, fb := v.fb } ∧
      (∀ j, v.fbByte j = if j = 3 * u.cnt.toNat + u.curPlane.index then b else u.fbByte j) ∧
      step s = .next (if v.runLeft = 0 then v.planeEnd else v)

/-- R108: the value step takes the value byte, and a fill step writes RUN_VAL to FB byte 3*CNT + CUR_PLANE, reads no
input, moves the counters on and runs PlaneEnd when RUN_LEFT becomes 0; no other FB byte changes. -/
def Obligations.RepeatStepsFillTheRun : Prop :=
  ∀ s u : State, s.BlockTurn u →
    (∀ b q, u.seq = .repv → u.ififo = b :: q →
      step s = .next { u with ififo := q, inCount := u.inCount + 1, runVal := b, seq := .fill }) ∧
    (u.seq = .fill → u.cnt.toNat < u.params.maxPixels →
      ∃ v : State,
        v = { u with cnt := u.cnt + 1, runLeft := u.runLeft - 1, fb := v.fb } ∧
        (∀ j, v.fbByte j = if j = 3 * u.cnt.toNat + u.curPlane.index then u.runVal else u.fbByte j) ∧
        step s = .next (if v.runLeft = 0 then v.planeEnd else v))

/-- R109, R110: PlaneEnd and FrameEnd. -/
def Obligations.PlaneEndCases : Prop :=
  ∀ s : State,
    (s.cnt.toNat < s.pixels → s.planeEnd = { s with seq := .hdr }) ∧
    (s.pixels ≤ s.cnt.toNat → s.mode = .frame → s.curPlane = .red →
      s.planeEnd = { s with curPlane := .green, cnt := 0, seq := .hdr }) ∧
    (s.pixels ≤ s.cnt.toNat → s.mode = .frame → s.curPlane = .green →
      s.planeEnd = { s with curPlane := .blue, cnt := 0, seq := .hdr }) ∧
    (s.pixels ≤ s.cnt.toNat → s.mode = .frame → s.curPlane = .blue →
      s.planeEnd = { s with frameCount := s.frameCount + 1, done := true, seq := .idle }) ∧
    (s.pixels ≤ s.cnt.toNat → s.mode = .plane → s.planeEnd = { s with done := true, seq := .idle })

/-! ### The grader -/

/-- R150, with R147 and R149: a grading step grades pixel CNT in place and changes no other FB byte. The result is
brightness with bits 7:0 of GRADE and then contrast with bits 15:8 on each channel, then saturation with bits 23:16 on
each channel about the pivot of all three. The step counts the pixel and ends the command after pixel N - 1. -/
def Obligations.GradeStepGradesOnePixel : Prop :=
  ∀ s u : State, s.BlockTurn u → u.seq = .grade → u.cnt.toNat < u.params.maxPixels →
    let p := u.pixelAt u.cnt.toNat
    let tone (v : Byte) : Byte :=
      contrastStage (brightStage v (u.gradeReg.extractLsb' 0 8)) (u.gradeReg.extractLsb' 8 8)
    let q := pivotQ (tone p.r) (tone p.g) (tone p.b)
    let satur := u.gradeReg.extractLsb' 16 8
    let graded : Pixel :=
      { r := saturStage (tone p.r) q satur, g := saturStage (tone p.g) q satur, b := saturStage (tone p.b) q satur }
    gradePixel u.gradeReg p = graded ∧
    ∃ t : State, step s = .next t ∧
      t.pixelAt u.cnt.toNat = graded ∧
      (∀ j, j < 3 * u.cnt.toNat ∨ 3 * u.cnt.toNat + 3 ≤ j → t.fbByte j = u.fbByte j) ∧
      ((u.cnt + 1).toNat = u.pixels → t = { u with fb := t.fb, cnt := u.cnt + 1, done := true, seq := .idle }) ∧
      ((u.cnt + 1).toNat ≠ u.pixels → t = { u with fb := t.fb, cnt := u.cnt + 1 })

/-- R143: the brightness stage is the exact rational v * (B + 10) / 60, floored and clamped to 8 bits. -/
def Obligations.BrightnessIsExact : Prop :=
  ∀ v b : Byte,
    ((brightStage v b).toNat : Int) = min 255 (max 0 ⌊(v.toNat : ℚ) * (((b.toNat : ℚ) + 10) / 60)⌋)

/-- R144: the contrast stage is the exact rational C * (v - 128) / 50 + 128, floored and clamped to 8 bits. -/
def Obligations.ContrastIsExact : Prop :=
  ∀ v c : Byte,
    ((contrastStage v c).toNat : Int) = min 255 (max 0 ⌊(c.toNat : ℚ) / 50 * ((v.toNat : ℚ) - 128) + 128⌋)

/-- 41_color_grader.md R145, R146: the integer form of the saturation stage is exact, which R146 marks as the spec's own
inference. It equals the source's formula P + (v - P) * S / 50 over the real pivot P = sqrt(0.299 r² + 0.587 g² + 0.114
b²), floored and clamped to 8 bits. -/
def Obligations.SaturationIsExact : Prop :=
  ∀ (r g b v s : Byte),
    let p : ℝ := Real.sqrt ((r.toNat : ℝ) ^ 2 * 0.299 + (g.toNat : ℝ) ^ 2 * 0.587 + (b.toNat : ℝ) ^ 2 * 0.114)
    ((saturStage v (pivotQ r g b) s).toNat : Int) =
      min 255 (max 0 ⌊p + ((v.toNat : ℝ) - p) * ((s.toNat : ℝ) / 50)⌋)

/-- R151 (a): with B = C = S = 50 grading changes no pixel. -/
def Obligations.NeutralGradingIsIdentity : Prop :=
  ∀ p : Pixel, gradePixel 0x00323232#32 p = p

/-- R151 (b): brightness 100 leaves 255 at 255, and with C = S = 50 so does the whole pipeline on a channel of 255. -/
def Obligations.FullBrightnessKeeps255 : Prop :=
  brightStage 255#8 100#8 = 255#8 ∧
  ∀ (w : Word) (p : Pixel), brightField w = 100#8 → contrastField w = 50#8 → saturField w = 50#8 →
    (p.r = 255#8 → (gradePixel w p).r = 255#8) ∧ (p.g = 255#8 → (gradePixel w p).g = 255#8) ∧
    (p.b = 255#8 → (gradePixel w p).b = 255#8)

/-- R151 (c): with C = 0 every channel ends at 128, whatever the brightness and the saturation. -/
def Obligations.ZeroContrastGivesGrey : Prop :=
  ∀ (w : Word) (p : Pixel), contrastField w = 0#8 → gradePixel w p = { r := 128#8, g := 128#8, b := 128#8 }

/-- R151 (e): brightness and contrast are monotone in the sample. -/
def Obligations.TonesAreMonotone : Prop :=
  ∀ u v x : Byte, u.toNat ≤ v.toNat →
    (brightStage u x).toNat ≤ (brightStage v x).toNat ∧ (contrastStage u x).toNat ≤ (contrastStage v x).toNat

/-! ### Whole commands -/

/-- 41_color_grader.md R148 to R150: from the state a GRADE command starts in, with a host that does anything but
SRESET meanwhile (log 1), exactly N block turns, and the host's turns between them, grade every pixel of the frame,
each from its own value alone, change no other FB byte, and end with DONE = 1. With a silent host they are exactly N
steps and nothing else changes. -/
def Obligations.GradeCommandGradesTheFrame : Prop :=
  ∀ s : State, s.Inv → s.seq = .grade → s.cnt = 0 → s.noSreset →
    ∃ (k : Nat) (t : State), blockTurns k s.sched = s.pixels ∧ runSteps k s = some t ∧
      t.seq = .idle ∧ t.done = true ∧ t.cnt.toNat = s.pixels ∧
      (∀ i, i < s.pixels → t.pixelAt i = gradePixel s.gradeReg (s.pixelAt i)) ∧
      (∀ j, 3 * s.pixels ≤ j → t.fbByte j = s.fbByte j) ∧
      (s.sched = [] → k = s.pixels ∧
        t = { s with fb := t.fb, cnt := BitVec.ofNat 32 s.pixels, done := true, seq := .idle })

/-- 40_plane_decoder.md R116: the block steps of a DECODE_PLANE whose stream is in IFIFO, followed by EOS, compute
`decodePlane`, with a host that does anything but SRESET meanwhile (log 1). They end within 3N block turns, the host's
turns between them not counted, and 2N bytes (R117). Pushes during the decode come after EOS and are dropped;
DecodeTakesPushedBytes is about a host that pushes the stream as the block reads it. -/
def Obligations.PlaneStepsComputeDecodePlane : Prop :=
  ∀ s : State, s.Inv → s.seq = .hdr → s.mode = .plane → s.cnt = 0 → s.eos = true → s.noSreset →
    ∃ (k : Nat) (t : State), blockTurns k s.sched ≤ 3 * s.pixels ∧ runSteps k s = some t ∧
      (∃ used, s.ififo = used ++ t.ififo ∧ used.length ≤ 2 * s.pixels ∧
        t.inCount = s.inCount + BitVec.ofNat 32 used.length) ∧
      (∀ j, ¬ s.mayWrite j → t.fbByte j = s.fbByte j) ∧
      s.EndsAsDecodePlane t s.ififo

/-- 40_plane_decoder.md R116: the block steps of a DECODE_FRAME whose stream is in IFIFO, followed by EOS, compute
`decodeFrame`, with a host that does anything but SRESET meanwhile (log 1). They end within 9N + 1 block turns, the
host's turns between them not counted, and 6N + 1 bytes (R117), each counted in IN_COUNT. -/
def Obligations.FrameStepsComputeDecodeFrame : Prop :=
  ∀ s : State, s.Inv → s.seq = .marker → s.eos = true → s.noSreset →
    ∃ (k : Nat) (t : State), blockTurns k s.sched ≤ 9 * s.pixels + 1 ∧ runSteps k s = some t ∧
      (∃ used, s.ififo = used ++ t.ififo ∧ used.length ≤ 6 * s.pixels + 1 ∧
        t.inCount = s.inCount + BitVec.ofNat 32 used.length) ∧
      (∀ j, 3 * s.pixels ≤ j → t.fbByte j = s.fbByte j) ∧
      s.EndsAsDecodeFrame t s.ififo

/-- 40_plane_decoder.md R116: a decode whose host pushes bytes, sets EOS, polls and writes other registers while it runs
(anything but SRESET, log 1) ends, when it ends, as the functional form says of the bytes that were in IFIFO at its start
followed by those pushed and not dropped since. The bytes consumed are the first of those, counted in IN_COUNT. A
block turn that holds in between changes nothing (R117; log 2). -/
def Obligations.DecodeTakesPushedBytes : Prop :=
  ∀ (s t : State) (k : Nat), s.Inv → s.noSreset → runBusy k s = some t → t.busy = false →
    (∃ used, s.ififo ++ pushedIn k s = used ++ t.ififo ∧ t.inCount = s.inCount + BitVec.ofNat 32 used.length) ∧
    (s.seq = .hdr → s.mode = .plane → s.cnt = 0 →
      (∀ j, ¬ s.mayWrite j → t.fbByte j = s.fbByte j) ∧ s.EndsAsDecodePlane t (s.ififo ++ pushedIn k s)) ∧
    (s.seq = .marker →
      (∀ j, 3 * s.pixels ≤ j → t.fbByte j = s.fbByte j) ∧ s.EndsAsDecodeFrame t (s.ififo ++ pushedIn k s))

/-- R118, R119: a plane's conforming encoding, whatever follows it in IFIFO, with or without EOS and with a host that
does anything but SRESET meanwhile (log 1), decodes in the block to the original plane under either policy within 3N
block turns, the host's turns between them not counted (R117), and exactly the encoding's bytes are consumed: what
followed it, and what was pushed since, is still in IFIFO. -/
def Obligations.ConformingPlaneRoundTrip : Prop :=
  ∀ (s : State) (ps : List Packet) (rest : List Byte), s.Inv → s.seq = .hdr → s.mode = .plane → s.cnt = 0 →
    s.noSreset → (∀ p ∈ ps, p.wellFormed = true) → (planeSamples ps).length = s.pixels →
    s.ififo = planeBytes ps ++ rest →
    ∃ (k : Nat) (t : State), blockTurns k s.sched ≤ 3 * s.pixels ∧ runSteps k s = some t ∧
      t.seq = .idle ∧ t.done = true ∧ t.ififo = rest ++ pushedIn k s ∧
      t.inCount = s.inCount + BitVec.ofNat 32 (planeBytes ps).length ∧
      ∀ i, i < s.pixels → some (t.fbByte (3 * i + s.curPlane.index)) = (planeSamples ps)[i]?

/-- 40_plane_decoder.md R117, 70_reset_and_hazards.md R240: once EOS is set, a running command ends, in IDLE with
DONE = 1 or in ERROR, within 9N + 1 block turns, the host's turns between them not counted, whatever the host does but
SRESET (log 1). -/
def Obligations.EveryCommandEnds : Prop :=
  ∀ s : State, s.Inv → s.busy = true → s.eos = true → s.noSreset →
    ∃ (k : Nat) (t : State), blockTurns k s.sched ≤ 9 * s.pixels + 1 ∧ runSteps k s = some t ∧ t.commandEnded

/-! ### Invariants and whole-machine rules -/

/-- The invariant holds after power-on reset, for every legal choice of the open parameters; so does the model's own
choice of them (log 3). -/
def Obligations.ResetMeetsInvariant : Prop :=
  (∀ p : Params, p.legal → (State.resetWith p).Inv) ∧ State.reset.Inv

/-- Every step keeps the invariant: FB's canonical form and bounds, IFIFO's room, the GRADE and IRQ_EN fields, ERRCODE
nonzero exactly in ERROR (10_state.md R46), DONE and END 0 unless IDLE, legal dimensions while busy, and
CNT + RUN_LEFT ≤ N while decoding (R26). -/
def Obligations.StepKeepsInvariant : Prop :=
  ∀ s t : State, s.Inv → step s = .next t → t.Inv

/-- From a state that meets the invariant step answers a next state: no fault and no refusal (00_scope.md R14: the block
never leaves the frame buffer; 42_commands.md R181: every host access completes). In IDLE, in ERROR and on a hold the
spec enables no block step (00_scope.md R13, R16); that the block's turn then passes to a next state is the model's
choice (log 2). -/
def Obligations.StepNeverStops : Prop :=
  ∀ s : State, s.Inv → ∃ t, step s = .next t

/-- R204: the only way out of ERROR is SRESET, and no second error is raised before it. -/
def Obligations.OnlySresetLeavesError : Prop :=
  ∀ s t : State, s.seq = .error → step s = .next t →
    s.SresetNext ∨ (t.seq = .error ∧ t.errcode = s.errcode ∧ t.errByte = s.errByte)

/-- 10_state.md R28, 20_memory.md R58: while the block is busy nothing but SRESET changes WIDTH, HEIGHT or GRADE, so N
and the grading parameters are constant for a whole command; no step at all changes the parameters. -/
def Obligations.BusyKeepsFrameParameters : Prop :=
  ∀ s t : State, step s = .next t → t.params = s.params ∧
    (s.busy = true → s.SresetNext ∨ (t.width = s.width ∧ t.height = s.height ∧ t.gradeReg = s.gradeReg))

/-- 10_state.md R47: what sets and what clears each sticky flag, over all steps. -/
def Obligations.StickyFlagsChangeOnlyAsRuled : Prop :=
  ∀ s t : State, step s = .next t →
    (s.done = false → t.done = true → s.busy = true ∧ t.seq = .idle) ∧
    (s.endFlag = false → t.endFlag = true → s.seq = .marker ∧ t.done = true) ∧
    (s.done = true → t.done = false → s.SresetNext ∨
      ∃ a w u, s.HostWrites a w u ∧ ((a = 0x04#32 ∧ w.getLsbD 1 = true) ∨ (a = 0x00#32 ∧ s.seq = .idle))) ∧
    (s.endFlag = true → t.endFlag = false → s.SresetNext ∨
      ∃ a w u, s.HostWrites a w u ∧ ((a = 0x04#32 ∧ w.getLsbD 3 = true) ∨ (a = 0x00#32 ∧ s.seq = .idle))) ∧
    (s.cmdRej = false → t.cmdRej = true → ∃ w u, s.HostWrites 0x00#32 w u ∧ s.seq ≠ .idle) ∧
    (s.cmdRej = true → t.cmdRej = false → s.SresetNext ∨ ∃ w u, s.HostWrites 0x04#32 w u ∧ w.getLsbD 5 = true) ∧
    (s.wrRej = false → t.wrRej = true → s.busy = true ∧ ∃ a w u, s.HostWrites a w u) ∧
    (s.wrRej = true → t.wrRej = false → s.SresetNext ∨ ∃ w u, s.HostWrites 0x04#32 w u ∧ w.getLsbD 6 = true) ∧
    (s.inRej = false → t.inRej = true → ∃ w u, s.HostWrites 0x18#32 w u) ∧
    (s.inRej = true → t.inRej = false → s.SresetNext ∨ ∃ w u, s.HostWrites 0x04#32 w u ∧ w.getLsbD 7 = true)

/-- R69, with 10_state.md R33 and R42: unless SRESET is written, a step leaves IFIFO and IN_COUNT alone, or takes the
oldest byte and counts it, or appends one pushed byte; and EOS stays set. -/
def Obligations.InputStreamCoherence : Prop :=
  ∀ s t : State, step s = .next t → s.SresetNext ∨
    ((s.eos = true → t.eos = true) ∧
      ((t.ififo = s.ififo ∧ t.inCount = s.inCount) ∨
        (∃ b, s.ififo = b :: t.ififo ∧ t.inCount = s.inCount + 1) ∨
        (∃ w u, s.HostWrites 0x18#32 w u ∧ t.ififo = s.ififo ++ [w.extractLsb' 0 8] ∧ t.inCount = s.inCount)))

/-- 40_plane_decoder.md R115, 10_state.md R31: a block step changes no FB byte at index 3N or more. -/
def Obligations.BlockWritesOnlyTheFrame : Prop :=
  ∀ s u t : State, s.Inv → s.BlockTurn u → step s = .next t → ∀ j, 3 * s.pixels ≤ j → t.fbByte j = s.fbByte j

/-! ### The host port -/

/-- R180: every register reads as 10_state.md defines it, STATUS field by field as R34 places them, with the error
numbers of 60_exceptions.md R200, and a read changes nothing but the port's answer. IN_LEVEL is the number of bytes in
IFIFO where that fits 32 bits; beyond, where the spec states no reading, it is some word (log 18). -/
def Obligations.RegisterReads : Prop :=
  ∀ (s u : State),
    (∀ (a v : Word), (a, v) ∈ [(0x00#32, 0#32), (0x04#32, u.statusWord), (0x08#32, u.width), (0x0C#32, u.height),
        (0x10#32, u.gradeReg), (0x14#32, u.irqEn), (0x18#32, 0#32), (0x1C#32, if u.eos then 1#32 else 0#32),
        (0x24#32, u.inCount), (0x28#32, u.frameCount), (0x2C#32, u.cnt),
        (0x30#32, u.errByte.setWidth 32)] →
      s.HostReads a u → step s = .next { u with response := .data v }) ∧
    (s.HostReads 0x20#32 u → u.ififo.length < 2 ^ 32 →
      step s = .next { u with response := .data (BitVec.ofNat 32 u.ififo.length) }) ∧
    (s.HostReads 0x20#32 u → ∃ v : Word, step s = .next { u with response := .data v }) ∧
    (u.statusWord.getLsbD 0 = true ↔ u.seq ≠ .idle ∧ u.seq ≠ .error) ∧
    u.statusWord.getLsbD 1 = u.done ∧
    (u.statusWord.getLsbD 2 = true ↔ u.seq = .error) ∧
    u.statusWord.getLsbD 3 = u.endFlag ∧
    (u.statusWord.getLsbD 4 = true ↔
      u.seq ∈ [Seq.marker, .hdr, .lit, .repv] ∧ u.ififo = [] ∧ u.eos = false) ∧
    u.statusWord.getLsbD 5 = u.cmdRej ∧ u.statusWord.getLsbD 6 = u.wrRej ∧ u.statusWord.getLsbD 7 = u.inRej ∧
    u.statusWord.extractLsb' 8 4 =
      (if u.seq = .error then
        match u.errcode with
        | .none => 0#4 | .truncated => 1#4 | .overshoot => 2#4 | .format => 3#4 | .dimension => 4#4
        | .illegalCmd => 5#4
      else 0#4) ∧
    u.statusWord.extractLsb' 12 2 = (match u.curPlane with | .red => 0#2 | .green => 1#2 | .blue => 2#2) ∧
    u.statusWord.extractLsb' 14 18 = 0#18

/-- R175: a write to STATUS clears each W1C bit whose written bit is 1 and changes nothing else. -/
def Obligations.StatusWriteClears : Prop :=
  ∀ (s u : State) (w : Word), s.HostWrites 0x04#32 w u →
    step s = .next
      { u with
        done := if w.getLsbD 1 then false else u.done
        endFlag := if w.getLsbD 3 then false else u.endFlag
        cmdRej := if w.getLsbD 5 then false else u.cmdRej
        wrRej := if w.getLsbD 6 then false else u.wrRej
        inRej := if w.getLsbD 7 then false else u.inRej }

/-- R179: WIDTH and HEIGHT take the written word when BUSY = 0, in ERROR too, and refuse it when BUSY = 1. -/
def Obligations.DimensionWrites : Prop :=
  ∀ (s u : State) (w : Word),
    (s.HostWrites 0x08#32 w u →
      step s = .next (if u.seq = .idle ∨ u.seq = .error then { u with width := w } else { u with wrRej := true })) ∧
    (s.HostWrites 0x0C#32 w u →
      step s = .next (if u.seq = .idle ∨ u.seq = .error then { u with height := w } else { u with wrRej := true }))

/-- R140: a write to GRADE while BUSY = 0 stores the three fields if each is at most 100 and 50, 50, 50 otherwise; bits
31:24 are ignored. While BUSY = 1 it is refused. -/
def Obligations.GradeRegisterWrite : Prop :=
  ∀ (s u : State) (w : Word), s.HostWrites 0x10#32 w u →
    ((u.seq ≠ .idle ∧ u.seq ≠ .error) → step s = .next { u with wrRej := true }) ∧
    (u.seq = .idle ∨ u.seq = .error →
      ((w.toNat % 256 ≤ 100 ∧ w.toNat / 256 % 256 ≤ 100 ∧ w.toNat / 65536 % 256 ≤ 100) →
        step s = .next { u with gradeReg := BitVec.ofNat 32 (w.toNat % 16777216) }) ∧
      (¬ (w.toNat % 256 ≤ 100 ∧ w.toNat / 256 % 256 ≤ 100 ∧ w.toNat / 65536 % 256 ≤ 100) →
        step s = .next { u with gradeReg := 0x00323232#32 }))

/-- R176, R178: IRQ_EN takes bits 1:0 and IN_CTRL's bit 0 sets EOS, in every STATE. -/
def Obligations.InterruptEnableAndEosWrites : Prop :=
  ∀ (s u : State) (w : Word),
    (s.HostWrites 0x14#32 w u → step s = .next { u with irqEn := BitVec.ofNat 32 (w.toNat % 4) }) ∧
    (s.HostWrites 0x1C#32 w u → step s = .next (if w.getLsbD 0 then { u with eos := true } else u))

/-- R177: a push appends the low byte while EOS = 0 and IFIFO has room, and otherwise only sets IN_REJ, in every STATE. -/
def Obligations.InputPush : Prop :=
  ∀ (s u : State) (w : Word), s.HostWrites 0x18#32 w u →
    ((u.eos = false ∧ u.ififo.length < u.params.fifoDepth) →
      step s = .next { u with ififo := u.ififo ++ [BitVec.ofNat 8 w.toNat] }) ∧
    ((u.eos = true ∨ u.params.fifoDepth ≤ u.ififo.length) → step s = .next { u with inRej := true })

/-- R58: while BUSY = 1, writes to WIDTH, HEIGHT, GRADE and the window change nothing but WR_REJ and answer Ok; writes to
CMD, STATUS, IRQ_EN, IN_DATA and IN_CTRL never set WR_REJ. -/
def Obligations.BusyWritesRefused : Prop :=
  ∀ (s u : State) (a w : Word), u.params.legal → u.busy = true → s.HostWrites a w u →
    (a ∈ [0x08#32, 0x0C#32, 0x10#32] ∨ (∃ k, k < u.params.fbWords ∧ a = BitVec.ofNat 32 (0x40000000 + 4 * k)) →
      step s = .next { u with wrRej := true }) ∧
    (a ∈ [0x00#32, 0x04#32, 0x14#32, 0x18#32, 0x1C#32] →
      ∃ t, step s = .next t ∧ t.response = .ok ∧ (t.wrRej = true → u.wrRej = true))

/-- 20_memory.md R56, R57: a window write while BUSY = 0 sets the four bytes of its word, little-endian, ignores bytes
past 3 x MAX_PIXELS, and changes no other FB byte and nothing else. -/
def Obligations.WindowWriteIsLittleEndian : Prop :=
  ∀ (s u : State) (k : Nat) (w : Word), u.params.legal → u.busy = false → k < u.params.fbWords →
    s.HostWrites (BitVec.ofNat 32 (0x40000000 + 4 * k)) w u →
    ∃ t : State, step s = .next t ∧ t = { u with fb := t.fb } ∧
      ∀ j, t.fbByte j =
        if 4 * k ≤ j ∧ j < 4 * k + 4 ∧ j < 3 * u.params.maxPixels then w.extractLsb' (8 * (j - 4 * k)) 8
        else u.fbByte j

/-- 20_memory.md R56, R57, R59: a window read while BUSY = 0 gives the four bytes of its word, little-endian, 0 for
those past 3 x MAX_PIXELS; while BUSY = 1 it gives some word. It changes nothing but the answer (and the model's own
count of free values, log 6). -/
def Obligations.WindowReadIsLittleEndian : Prop :=
  ∀ (s u : State) (k : Nat), u.params.legal → k < u.params.fbWords →
    s.HostReads (BitVec.ofNat 32 (0x40000000 + 4 * k)) u →
    (u.busy = false → ∃ w : Word, step s = .next { u with response := .data w } ∧
      ∀ n, n < 4 → w.extractLsb' (8 * n) 8 =
        if 4 * k + n < 3 * u.params.maxPixels then u.fbByte (4 * k + n) else 0#8) ∧
    (u.busy = true → ∃ w : Word, step s = .next { u with response := .data w, draws := u.draws + 1 })

/-- R54, with R53: a misaligned or unmapped access answers BusError and changes nothing; a write to a read-only register
answers Ok and changes nothing; a write-only register reads 0. -/
def Obligations.PortErrorsAndIgnoredWrites : Prop :=
  ∀ (s u : State) (a w : Word),
    (a.toNat % 4 ≠ 0 ∨ (0x34 ≤ a.toNat ∧ a.toNat < 0x40000000) ∨ 0x40000000 + 4 * u.params.fbWords ≤ a.toNat →
      (s.HostReads a u → step s = .next { u with response := .busError }) ∧
      (s.HostWrites a w u → step s = .next { u with response := .busError })) ∧
    (a ∈ [0x20#32, 0x24#32, 0x28#32, 0x2C#32, 0x30#32] → s.HostWrites a w u → step s = .next u) ∧
    (a ∈ [0x00#32, 0x18#32] → s.HostReads a u → step s = .next { u with response := .data 0#32 }) ∧
    (a.toNat % 4 = 0 → a.toNat ≤ 0x30 →
      (s.HostReads a u → ∃ t, step s = .next t ∧ t.response ≠ .busError) ∧
      (s.HostWrites a w u → ∃ t, step s = .next t ∧ t.response ≠ .busError))

/-- R207: the interrupt line is high exactly when an enabled source, DONE or ERROR, is active. -/
def Obligations.InterruptLine : Prop :=
  ∀ s : State, s.irq = true ↔
    (s.irqEn.getLsbD 0 = true ∧ s.statusWord.getLsbD 1 = true) ∨
    (s.irqEn.getLsbD 1 = true ∧ s.statusWord.getLsbD 2 = true)

/-- R230: the state after power-on reset, for all parameters: every register at its reset value, STATUS reads 0, IRQ is
low, and no FB byte has been written, so each reads as its own unspecified power-on value. `sched`, `response` and
`draws` are the model's own choice (log 1, 6, 7). -/
def Obligations.PowerOnResetValues : Prop :=
  ∀ p : Params,
    State.resetWith p =
      { params := p, seq := .idle, mode := .plane, curPlane := .red, cnt := 0, runLeft := 0, runVal := 0,
        errcode := .none, errByte := 0, done := false, endFlag := false, cmdRej := false, wrRej := false,
        inRej := false, width := 0, height := 0, gradeReg := 0x00323232#32, irqEn := 0, ififo := [], eos := false,
        inCount := 0, frameCount := 0, fb := [], sched := [], response := .none, draws := 0 } ∧
    (State.resetWith p).statusWord = 0#32 ∧ (State.resetWith p).irq = false ∧
    ∀ i, (State.resetWith p).fbByte i = Config.powerOnByte i
end

