-- ==== Sys2Proof/Laws/State.lean ====
section
/-! SUPPORT. What each named update of State does to each field: one lemma for each, true by rfl, so that no proof
unfolds a record update. -/

namespace Sys2Proof.Machine

@[simp] theorem State.consumed_params (s : State) (rest : List Byte) : (s.consumed rest).params = s.params := rfl
@[simp] theorem State.consumed_seq (s : State) (rest : List Byte) : (s.consumed rest).seq = s.seq := rfl
@[simp] theorem State.consumed_mode (s : State) (rest : List Byte) : (s.consumed rest).mode = s.mode := rfl
@[simp] theorem State.consumed_curPlane (s : State) (rest : List Byte) : (s.consumed rest).curPlane = s.curPlane := rfl
@[simp] theorem State.consumed_cnt (s : State) (rest : List Byte) : (s.consumed rest).cnt = s.cnt := rfl
@[simp] theorem State.consumed_runLeft (s : State) (rest : List Byte) : (s.consumed rest).runLeft = s.runLeft := rfl
@[simp] theorem State.consumed_runVal (s : State) (rest : List Byte) : (s.consumed rest).runVal = s.runVal := rfl
@[simp] theorem State.consumed_errcode (s : State) (rest : List Byte) : (s.consumed rest).errcode = s.errcode := rfl
@[simp] theorem State.consumed_errByte (s : State) (rest : List Byte) : (s.consumed rest).errByte = s.errByte := rfl
@[simp] theorem State.consumed_done (s : State) (rest : List Byte) : (s.consumed rest).done = s.done := rfl
@[simp] theorem State.consumed_endFlag (s : State) (rest : List Byte) : (s.consumed rest).endFlag = s.endFlag := rfl
@[simp] theorem State.consumed_cmdRej (s : State) (rest : List Byte) : (s.consumed rest).cmdRej = s.cmdRej := rfl
@[simp] theorem State.consumed_wrRej (s : State) (rest : List Byte) : (s.consumed rest).wrRej = s.wrRej := rfl
@[simp] theorem State.consumed_inRej (s : State) (rest : List Byte) : (s.consumed rest).inRej = s.inRej := rfl
@[simp] theorem State.consumed_width (s : State) (rest : List Byte) : (s.consumed rest).width = s.width := rfl
@[simp] theorem State.consumed_height (s : State) (rest : List Byte) : (s.consumed rest).height = s.height := rfl
@[simp] theorem State.consumed_gradeReg (s : State) (rest : List Byte) : (s.consumed rest).gradeReg = s.gradeReg := rfl
@[simp] theorem State.consumed_irqEn (s : State) (rest : List Byte) : (s.consumed rest).irqEn = s.irqEn := rfl
@[simp] theorem State.consumed_ififo (s : State) (rest : List Byte) : (s.consumed rest).ififo = rest := rfl
@[simp] theorem State.consumed_eos (s : State) (rest : List Byte) : (s.consumed rest).eos = s.eos := rfl
@[simp] theorem State.consumed_inCount (s : State) (rest : List Byte) : (s.consumed rest).inCount = s.inCount + 1 := rfl
@[simp] theorem State.consumed_frameCount (s : State) (rest : List Byte) : (s.consumed rest).frameCount = s.frameCount := rfl
@[simp] theorem State.consumed_fb (s : State) (rest : List Byte) : (s.consumed rest).fb = s.fb := rfl
@[simp] theorem State.consumed_sched (s : State) (rest : List Byte) : (s.consumed rest).sched = s.sched := rfl
@[simp] theorem State.consumed_response (s : State) (rest : List Byte) : (s.consumed rest).response = s.response := rfl
@[simp] theorem State.consumed_draws (s : State) (rest : List Byte) : (s.consumed rest).draws = s.draws := rfl

@[simp] theorem State.raise_params (s : State) (c : ErrCode) (b : Byte) : (s.raise c b).params = s.params := rfl
@[simp] theorem State.raise_seq (s : State) (c : ErrCode) (b : Byte) : (s.raise c b).seq = .error := rfl
@[simp] theorem State.raise_mode (s : State) (c : ErrCode) (b : Byte) : (s.raise c b).mode = s.mode := rfl
@[simp] theorem State.raise_curPlane (s : State) (c : ErrCode) (b : Byte) : (s.raise c b).curPlane = s.curPlane := rfl
@[simp] theorem State.raise_cnt (s : State) (c : ErrCode) (b : Byte) : (s.raise c b).cnt = s.cnt := rfl
@[simp] theorem State.raise_runLeft (s : State) (c : ErrCode) (b : Byte) : (s.raise c b).runLeft = s.runLeft := rfl
@[simp] theorem State.raise_runVal (s : State) (c : ErrCode) (b : Byte) : (s.raise c b).runVal = s.runVal := rfl
@[simp] theorem State.raise_errcode (s : State) (c : ErrCode) (b : Byte) : (s.raise c b).errcode = c := rfl
@[simp] theorem State.raise_errByte (s : State) (c : ErrCode) (b : Byte) : (s.raise c b).errByte = b := rfl
@[simp] theorem State.raise_done (s : State) (c : ErrCode) (b : Byte) : (s.raise c b).done = s.done := rfl
@[simp] theorem State.raise_endFlag (s : State) (c : ErrCode) (b : Byte) : (s.raise c b).endFlag = s.endFlag := rfl
@[simp] theorem State.raise_cmdRej (s : State) (c : ErrCode) (b : Byte) : (s.raise c b).cmdRej = s.cmdRej := rfl
@[simp] theorem State.raise_wrRej (s : State) (c : ErrCode) (b : Byte) : (s.raise c b).wrRej = s.wrRej := rfl
@[simp] theorem State.raise_inRej (s : State) (c : ErrCode) (b : Byte) : (s.raise c b).inRej = s.inRej := rfl
@[simp] theorem State.raise_width (s : State) (c : ErrCode) (b : Byte) : (s.raise c b).width = s.width := rfl
@[simp] theorem State.raise_height (s : State) (c : ErrCode) (b : Byte) : (s.raise c b).height = s.height := rfl
@[simp] theorem State.raise_gradeReg (s : State) (c : ErrCode) (b : Byte) : (s.raise c b).gradeReg = s.gradeReg := rfl
@[simp] theorem State.raise_irqEn (s : State) (c : ErrCode) (b : Byte) : (s.raise c b).irqEn = s.irqEn := rfl
@[simp] theorem State.raise_ififo (s : State) (c : ErrCode) (b : Byte) : (s.raise c b).ififo = s.ififo := rfl
@[simp] theorem State.raise_eos (s : State) (c : ErrCode) (b : Byte) : (s.raise c b).eos = s.eos := rfl
@[simp] theorem State.raise_inCount (s : State) (c : ErrCode) (b : Byte) : (s.raise c b).inCount = s.inCount := rfl
@[simp] theorem State.raise_frameCount (s : State) (c : ErrCode) (b : Byte) : (s.raise c b).frameCount = s.frameCount := rfl
@[simp] theorem State.raise_fb (s : State) (c : ErrCode) (b : Byte) : (s.raise c b).fb = s.fb := rfl
@[simp] theorem State.raise_sched (s : State) (c : ErrCode) (b : Byte) : (s.raise c b).sched = s.sched := rfl
@[simp] theorem State.raise_response (s : State) (c : ErrCode) (b : Byte) : (s.raise c b).response = s.response := rfl
@[simp] theorem State.raise_draws (s : State) (c : ErrCode) (b : Byte) : (s.raise c b).draws = s.draws := rfl

@[simp] theorem State.clearCompletion_params (s : State) : s.clearCompletion.params = s.params := rfl
@[simp] theorem State.clearCompletion_seq (s : State) : s.clearCompletion.seq = s.seq := rfl
@[simp] theorem State.clearCompletion_mode (s : State) : s.clearCompletion.mode = s.mode := rfl
@[simp] theorem State.clearCompletion_curPlane (s : State) : s.clearCompletion.curPlane = s.curPlane := rfl
@[simp] theorem State.clearCompletion_cnt (s : State) : s.clearCompletion.cnt = s.cnt := rfl
@[simp] theorem State.clearCompletion_runLeft (s : State) : s.clearCompletion.runLeft = s.runLeft := rfl
@[simp] theorem State.clearCompletion_runVal (s : State) : s.clearCompletion.runVal = s.runVal := rfl
@[simp] theorem State.clearCompletion_errcode (s : State) : s.clearCompletion.errcode = s.errcode := rfl
@[simp] theorem State.clearCompletion_errByte (s : State) : s.clearCompletion.errByte = s.errByte := rfl
@[simp] theorem State.clearCompletion_done (s : State) : s.clearCompletion.done = false := rfl
@[simp] theorem State.clearCompletion_endFlag (s : State) : s.clearCompletion.endFlag = false := rfl
@[simp] theorem State.clearCompletion_cmdRej (s : State) : s.clearCompletion.cmdRej = s.cmdRej := rfl
@[simp] theorem State.clearCompletion_wrRej (s : State) : s.clearCompletion.wrRej = s.wrRej := rfl
@[simp] theorem State.clearCompletion_inRej (s : State) : s.clearCompletion.inRej = s.inRej := rfl
@[simp] theorem State.clearCompletion_width (s : State) : s.clearCompletion.width = s.width := rfl
@[simp] theorem State.clearCompletion_height (s : State) : s.clearCompletion.height = s.height := rfl
@[simp] theorem State.clearCompletion_gradeReg (s : State) : s.clearCompletion.gradeReg = s.gradeReg := rfl
@[simp] theorem State.clearCompletion_irqEn (s : State) : s.clearCompletion.irqEn = s.irqEn := rfl
@[simp] theorem State.clearCompletion_ififo (s : State) : s.clearCompletion.ififo = s.ififo := rfl
@[simp] theorem State.clearCompletion_eos (s : State) : s.clearCompletion.eos = s.eos := rfl
@[simp] theorem State.clearCompletion_inCount (s : State) : s.clearCompletion.inCount = s.inCount := rfl
@[simp] theorem State.clearCompletion_frameCount (s : State) : s.clearCompletion.frameCount = s.frameCount := rfl
@[simp] theorem State.clearCompletion_fb (s : State) : s.clearCompletion.fb = s.fb := rfl
@[simp] theorem State.clearCompletion_sched (s : State) : s.clearCompletion.sched = s.sched := rfl
@[simp] theorem State.clearCompletion_response (s : State) : s.clearCompletion.response = s.response := rfl
@[simp] theorem State.clearCompletion_draws (s : State) : s.clearCompletion.draws = s.draws := rfl

@[simp] theorem State.rejectCommand_params (s : State) : s.rejectCommand.params = s.params := rfl
@[simp] theorem State.rejectCommand_seq (s : State) : s.rejectCommand.seq = s.seq := rfl
@[simp] theorem State.rejectCommand_mode (s : State) : s.rejectCommand.mode = s.mode := rfl
@[simp] theorem State.rejectCommand_curPlane (s : State) : s.rejectCommand.curPlane = s.curPlane := rfl
@[simp] theorem State.rejectCommand_cnt (s : State) : s.rejectCommand.cnt = s.cnt := rfl
@[simp] theorem State.rejectCommand_runLeft (s : State) : s.rejectCommand.runLeft = s.runLeft := rfl
@[simp] theorem State.rejectCommand_runVal (s : State) : s.rejectCommand.runVal = s.runVal := rfl
@[simp] theorem State.rejectCommand_errcode (s : State) : s.rejectCommand.errcode = s.errcode := rfl
@[simp] theorem State.rejectCommand_errByte (s : State) : s.rejectCommand.errByte = s.errByte := rfl
@[simp] theorem State.rejectCommand_done (s : State) : s.rejectCommand.done = s.done := rfl
@[simp] theorem State.rejectCommand_endFlag (s : State) : s.rejectCommand.endFlag = s.endFlag := rfl
@[simp] theorem State.rejectCommand_cmdRej (s : State) : s.rejectCommand.cmdRej = true := rfl
@[simp] theorem State.rejectCommand_wrRej (s : State) : s.rejectCommand.wrRej = s.wrRej := rfl
@[simp] theorem State.rejectCommand_inRej (s : State) : s.rejectCommand.inRej = s.inRej := rfl
@[simp] theorem State.rejectCommand_width (s : State) : s.rejectCommand.width = s.width := rfl
@[simp] theorem State.rejectCommand_height (s : State) : s.rejectCommand.height = s.height := rfl
@[simp] theorem State.rejectCommand_gradeReg (s : State) : s.rejectCommand.gradeReg = s.gradeReg := rfl
@[simp] theorem State.rejectCommand_irqEn (s : State) : s.rejectCommand.irqEn = s.irqEn := rfl
@[simp] theorem State.rejectCommand_ififo (s : State) : s.rejectCommand.ififo = s.ififo := rfl
@[simp] theorem State.rejectCommand_eos (s : State) : s.rejectCommand.eos = s.eos := rfl
@[simp] theorem State.rejectCommand_inCount (s : State) : s.rejectCommand.inCount = s.inCount := rfl
@[simp] theorem State.rejectCommand_frameCount (s : State) : s.rejectCommand.frameCount = s.frameCount := rfl
@[simp] theorem State.rejectCommand_fb (s : State) : s.rejectCommand.fb = s.fb := rfl
@[simp] theorem State.rejectCommand_sched (s : State) : s.rejectCommand.sched = s.sched := rfl
@[simp] theorem State.rejectCommand_response (s : State) : s.rejectCommand.response = s.response := rfl
@[simp] theorem State.rejectCommand_draws (s : State) : s.rejectCommand.draws = s.draws := rfl

@[simp] theorem State.complete_params (s : State) : s.complete.params = s.params := rfl
@[simp] theorem State.complete_seq (s : State) : s.complete.seq = .idle := rfl
@[simp] theorem State.complete_mode (s : State) : s.complete.mode = s.mode := rfl
@[simp] theorem State.complete_curPlane (s : State) : s.complete.curPlane = s.curPlane := rfl
@[simp] theorem State.complete_cnt (s : State) : s.complete.cnt = s.cnt := rfl
@[simp] theorem State.complete_runLeft (s : State) : s.complete.runLeft = s.runLeft := rfl
@[simp] theorem State.complete_runVal (s : State) : s.complete.runVal = s.runVal := rfl
@[simp] theorem State.complete_errcode (s : State) : s.complete.errcode = s.errcode := rfl
@[simp] theorem State.complete_errByte (s : State) : s.complete.errByte = s.errByte := rfl
@[simp] theorem State.complete_done (s : State) : s.complete.done = true := rfl
@[simp] theorem State.complete_endFlag (s : State) : s.complete.endFlag = s.endFlag := rfl
@[simp] theorem State.complete_cmdRej (s : State) : s.complete.cmdRej = s.cmdRej := rfl
@[simp] theorem State.complete_wrRej (s : State) : s.complete.wrRej = s.wrRej := rfl
@[simp] theorem State.complete_inRej (s : State) : s.complete.inRej = s.inRej := rfl
@[simp] theorem State.complete_width (s : State) : s.complete.width = s.width := rfl
@[simp] theorem State.complete_height (s : State) : s.complete.height = s.height := rfl
@[simp] theorem State.complete_gradeReg (s : State) : s.complete.gradeReg = s.gradeReg := rfl
@[simp] theorem State.complete_irqEn (s : State) : s.complete.irqEn = s.irqEn := rfl
@[simp] theorem State.complete_ififo (s : State) : s.complete.ififo = s.ififo := rfl
@[simp] theorem State.complete_eos (s : State) : s.complete.eos = s.eos := rfl
@[simp] theorem State.complete_inCount (s : State) : s.complete.inCount = s.inCount := rfl
@[simp] theorem State.complete_frameCount (s : State) : s.complete.frameCount = s.frameCount := rfl
@[simp] theorem State.complete_fb (s : State) : s.complete.fb = s.fb := rfl
@[simp] theorem State.complete_sched (s : State) : s.complete.sched = s.sched := rfl
@[simp] theorem State.complete_response (s : State) : s.complete.response = s.response := rfl
@[simp] theorem State.complete_draws (s : State) : s.complete.draws = s.draws := rfl

@[simp] theorem State.forgetRegion_params (s : State) : s.forgetRegion.params = s.params := rfl
@[simp] theorem State.forgetRegion_seq (s : State) : s.forgetRegion.seq = s.seq := rfl
@[simp] theorem State.forgetRegion_mode (s : State) : s.forgetRegion.mode = s.mode := rfl
@[simp] theorem State.forgetRegion_curPlane (s : State) : s.forgetRegion.curPlane = s.curPlane := rfl
@[simp] theorem State.forgetRegion_cnt (s : State) : s.forgetRegion.cnt = s.cnt := rfl
@[simp] theorem State.forgetRegion_runLeft (s : State) : s.forgetRegion.runLeft = s.runLeft := rfl
@[simp] theorem State.forgetRegion_runVal (s : State) : s.forgetRegion.runVal = s.runVal := rfl
@[simp] theorem State.forgetRegion_errcode (s : State) : s.forgetRegion.errcode = s.errcode := rfl
@[simp] theorem State.forgetRegion_errByte (s : State) : s.forgetRegion.errByte = s.errByte := rfl
@[simp] theorem State.forgetRegion_done (s : State) : s.forgetRegion.done = s.done := rfl
@[simp] theorem State.forgetRegion_endFlag (s : State) : s.forgetRegion.endFlag = s.endFlag := rfl
@[simp] theorem State.forgetRegion_cmdRej (s : State) : s.forgetRegion.cmdRej = s.cmdRej := rfl
@[simp] theorem State.forgetRegion_wrRej (s : State) : s.forgetRegion.wrRej = s.wrRej := rfl
@[simp] theorem State.forgetRegion_inRej (s : State) : s.forgetRegion.inRej = s.inRej := rfl
@[simp] theorem State.forgetRegion_width (s : State) : s.forgetRegion.width = s.width := rfl
@[simp] theorem State.forgetRegion_height (s : State) : s.forgetRegion.height = s.height := rfl
@[simp] theorem State.forgetRegion_gradeReg (s : State) : s.forgetRegion.gradeReg = s.gradeReg := rfl
@[simp] theorem State.forgetRegion_irqEn (s : State) : s.forgetRegion.irqEn = s.irqEn := rfl
@[simp] theorem State.forgetRegion_ififo (s : State) : s.forgetRegion.ififo = s.ififo := rfl
@[simp] theorem State.forgetRegion_eos (s : State) : s.forgetRegion.eos = s.eos := rfl
@[simp] theorem State.forgetRegion_inCount (s : State) : s.forgetRegion.inCount = s.inCount := rfl
@[simp] theorem State.forgetRegion_frameCount (s : State) : s.forgetRegion.frameCount = s.frameCount := rfl
@[simp] theorem State.forgetRegion_fb (s : State) : s.forgetRegion.fb = Memory.fill (Config.freeByte s.draws) s.failedRegion s.fb := rfl
@[simp] theorem State.forgetRegion_sched (s : State) : s.forgetRegion.sched = s.sched := rfl
@[simp] theorem State.forgetRegion_response (s : State) : s.forgetRegion.response = s.response := rfl
@[simp] theorem State.forgetRegion_draws (s : State) : s.forgetRegion.draws = s.draws + 1 := rfl

@[simp] theorem State.softReset_params (s : State) : s.softReset.params = s.params := rfl
@[simp] theorem State.softReset_seq (s : State) : s.softReset.seq = .idle := rfl
@[simp] theorem State.softReset_mode (s : State) : s.softReset.mode = .plane := rfl
@[simp] theorem State.softReset_curPlane (s : State) : s.softReset.curPlane = .red := rfl
@[simp] theorem State.softReset_cnt (s : State) : s.softReset.cnt = 0 := rfl
@[simp] theorem State.softReset_runLeft (s : State) : s.softReset.runLeft = 0 := rfl
@[simp] theorem State.softReset_runVal (s : State) : s.softReset.runVal = 0 := rfl
@[simp] theorem State.softReset_errcode (s : State) : s.softReset.errcode = .none := rfl
@[simp] theorem State.softReset_errByte (s : State) : s.softReset.errByte = 0 := rfl
@[simp] theorem State.softReset_done (s : State) : s.softReset.done = false := rfl
@[simp] theorem State.softReset_endFlag (s : State) : s.softReset.endFlag = false := rfl
@[simp] theorem State.softReset_cmdRej (s : State) : s.softReset.cmdRej = false := rfl
@[simp] theorem State.softReset_wrRej (s : State) : s.softReset.wrRej = false := rfl
@[simp] theorem State.softReset_inRej (s : State) : s.softReset.inRej = false := rfl
@[simp] theorem State.softReset_width (s : State) : s.softReset.width = 0 := rfl
@[simp] theorem State.softReset_height (s : State) : s.softReset.height = 0 := rfl
@[simp] theorem State.softReset_gradeReg (s : State) : s.softReset.gradeReg = 0x00323232#32 := rfl
@[simp] theorem State.softReset_irqEn (s : State) : s.softReset.irqEn = 0 := rfl
@[simp] theorem State.softReset_ififo (s : State) : s.softReset.ififo = [] := rfl
@[simp] theorem State.softReset_eos (s : State) : s.softReset.eos = false := rfl
@[simp] theorem State.softReset_inCount (s : State) : s.softReset.inCount = 0 := rfl
@[simp] theorem State.softReset_frameCount (s : State) : s.softReset.frameCount = 0 := rfl
@[simp] theorem State.softReset_fb (s : State) : s.softReset.fb = s.fb := rfl
@[simp] theorem State.softReset_sched (s : State) : s.softReset.sched = s.sched := rfl
@[simp] theorem State.softReset_response (s : State) : s.softReset.response = s.response := rfl
@[simp] theorem State.softReset_draws (s : State) : s.softReset.draws = s.draws := rfl

/-- The error of a block step is `raise` after the region is forgotten (60_exceptions.md R202, R203). -/
theorem State.blockError_eq (s : State) (c : ErrCode) (b : Byte) :
    s.blockError c b = (s.forgetRegion).raise c b := rfl

@[simp] theorem State.raise_pixels (s : State) (c : ErrCode) (b : Byte) : (s.raise c b).pixels = s.pixels := rfl
@[simp] theorem State.consumed_pixels (s : State) (rest : List Byte) : (s.consumed rest).pixels = s.pixels := rfl
@[simp] theorem State.clearCompletion_pixels (s : State) : s.clearCompletion.pixels = s.pixels := rfl
@[simp] theorem State.clearCompletion_dimensionsLegal (s : State) :
    s.clearCompletion.dimensionsLegal = s.dimensionsLegal := rfl

end Sys2Proof.Machine
end

