-- ==== Sys2Proof/Laws/Flags.lean ====
section
/-! SUPPORT. The layout of the words the host reads: which bit of a concatenation is which field. -/

namespace Sys2Proof.Machine

/-- Bit 0 of a concatenation that ends in one bit. -/
theorem getLsbD_zero_append_ofBool {n : Nat} (x : BitVec n) (b : Bool) :
    (x ++ BitVec.ofBool b).getLsbD 0 = b := by
  rw [BitVec.getLsbD_append, if_pos Nat.zero_lt_one]; cases b <;> rfl

/-- The other bits of a concatenation that ends in one bit. -/
theorem getLsbD_succ_append_ofBool {n : Nat} (x : BitVec n) (b : Bool) (i : Nat) :
    (x ++ BitVec.ofBool b).getLsbD (i + 1) = x.getLsbD i := by
  rw [BitVec.getLsbD_append, if_neg (by omega), Nat.add_sub_cancel]

/-- Bit i of STATUS, for the one-bit fields (10_state.md R34). -/
theorem State.statusWord_flags (s : State) :
    s.statusWord.getLsbD 0 = s.busy ∧ s.statusWord.getLsbD 1 = s.done ∧
    s.statusWord.getLsbD 2 = (s.seq == .error) ∧ s.statusWord.getLsbD 3 = s.endFlag ∧
    s.statusWord.getLsbD 4 = s.holding ∧ s.statusWord.getLsbD 5 = s.cmdRej ∧
    s.statusWord.getLsbD 6 = s.wrRej ∧ s.statusWord.getLsbD 7 = s.inRej := by
  refine ⟨?_, ?_, ?_, ?_, ?_, ?_, ?_, ?_⟩ <;> rw [State.statusWord, BitVec.getLsbD_setWidth] <;>
    simp only [getLsbD_succ_append_ofBool, getLsbD_zero_append_ofBool, Nat.reduceLT, decide_true, Bool.true_and]

/-- Bits 8 and up of STATUS: ERRCODE, then PLANE, then zeros (10_state.md R34). -/
theorem State.statusWord_upper (s : State) (i : Nat) :
    s.statusWord.getLsbD (8 + i) =
      if i < 4 then s.statusErrcode.getLsbD i else s.curPlane.bits.getLsbD (i - 4) := by
  rw [State.statusWord, BitVec.getLsbD_setWidth]
  have h : ∀ {n : Nat} (x : BitVec n) (b : Bool) (k : Nat),
      (x ++ BitVec.ofBool b).getLsbD (k + 1) = x.getLsbD k := getLsbD_succ_append_ofBool
  rw [show 8 + i = i + 1 + 1 + 1 + 1 + 1 + 1 + 1 + 1 by omega]
  simp only [h, BitVec.getLsbD_append]
  by_cases h32 : i + 1 + 1 + 1 + 1 + 1 + 1 + 1 + 1 < 32
  · simp only [h32, decide_true, Bool.true_and]
  · have h4 : ¬ i < 4 := by omega
    simp only [h4, if_false, h32, decide_false, Bool.false_and]
    exact (BitVec.getLsbD_of_ge _ _ (by omega)).symm

/-- Byte n of four bytes laid side by side, the first lowest (20_memory.md R56). -/
theorem extractLsb'_four_bytes (a b c d : Byte) :
    (BitVec.setWidth 32 (d ++ c ++ b ++ a)).extractLsb' 0 8 = a ∧
    (BitVec.setWidth 32 (d ++ c ++ b ++ a)).extractLsb' 8 8 = b ∧
    (BitVec.setWidth 32 (d ++ c ++ b ++ a)).extractLsb' 16 8 = c ∧
    (BitVec.setWidth 32 (d ++ c ++ b ++ a)).extractLsb' 24 8 = d := by
  have ha := a.isLt; have hb := b.isLt; have hc := c.isLt; have hd := d.isLt
  have h : (BitVec.setWidth 32 (d ++ c ++ b ++ a)).toNat =
      a.toNat + 256 * b.toNat + 65536 * c.toNat + 16777216 * d.toNat := by
    rw [BitVec.toNat_setWidth, BitVec.toNat_append, BitVec.toNat_append, BitVec.toNat_append,
      ← Nat.shiftLeft_add_eq_or_of_lt ha, ← Nat.shiftLeft_add_eq_or_of_lt hb, ← Nat.shiftLeft_add_eq_or_of_lt hc]
    simp only [Nat.shiftLeft_eq]
    omega
  refine ⟨?_, ?_, ?_, ?_⟩ <;> apply BitVec.eq_of_toNat_eq <;>
    rw [BitVec.extractLsb'_toNat, h, Nat.shiftRight_eq_div_pow] <;> omega

/-- The fields of a GRADE word as numbers (10_state.md R37). -/
theorem gradeFields_toNat (w : Word) :
    (brightField w).toNat = w.toNat % 256 ∧ (contrastField w).toNat = w.toNat / 256 % 256 ∧
    (saturField w).toNat = w.toNat / 65536 % 256 := by
  simp [brightField, contrastField, saturField, BitVec.extractLsb'_toNat, Nat.shiftRight_eq_div_pow]

/-- The three fields of a word laid side by side are its low 24 bits. -/
theorem gradeFields_append (w : Word) :
    BitVec.setWidth 32 (saturField w ++ contrastField w ++ brightField w) = BitVec.ofNat 32 (w.toNat % 16777216) := by
  obtain ⟨h1, h2, h3⟩ := gradeFields_toNat w
  apply BitVec.eq_of_toNat_eq
  rw [BitVec.toNat_setWidth, BitVec.toNat_append, BitVec.toNat_append, h1, h2, h3, BitVec.toNat_ofNat,
    ← Nat.shiftLeft_add_eq_or_of_lt (Nat.mod_lt _ (by omega)), ← Nat.shiftLeft_add_eq_or_of_lt (Nat.mod_lt _ (by omega))]
  simp only [Nat.shiftLeft_eq]
  omega

/-- BUSY = 0 exactly in IDLE and ERROR (10_state.md R34). -/
theorem State.busy_eq_false_iff (s : State) : s.busy = false ↔ s.seq = .idle ∨ s.seq = .error := by
  unfold State.busy; cases s.seq <;> decide

end Sys2Proof.Machine
end

