-- ==== Sys2Proof/Laws/Grader.lean ====
section
/-! SUPPORT. The laws of the grader's arithmetic: what `clamp8` and `isqrt` compute (00_scope.md R11). -/

namespace Sys2Proof.Machine

/-- `clamp8` as a number. -/
theorem clamp8_toNat (x : Int) : ((clamp8 x).toNat : Int) = min 255 (max 0 x) := by
  unfold clamp8
  rw [BitVec.toNat_ofInt]
  omega

theorem clamp8_of_range {x : Int} (h0 : 0 ≤ x) (h1 : x ≤ 255) : ((clamp8 x).toNat : Int) = x := by
  rw [clamp8_toNat]; omega

/-- `clamp8` of a byte's value is that byte. -/
@[simp] theorem clamp8_byte (v : Byte) : clamp8 (v.toNat : Int) = v := by
  apply BitVec.eq_of_toNat_eq
  have h := clamp8_of_range (x := (v.toNat : Int)) (by omega) (by have := v.isLt; omega)
  omega

/-- `clamp8` keeps order. -/
theorem clamp8_mono {x y : Int} (h : x ≤ y) : (clamp8 x).toNat ≤ (clamp8 y).toNat := by
  have hx := clamp8_toNat x
  have hy := clamp8_toNat y
  omega

theorem isqrtFrom_spec (fuel m : Nat) (h : m < 4 ^ fuel) :
    isqrtFrom fuel m * isqrtFrom fuel m ≤ m ∧ m < (isqrtFrom fuel m + 1) * (isqrtFrom fuel m + 1) := by
  induction fuel generalizing m with
  | zero => simp only [isqrtFrom]; omega
  | succ fuel ih =>
    have hq : m / 4 < 4 ^ fuel := by rw [Nat.div_lt_iff_lt_mul (by omega)]; rw [pow_succ] at h; exact h
    obtain ⟨h1, h2⟩ := ih (m / 4) hq
    have hstep : isqrtFrom (fuel + 1) m =
        if (2 * isqrtFrom fuel (m / 4) + 1) * (2 * isqrtFrom fuel (m / 4) + 1) ≤ m
        then 2 * isqrtFrom fuel (m / 4) + 1 else 2 * isqrtFrom fuel (m / 4) := rfl
    rw [hstep]
    generalize isqrtFrom fuel (m / 4) = q at h1 h2
    have h3 : m < 4 * ((q + 1) * (q + 1)) := by omega
    split
    next hle => exact ⟨hle, by nlinarith⟩
    next hgt => exact ⟨by nlinarith [Nat.div_mul_le_self m 4], by omega⟩

/-- `isqrt m` is the greatest t with t² ≤ m (00_scope.md R11). -/
theorem isqrt_spec (m : Nat) : isqrt m * isqrt m ≤ m ∧ m < (isqrt m + 1) * (isqrt m + 1) := by
  apply isqrtFrom_spec
  calc m < 2 ^ (m.log2 + 1) := Nat.lt_log2_self
    _ ≤ 4 ^ (m.log2 + 1) := Nat.pow_le_pow_left (by omega) _

/-- `isqrt` of a square. -/
theorem isqrt_square (t : Nat) : isqrt (t * t) = t := by
  obtain ⟨h1, h2⟩ := isqrt_spec (t * t)
  have h3 : isqrt (t * t) ≤ t := by by_contra hc; nlinarith
  have h4 : t ≤ isqrt (t * t) := by by_contra hc; nlinarith
  omega

@[simp] theorem isqrt_zero : isqrt 0 = 0 := isqrt_square 0

/-- The field k of the saturation stage is 0 at S = 50, and so is floor(k * P). -/
@[simp] theorem floorKP_zero (q : Nat) : floorKP 0 q = 0 := by simp [floorKP]

end Sys2Proof.Machine
end

