-- ==== Sys2Proof/Laws/Memory.lean ====
section
/-! SUPPORT. The laws of the frame buffer: read after write, that every operation keeps the canonical form, and which
bytes become listed (20_memory.md R52). -/

namespace Sys2Proof.Machine

theorem Memory.read?_none_of_above {m : Memory} {bound i : Nat} (h : Memory.above bound m = true) (hi : i ≤ bound) :
    Memory.read? m i = none := by
  induction m with
  | nil => rfl
  | cons e rest ih =>
    obtain ⟨a, v⟩ := e
    simp only [Memory.above, Bool.and_eq_true, decide_eq_true_eq] at h
    rw [Memory.read?, if_neg (by omega), ih h.2]

theorem Memory.above_mono {m : Memory} {b c : Nat} (h : Memory.above b m = true) (hc : c ≤ b) :
    Memory.above c m = true := by
  induction m with
  | nil => rfl
  | cons e rest ih =>
    simp only [Memory.above, Bool.and_eq_true, decide_eq_true_eq] at h ⊢
    exact ⟨by omega, ih h.2⟩

theorem Memory.above_write {m : Memory} {bound i : Nat} {v : Byte} (h : Memory.above bound m = true)
    (hi : bound < i) : Memory.above bound (Memory.write m i v) = true := by
  induction m with
  | nil => simp [Memory.write, Memory.above, hi]
  | cons e rest ih =>
    obtain ⟨a, u⟩ := e
    simp only [Memory.above, Bool.and_eq_true, decide_eq_true_eq] at h
    unfold Memory.write
    split
    · simp [Memory.above, hi, h]
    · split
      · simp [Memory.above, hi, h]
      · simp [Memory.above, h, ih]

/-- A write keeps the canonical form. -/
theorem Memory.wf_write {m : Memory} (i : Nat) (v : Byte) (h : Memory.wf m = true) :
    Memory.wf (Memory.write m i v) = true := by
  induction m with
  | nil => rfl
  | cons e rest ih =>
    obtain ⟨a, u⟩ := e
    simp only [Memory.wf, Bool.and_eq_true] at h
    unfold Memory.write
    split
    next hlt => simp [Memory.wf, Memory.above, hlt, h, Memory.above_mono h.1 (Nat.le_of_lt hlt)]
    next hge =>
      split
      next heq => subst heq; simp [Memory.wf, h]
      next hne => simp [Memory.wf, ih h.2, Memory.above_write h.1 (show a < i by omega)]

/-- A read after a write to the same byte gives the value written. -/
@[simp] theorem Memory.read?_write_same (m : Memory) (i : Nat) (v : Byte) :
    Memory.read? (Memory.write m i v) i = some v := by
  induction m with
  | nil => simp [Memory.write, Memory.read?]
  | cons e rest ih =>
    unfold Memory.write
    split
    · simp [Memory.read?]
    · split
      · simp [Memory.read?]
      · rw [Memory.read?, if_neg (by omega), ih]

/-- A write leaves every other byte alone. -/
theorem Memory.read?_write_other (m : Memory) {i j : Nat} (v : Byte) (h : j ≠ i) :
    Memory.read? (Memory.write m i v) j = Memory.read? m j := by
  induction m with
  | nil => simp [Memory.write, Memory.read?, Ne.symm h]
  | cons e rest ih =>
    obtain ⟨a, u⟩ := e
    unfold Memory.write
    split
    · simp [Memory.read?, Ne.symm h]
    · split
      next heq => subst heq; simp [Memory.read?, Ne.symm h]
      next => simp only [Memory.read?, ih]

theorem Memory.read?_write (m : Memory) (i j : Nat) (v : Byte) :
    Memory.read? (Memory.write m i v) j = if j = i then some v else Memory.read? m j := by
  split
  next h => rw [h, Memory.read?_write_same]
  next h => rw [Memory.read?_write_other m v h]

/-- Filling keeps the canonical form. -/
theorem Memory.wf_fill (value : Nat → Byte) (is : List Nat) {m : Memory} (h : Memory.wf m = true) :
    Memory.wf (Memory.fill value is m) = true := by
  induction is generalizing m with
  | nil => exact h
  | cons i is ih => exact ih (Memory.wf_write i (value i) h)

/-- A fill gives its bytes their values and leaves every other byte alone. -/
theorem Memory.read?_fill (value : Nat → Byte) (is : List Nat) (m : Memory) (j : Nat) :
    Memory.read? (Memory.fill value is m) j = if j ∈ is then some (value j) else Memory.read? m j := by
  induction is generalizing m with
  | nil => simp [Memory.fill]
  | cons i is ih =>
    have hstep : Memory.fill value (i :: is) m = Memory.fill value is (Memory.write m i (value i)) := rfl
    rw [hstep, ih, Memory.read?_write]
    by_cases hj : j = i
    · simp [hj]
    · simp [hj]

/-- What `memRead` answers: the byte, exactly where it exists. -/
theorem State.memRead_eq_some {s : State} {i : Nat} {v : Byte} :
    s.memRead i = some v ↔ i < s.params.fbBytes ∧ v = s.fbByte i := by
  unfold State.memRead
  split <;> simp_all [eq_comm]

/-- What `memWrite` does when it answers. -/
theorem State.memWrite_eq_some {s t : State} {i : Nat} {v : Byte} :
    s.memWrite i v = some t ↔ i < s.params.fbBytes ∧ t = { s with fb := Memory.write s.fb i v } := by
  unfold State.memWrite
  split <;> simp_all [eq_comm]

/-- When `memWrite` does not answer: the byte does not exist. -/
theorem State.memWrite_eq_none {s : State} {i : Nat} {v : Byte} :
    s.memWrite i v = none ↔ s.params.fbBytes ≤ i := by
  unfold State.memWrite
  split <;> simp_all

/-- Reading a byte of FB after a write to FB. -/
theorem State.fbByte_write (s : State) (i j : Nat) (v : Byte) :
    State.fbByte { s with fb := Memory.write s.fb i v } j = if j = i then v else s.fbByte j := by
  simp only [State.fbByte, Memory.read?_write]
  split <;> rfl

/-- `fbByte` depends on FB alone. -/
theorem State.fbByte_congr {s t : State} (h : s.fb = t.fb) (i : Nat) : s.fbByte i = t.fbByte i := by
  simp only [State.fbByte, h]

end Sys2Proof.Machine
end

