-- ==== Sys2Proof/Laws/Ops.lean ====
section
/-! SUPPORT. One lemma for each shared operation that says everything it can do, for proofs to cite in place of
unfolding it. -/

namespace Sys2Proof.Machine

/-- The three outcomes of `InRead()` (00_scope.md R13). -/
theorem State.inRead_cases (s : State) :
    (∃ b rest, s.ififo = b :: rest ∧ s.inRead = .byte b (s.consumed rest)) ∨
    (s.ififo = [] ∧ s.eos = true ∧ s.inRead = .endOfStream) ∨
    (s.ififo = [] ∧ s.eos = false ∧ s.inRead = .hold) := by
  unfold State.inRead
  cases h : s.ififo with
  | nil => cases he : s.eos <;> simp
  | cons b rest => simp

theorem State.inRead_of_cons {s : State} {b : Byte} {rest : List Byte} (h : s.ififo = b :: rest) :
    s.inRead = .byte b (s.consumed rest) := by simp [State.inRead, h]

theorem State.inRead_of_end {s : State} (h : s.ififo = []) (he : s.eos = true) : s.inRead = .endOfStream := by
  simp [State.inRead, h, he]

theorem State.inRead_of_hold {s : State} (h : s.ififo = []) (he : s.eos = false) : s.inRead = .hold := by
  simp [State.inRead, h, he]

/-- Acceptance (42_commands.md R171, R172): the three things it can do. -/
theorem State.acceptCommand_cases (start : State → State) (s : State) :
    (s.seq = .idle ∧ s.dimensionsLegal = true ∧ s.acceptCommand start = start s.clearCompletion) ∨
    (s.seq = .idle ∧ s.dimensionsLegal = false ∧
      s.acceptCommand start = s.clearCompletion.raise .dimension 0x00#8) ∨
    (s.seq ≠ .idle ∧ s.acceptCommand start = s.rejectCommand) := by
  unfold State.acceptCommand
  by_cases h : s.seq = .idle
  · cases hd : s.dimensionsLegal <;> simp [h]
  · simp [h]

/-- An illegal command word (42_commands.md R171, R172): the two things it can do. -/
theorem State.illegalCommand_cases (b : Byte) (s : State) :
    (s.seq = .idle ∧ s.illegalCommand b = s.clearCompletion.raise .illegalCmd b) ∨
    (s.seq ≠ .idle ∧ s.illegalCommand b = s.rejectCommand) := by
  unfold State.illegalCommand
  by_cases h : s.seq = .idle <;> simp [h]

/-- `PlaneEnd()` and `FrameEnd()` (40_plane_decoder.md R109, R110): the four things they can do. -/
theorem State.planeEnd_cases (s : State) :
    (s.cnt.toNat < s.pixels ∧ s.planeEnd = { s with seq := .hdr }) ∨
    (s.pixels ≤ s.cnt.toNat ∧ s.mode = .plane ∧ s.planeEnd = s.complete) ∨
    (∃ c, s.pixels ≤ s.cnt.toNat ∧ s.mode = .frame ∧ s.curPlane.next? = some c ∧
      s.planeEnd = { s with curPlane := c, cnt := 0, seq := .hdr }) ∨
    (s.pixels ≤ s.cnt.toNat ∧ s.mode = .frame ∧ s.curPlane = .blue ∧ s.planeEnd = s.frameEnd) := by
  unfold State.planeEnd
  by_cases h : s.cnt.toNat < s.pixels
  · simp [h]
  · cases hm : s.mode <;> cases hc : s.curPlane <;> simp [h, Plane.next?] <;> omega

/-- The length-byte step after its byte (40_plane_decoder.md R106): the two things it can do. -/
theorem State.startRun_cases (runState : Seq) (count : Nat) (b : Byte) (s : State) :
    (s.remaining < count ∧ s.params.overshoot = .fault ∧ s.startRun runState count b = s.blockError .overshoot b) ∨
    ((count ≤ s.remaining ∨ s.params.overshoot = .clamp) ∧
      s.startRun runState count b = { s with runLeft := BitVec.ofNat 8 (min count s.remaining), seq := runState }) := by
  unfold State.startRun
  by_cases h : s.remaining < count
  · cases ho : s.params.overshoot <;> simp [h]
  · simp [h]; omega

/-- Producing a sample (40_plane_decoder.md R107, R108, R114): it writes one byte and moves the counters on, or stops
because the byte does not exist. -/
theorem State.produceSample_cases (v : Byte) (s : State) :
    (s.writeIndex < s.params.fbBytes ∧
      s.produceSample v = .next ({ s with fb := Memory.write s.fb s.writeIndex v } : State).advanceRun) ∨
    (s.params.fbBytes ≤ s.writeIndex ∧ s.produceSample v = .fault .noFrameBufferByte) := by
  unfold State.produceSample
  cases h : s.memWrite s.writeIndex v with
  | none => exact .inr ⟨State.memWrite_eq_none.1 h, rfl⟩
  | some t =>
    obtain ⟨hlt, rfl⟩ := State.memWrite_eq_some.1 h
    exact .inl ⟨hlt, rfl⟩

/-- The counters of a run after a sample: the plane's end is looked at when the run is over, and not before. -/
theorem State.advanceRun_cases (s : State) :
    (s.countSample.runLeft = 0 ∧ s.advanceRun = s.countSample.planeEnd) ∨
    (s.countSample.runLeft ≠ 0 ∧ s.advanceRun = s.countSample) := by
  unfold State.advanceRun
  by_cases h : s.countSample.runLeft = 0
  · exact .inl ⟨h, if_pos h⟩
  · exact .inr ⟨h, if_neg h⟩

/-- Which bytes a failed command's region holds (60_exceptions.md R203). -/
theorem State.mem_failedRegion (s : State) (j : Nat) :
    j ∈ s.failedRegion ↔
      match s.mode with
      | .plane => ∃ i, i < min s.pixels s.params.maxPixels ∧ j = sampleIndex s.curPlane i
      | .frame => j < 3 * min s.pixels s.params.maxPixels := by
  unfold State.failedRegion
  cases s.mode <;> simp [eq_comm]

theorem sampleIndex_lt {c : Plane} {i n : Nat} (h : i < n) : sampleIndex c i < 3 * n := by
  cases c <;> simp only [sampleIndex, Plane.index] <;> omega

/-- Every byte of the region exists. -/
theorem State.failedRegion_inside {s : State} {j : Nat} (h : j ∈ s.failedRegion) : j < s.params.fbBytes := by
  rw [State.mem_failedRegion] at h
  unfold Params.fbBytes
  cases hm : s.mode with
  | plane =>
    simp only [hm] at h
    obtain ⟨i, hi, rfl⟩ := h
    exact sampleIndex_lt (by omega)
  | frame => simp only [hm] at h; omega

/-- A block error leaves every FB byte outside the region alone (60_exceptions.md R203). -/
theorem State.blockError_fbByte_outside {s : State} {j : Nat} (c : ErrCode) (b : Byte) (h : j ∉ s.failedRegion) :
    (s.blockError c b).fbByte j = s.fbByte j := by
  simp [State.blockError, State.fbByte, Memory.read?_fill, h]

/-- A pixel is read exactly where the buffer holds it. -/
theorem State.loadPixel_of_lt {s : State} {i : Nat} (h : i < s.params.maxPixels) :
    s.loadPixel i = some
      { r := s.fbByte (sampleIndex .red i), g := s.fbByte (sampleIndex .green i),
        b := s.fbByte (sampleIndex .blue i) } := by
  have hr : ∀ c, sampleIndex c i < s.params.fbBytes := fun c => sampleIndex_lt h
  simp [State.loadPixel, State.memRead, hr]

/-- Storing a pixel the buffer holds writes its three bytes and nothing else. -/
theorem State.storePixel_of_lt {s : State} {i : Nat} (p : Pixel) (h : i < s.params.maxPixels) :
    s.storePixel i p = some
      { s with fb := Memory.write (Memory.write (Memory.write s.fb (sampleIndex .red i) p.r)
          (sampleIndex .green i) p.g) (sampleIndex .blue i) p.b } := by
  have hr : ∀ c, sampleIndex c i < s.params.fbBytes := fun c => sampleIndex_lt h
  simp [State.storePixel, State.memWrite, hr]

/-- A pixel the buffer lacks faults the grading step (log 8). -/
theorem State.loadPixel_of_ge {s : State} {i : Nat} (h : s.params.maxPixels ≤ i) : s.loadPixel i = none := by
  have hr : ¬ sampleIndex .red i < s.params.fbBytes := by
    simp only [sampleIndex, Plane.index, Params.fbBytes]; omega
  simp [State.loadPixel, State.memRead, hr]

/-- What a read of one byte of the window gives (20_memory.md R56, R57). -/
theorem State.windowByte_eq (s : State) (j : Nat) :
    s.windowByte j = if j < s.params.fbBytes then s.fbByte j else 0#8 := by
  unfold State.windowByte State.memRead
  split <;> rfl

/-- What a write of one byte of the window does (20_memory.md R56, R57). -/
theorem State.writeWindowByte_eq (j : Nat) (v : Byte) (s : State) :
    s.writeWindowByte j v = if j < s.params.fbBytes then { s with fb := Memory.write s.fb j v } else s := by
  unfold State.writeWindowByte State.memWrite
  split <;> rfl

@[simp] theorem State.writeWindowByte_params (j : Nat) (v : Byte) (s : State) :
    (s.writeWindowByte j v).params = s.params := by
  rw [State.writeWindowByte_eq]; split <;> rfl

/-- A read of FB after a window byte was written. -/
theorem State.fbByte_writeWindowByte (j : Nat) (v : Byte) (s : State) (i : Nat) :
    (s.writeWindowByte j v).fbByte i = if i = j ∧ j < s.params.fbBytes then v else s.fbByte i := by
  rw [State.writeWindowByte_eq]
  by_cases h : j < s.params.fbBytes
  · rw [if_pos h, State.fbByte_write]; simp [h]
  · simp [h]

/-- A window byte's write touches FB alone. -/
theorem State.writeWindowByte_frame (j : Nat) (v : Byte) (s : State) :
    ∃ m, s.writeWindowByte j v = { s with fb := m } := by
  rw [State.writeWindowByte_eq]
  split
  · exact ⟨_, rfl⟩
  · exact ⟨s.fb, rfl⟩

/-- A window word's write touches FB alone. -/
theorem State.writeWindowWord_frame (k : Nat) (w : Word) (s : State) :
    ∃ m, s.writeWindowWord k w = { s with fb := m } := by
  unfold State.writeWindowWord
  obtain ⟨m0, h0⟩ := State.writeWindowByte_frame (4 * k) (w.extractLsb' 0 8) s
  obtain ⟨m1, h1⟩ := State.writeWindowByte_frame (4 * k + 1) (w.extractLsb' 8 8) { s with fb := m0 }
  obtain ⟨m2, h2⟩ := State.writeWindowByte_frame (4 * k + 2) (w.extractLsb' 16 8) { s with fb := m1 }
  obtain ⟨m3, h3⟩ := State.writeWindowByte_frame (4 * k + 3) (w.extractLsb' 24 8) { s with fb := m2 }
  exact ⟨m3, by rw [h0, h1, h2, h3]⟩

/-- Every register's offset is mapped to it (10_state.md R29). -/
theorem portTarget_reg (p : Params) (r : Reg) : portTarget p r.offset = some (.reg r) := by
  cases r <;> simp [portTarget, Reg.offset, Reg.all, List.find?]

/-- Every window word's offset is mapped to it (20_memory.md R55). -/
theorem portTarget_window {p : Params} (hp : p.legal) {k : Nat} (hk : k < p.fbWords) :
    portTarget p (windowOffset k) = some (.window k) := by
  have hb : (windowOffset k).toNat = 0x40000000 + 4 * k := by
    obtain ⟨_, h2, _⟩ := hp
    simp only [Params.fbWords, Params.fbBytes] at hk
    simp only [windowOffset, BitVec.toNat_ofNat]
    omega
  unfold portTarget
  rw [hb, if_neg (by omega), if_pos (by omega)]
  simp [hk]

/-- A write the block may refuse (20_memory.md R58): the two things it can do. -/
theorem State.unlessBusy_cases (write : State → State) (s : State) :
    (s.busy = true ∧ s.unlessBusy write = { s with wrRej := true }) ∨
    (s.busy = false ∧ s.unlessBusy write = write s) := by
  unfold State.unlessBusy
  cases h : s.busy <;> simp

/-- A push (42_commands.md R177): the two things it can do. -/
theorem State.pushInput_cases (b : Byte) (s : State) :
    (s.eos = false ∧ s.ififo.length < s.params.fifoDepth ∧ s.pushInput b = { s with ififo := s.ififo ++ [b] }) ∨
    ((s.eos = true ∨ s.params.fifoDepth ≤ s.ififo.length) ∧ s.pushInput b = { s with inRej := true }) := by
  unfold State.pushInput
  cases h : s.eos <;> by_cases hl : s.ififo.length < s.params.fifoDepth <;> simp [hl]; omega

/-- A write that ends at a command word: the instruction it decodes to, or the error of an illegal word. -/
theorem commandWrite_cases (w : Word) (s : State) :
    (∃ i, decodeCommand w = .ok i ∧ commandWrite w s = exec i s) ∨
    (∃ r, decodeCommand w = .error r ∧ commandWrite w s = .next (s.illegalCommand (w.extractLsb' 0 8))) := by
  unfold commandWrite
  cases h : decodeCommand w <;> simp

/-- What one step of the machine is: the turn its schedule names. -/
theorem step_cases (s : State) :
    (s.sched = [] ∧ step s = blockStep s) ∨
    (∃ rest, s.sched = .block :: rest ∧ step s = blockStep { s with sched := rest }) ∨
    (∃ op rest, s.sched = .host op :: rest ∧ step s = hostStep op { s with sched := rest }) := by
  unfold step
  cases h : s.sched with
  | nil => simp
  | cons t rest => cases t <;> simp

end Sys2Proof.Machine
end

