-- ==== Sys2Proof/Laws/PerInstr.lean ====
section
/-! SUPPORT. Facts stated for every instruction, one lemma for each constructor. TableRow: an instruction's encoding
has the number of bits, the match and the mask that its row of spec/opcode_table.json gives. -/

namespace Sys2Proof.Laws.TableRow

/-- The row of the opcode table: bits, match, mask. -/
def row : Instr → Nat × Nat × Nat
  | .lit _ => (8, 0x00, 0x80)
  | .rep _ => (8, 0x80, 0x80)
  | .markK => (8, 0x4B, 0xFF)
  | .markE => (8, 0x45, 0xFF)
  | .decodePlane _ => (32, 0x00000001, 0xFFFFFFCF)
  | .decodeFrame => (32, 0x00000002, 0xFFFFFFFF)
  | .grade => (32, 0x00000003, 0xFFFFFFFF)
  | .sreset => (32, 0x0000000F, 0xFFFFFFFF)

/-- An object's bits and their number. -/
def bitsOf : Encoded → Nat × Nat
  | .markerByte b => (8, b.toNat)
  | .lengthByte b => (8, b.toNat)
  | .commandWord w => (32, w.toNat)

def Statement (i : Instr) : Prop :=
  (bitsOf (encode i)).1 = (row i).1 ∧ (bitsOf (encode i)).2 &&& (row i).2.2 = (row i).2.1

theorem lit (m : BitVec 7) : Statement (.lit m) := by revert m; unfold Statement; decide
theorem rep (m : BitVec 7) : Statement (.rep m) := by revert m; unfold Statement; decide
theorem markK : Statement .markK := by unfold Statement; decide
theorem markE : Statement .markE := by unfold Statement; decide
theorem decodePlane (pl : BitVec 2) : Statement (.decodePlane pl) := by revert pl; unfold Statement; decide
theorem decodeFrame : Statement .decodeFrame := by unfold Statement; decide
theorem grade : Statement .grade := by unfold Statement; decide
theorem sreset : Statement .sreset := by unfold Statement; decide

end Sys2Proof.Laws.TableRow
end

