-- ==== Sys2Proof/Laws/Step.lean ====
section
/-! SUPPORT. Everything one step can do, said once: the block's turn and the host's. Later proofs take these apart and
unfold neither. -/

namespace Sys2Proof.Machine

/-- A length byte is its kind bit and its magnitude side by side (30_encoding.md R75). -/
theorem lengthByteOf_fields : ∀ b : Byte, lengthByteOf (b.getLsbD 7) (b.extractLsb' 0 7) = b := by decide

/-- The length-byte step runs the run its byte declares (40_plane_decoder.md R106). -/
theorem exec_decodeLength (b : Byte) (s : State) :
    exec (decodeLength b) s = .next (s.startRun (if b.getLsbD 7 then .repv else .lit) (declaredCount b) b) := by
  have hb := lengthByteOf_fields b
  unfold decodeLength declaredCount
  cases h : b.getLsbD 7 <;> rw [h] at hb <;> simp only [Bool.false_eq_true, if_false, if_true, exec, execLit, execRep, hb]

/-- The steps that read no byte, because none is there: the block waits or the stream has ended (00_scope.md R13,
R16; 40_plane_decoder.md R111). -/
theorem blockStep_without_byte {s : State} (hr : s.seq.readsInput = true) (hq : s.ififo = []) :
    blockStep s = .next (if s.eos then s.blockError .truncated 0x00#8 else s) := by
  have hi : s.inRead = if s.eos then .endOfStream else .hold := by simp [State.inRead, hq]
  cases hs : s.seq <;> simp only [hs, Seq.readsInput, Bool.false_eq_true] at hr <;>
    simp only [blockStep, hs, markerStep, headerStep, litByteStep, repeatValueStep, hi] <;> cases s.eos <;> rfl

/-- The marker step on a byte (40_plane_decoder.md R103 to R105, R112). -/
theorem blockStep_marker {s : State} {b : Byte} {q : List Byte} (hs : s.seq = .marker) (hq : s.ififo = b :: q) :
    blockStep s = .next
      (if b = 0x4B#8 then { s.consumed q with curPlane := .red, cnt := 0, seq := .hdr }
       else if b = 0x45#8 then { s.consumed q with endFlag := true, done := true, seq := .idle }
       else (s.consumed q).blockError .format b) := by
  simp only [blockStep, hs, markerStep, State.inRead_of_cons hq]
  unfold decodeMarker
  by_cases h1 : b = 0x4B#8
  · simp only [h1, if_true]; rfl
  · by_cases h2 : b = 0x45#8
    · simp only [h2, if_true]; rfl
    · simp only [h1, h2, if_false]

/-- The length-byte step on a byte (40_plane_decoder.md R106). -/
theorem blockStep_hdr {s : State} {b : Byte} {q : List Byte} (hs : s.seq = .hdr) (hq : s.ififo = b :: q) :
    blockStep s = .next
      ((s.consumed q).startRun (if b.getLsbD 7 then .repv else .lit) (declaredCount b) b) := by
  simp only [blockStep, hs, headerStep, State.inRead_of_cons hq, exec_decodeLength]

/-- The literal step on a byte (40_plane_decoder.md R107). -/
theorem blockStep_lit {s : State} {b : Byte} {q : List Byte} (hs : s.seq = .lit) (hq : s.ififo = b :: q) :
    blockStep s = (s.consumed q).produceSample b := by
  simp only [blockStep, hs, litByteStep, State.inRead_of_cons hq]

/-- The value step on a byte (40_plane_decoder.md R108). -/
theorem blockStep_repv {s : State} {b : Byte} {q : List Byte} (hs : s.seq = .repv) (hq : s.ififo = b :: q) :
    blockStep s = .next { s.consumed q with runVal := b, seq := .fill } := by
  simp only [blockStep, hs, repeatValueStep, State.inRead_of_cons hq]

/-- The fill step (40_plane_decoder.md R108). -/
theorem blockStep_fill {s : State} (hs : s.seq = .fill) : blockStep s = s.produceSample s.runVal := by
  simp only [blockStep, hs, fillStep]

/-- FB after pixel i became p. -/
def Memory.writePixel (m : Memory) (i : Nat) (p : Pixel) : Memory :=
  Memory.write (Memory.write (Memory.write m (sampleIndex .red i) p.r) (sampleIndex .green i) p.g)
    (sampleIndex .blue i) p.b

/-- The grading step (41_color_grader.md R149). -/
theorem blockStep_grade {s : State} (hs : s.seq = .grade) :
    blockStep s =
      if s.cnt.toNat < s.params.maxPixels then
        .next ({ s with fb := Memory.writePixel s.fb s.cnt.toNat
                          (gradePixel s.gradeReg (s.pixelAt s.cnt.toNat)) } : State).advanceGrade
      else .fault .noFrameBufferByte := by
  have hb : blockStep s = gradeStep s := by simp only [blockStep, hs]
  rw [hb, gradeStep]
  by_cases h : s.cnt.toNat < s.params.maxPixels
  · rw [if_pos h, State.loadPixel_of_lt h]
    simp only [State.storePixel_of_lt _ h]
    rfl
  · rw [if_neg h, State.loadPixel_of_ge (by omega)]

/-- The STATEs whose step reads no input, and those whose step does (40_plane_decoder.md R102). -/
theorem Seq.eq_cases (q : Seq) :
    (q = .idle ∨ q = .error ∨ q = .fill ∨ q = .grade) ∨ (q = .marker ∨ q = .hdr ∨ q = .lit ∨ q = .repv) := by
  cases q <;> decide

/-- Everything the block's turn can do when it goes on (00_scope.md R16; 40_plane_decoder.md R102). -/
theorem blockStep_cases {s t : State} (h : blockStep s = .next t) :
    ((s.seq = .idle ∨ s.seq = .error ∨ (s.seq.readsInput = true ∧ s.ififo = [] ∧ s.eos = false)) ∧ t = s) ∨
    (s.seq.readsInput = true ∧ s.ififo = [] ∧ s.eos = true ∧ t = s.blockError .truncated 0x00#8) ∨
    (∃ q, s.seq = .marker ∧ s.ififo = 0x4B#8 :: q ∧
      t = { s.consumed q with curPlane := .red, cnt := 0, seq := .hdr }) ∨
    (∃ q, s.seq = .marker ∧ s.ififo = 0x45#8 :: q ∧
      t = { s.consumed q with endFlag := true, done := true, seq := .idle }) ∨
    (∃ b q, s.seq = .marker ∧ s.ififo = b :: q ∧ b ≠ 0x4B#8 ∧ b ≠ 0x45#8 ∧
      t = (s.consumed q).blockError .format b) ∨
    (∃ b q, s.seq = .hdr ∧ s.ififo = b :: q ∧
      t = (s.consumed q).startRun (if b.getLsbD 7 then .repv else .lit) (declaredCount b) b) ∨
    (∃ b q, s.seq = .lit ∧ s.ififo = b :: q ∧ s.writeIndex < s.params.fbBytes ∧
      t = ({ s.consumed q with fb := Memory.write s.fb s.writeIndex b } : State).advanceRun) ∨
    (∃ b q, s.seq = .repv ∧ s.ififo = b :: q ∧ t = { s.consumed q with runVal := b, seq := .fill }) ∨
    (s.seq = .fill ∧ s.writeIndex < s.params.fbBytes ∧
      t = ({ s with fb := Memory.write s.fb s.writeIndex s.runVal } : State).advanceRun) ∨
    (s.seq = .grade ∧ s.cnt.toNat < s.params.maxPixels ∧
      t = ({ s with fb := Memory.writePixel s.fb s.cnt.toNat
                      (gradePixel s.gradeReg (s.pixelAt s.cnt.toNat)) } : State).advanceGrade) := by
  by_cases hn : s.seq.readsInput = true ∧ s.ififo = []
  · rw [blockStep_without_byte hn.1 hn.2] at h
    replace h := Host.Outcome.next.inj h
    by_cases he : s.eos = true
    · rw [if_pos he] at h; exact .inr (.inl ⟨hn.1, hn.2, he, h.symm⟩)
    · rw [if_neg he] at h; exact .inl ⟨.inr (.inr ⟨hn.1, hn.2, by simpa using he⟩), h.symm⟩
  · refine (Seq.eq_cases s.seq).elim ?_ fun hr => ?_
    · rintro (hs | hs | hs | hs)
      · simp only [blockStep, hs] at h; exact .inl ⟨.inl hs, (Host.Outcome.next.inj h).symm⟩
      · simp only [blockStep, hs] at h; exact .inl ⟨.inr (.inl hs), (Host.Outcome.next.inj h).symm⟩
      · rw [blockStep_fill hs] at h
        obtain ⟨hw, hp⟩ | ⟨_, hp⟩ := State.produceSample_cases s.runVal s <;> rw [hp] at h
        · exact .inr (.inr (.inr (.inr (.inr (.inr (.inr (.inr (.inl ⟨hs, hw, (Host.Outcome.next.inj h).symm⟩))))))))
        · cases h
      · rw [blockStep_grade hs] at h
        split at h
        · rename_i hc; exact .inr (.inr (.inr (.inr (.inr (.inr (.inr (.inr (.inr ⟨hs, hc, (Host.Outcome.next.inj h).symm⟩))))))))
        · cases h
    · obtain ⟨b, q, hq⟩ : ∃ b q, s.ififo = b :: q := by
        cases hq : s.ififo with
        | nil => exact absurd ⟨by rcases hr with h | h | h | h <;> rw [h] <;> rfl, hq⟩ hn
        | cons b q => exact ⟨b, q, rfl⟩
      refine .inr (.inr ?_)
      rcases hr with hs | hs | hs | hs
      · rw [blockStep_marker hs hq] at h
        replace h := (Host.Outcome.next.inj h).symm
        split at h
        next hb => subst hb; exact .inl ⟨q, hs, hq, h⟩
        next hb =>
          split at h
          next hb' => subst hb'; exact .inr (.inl ⟨q, hs, hq, h⟩)
          next hb' => exact .inr (.inr (.inl ⟨b, q, hs, hq, hb, hb', h⟩))
      · rw [blockStep_hdr hs hq] at h
        exact .inr (.inr (.inr (.inl ⟨b, q, hs, hq, (Host.Outcome.next.inj h).symm⟩)))
      · rw [blockStep_lit hs hq] at h
        obtain ⟨hw, hp⟩ | ⟨_, hp⟩ := State.produceSample_cases b (s.consumed q) <;> rw [hp] at h
        · exact .inr (.inr (.inr (.inr (.inl ⟨b, q, hs, hq, hw, (Host.Outcome.next.inj h).symm⟩))))
        · cases h
      · rw [blockStep_repv hs hq] at h
        exact .inr (.inr (.inr (.inr (.inr (.inl ⟨b, q, hs, hq, (Host.Outcome.next.inj h).symm⟩)))))

/-- What a command word does, by the word (30_encoding.md R85; 42_commands.md R171 to R174). -/
theorem commandWrite_eq (w : Word) (s : State) :
    (w = 0x0000000F#32 ∧ commandWrite w s = .next s.softReset) ∨
    (w ≠ 0x0000000F#32 ∧ ∃ start ∈ [State.startPlane .red, State.startPlane .green, State.startPlane .blue,
        State.startFrame, State.startGrade], commandWrite w s = .next (s.acceptCommand start)) ∨
    (w ≠ 0x0000000F#32 ∧ commandWrite w s = .next (s.illegalCommand (w.extractLsb' 0 8))) := by
  by_cases hw : w = 0x0000000F#32
  · subst hw; exact .inl ⟨rfl, rfl⟩
  · refine .inr ?_
    unfold commandWrite decodeCommand
    split
    next i hi =>
      refine .inl ⟨hw, ?_⟩
      split at hi
      · cases hi
      · split at hi
        next hpl =>
          cases hi
          rcases (show ∀ p : BitVec 2, p = 0#2 ∨ p = 1#2 ∨ p = 2#2 ∨ p = 3#2 by decide) (commandPl w)
            with h | h | h | h <;> rw [h] at hpl ⊢
          · exact ⟨_, by simp, rfl⟩
          · exact ⟨_, by simp, rfl⟩
          · exact ⟨_, by simp, rfl⟩
          · exact absurd rfl hpl.2
        · split at hi
          · cases hi; exact ⟨State.startFrame, by simp, rfl⟩
          · split at hi
            · cases hi; exact ⟨State.startGrade, by simp, rfl⟩
            · split at hi
              next hrsv _ _ _ hs =>
                refine absurd ?_ hw
                rw [not_not] at hrsv
                apply BitVec.eq_of_toNat_eq
                have h1 := congrArg BitVec.toNat hrsv
                have h2 := congrArg BitVec.toNat hs.1
                have h3 := congrArg BitVec.toNat hs.2
                simp only [commandRsv, commandOpc, commandPl, BitVec.extractLsb'_toNat, Nat.shiftRight_eq_div_pow,
                  BitVec.toNat_ofNat] at h1 h2 h3
                simp only [BitVec.toNat_ofNat]
                have := w.isLt
                omega
              · cases hi
    next => exact .inr ⟨hw, rfl⟩

/-- An offset that addresses a register is that register's (10_state.md R29). -/
theorem portTarget_eq_reg {p : Params} {a : Word} {r : Reg} (h : portTarget p a = some (.reg r)) : a = r.offset := by
  unfold portTarget at h
  split at h
  · cases h
  · split at h
    · dsimp only at h; split at h <;> cases h
    · obtain ⟨r', hr, hr'⟩ := Option.map_eq_some_iff.1 h
      cases hr'
      have := List.find?_some hr
      exact (beq_iff_eq.1 this).symm

/-- An offset that addresses a window word is that word's (20_memory.md R55). -/
theorem portTarget_eq_window {p : Params} {a : Word} {k : Nat} (h : portTarget p a = some (.window k)) :
    k < p.fbWords ∧ a = windowOffset k := by
  unfold portTarget at h
  split at h
  · cases h
  next h4 =>
    split at h
    next hge =>
      dsimp only at h
      split at h
      next hk =>
        have h := PortTarget.window.inj (Option.some.inj h)
        subst h
        refine ⟨hk, BitVec.eq_of_toNat_eq ?_⟩
        rw [windowOffset, BitVec.toNat_ofNat]
        have := a.isLt
        omega
      · cases h
    · obtain ⟨r', _, hr'⟩ := Option.map_eq_some_iff.1 h
      cases hr'

/-- Everything a host read can do (20_memory.md R51, R59). -/
theorem hostRead_cases (a : Word) (s : State) :
    (∃ r, hostRead a s = { s with response := r }) ∨
    (s.busy = true ∧
      hostRead a s = { s with response := .data (Config.freeWord s.draws), draws := s.draws + 1 }) := by
  unfold hostRead
  split
  · exact .inl ⟨_, rfl⟩
  · exact .inl ⟨_, rfl⟩
  · by_cases hb : s.busy = true
    · rw [if_pos hb]; exact .inr ⟨hb, rfl⟩
    · rw [if_neg hb]; exact .inl ⟨_, rfl⟩

/-- Everything a host write can do, with `v` the state after the port answered `Ok` (20_memory.md R51, R54, R58;
42_commands.md R170 to R179). -/
theorem hostWrite_cases {a w : Word} {s t : State} (h : hostWrite a w s = .next t) :
    t = { s with response := .busError } ∨
    (∃ v : State, v = { s with response := .ok } ∧
      ((a = 0x00#32 ∧ commandWrite w v = .next t) ∨
        (a = 0x04#32 ∧ t = v.clearFlags w) ∨
        (a = 0x08#32 ∧ t = v.unlessBusy fun u => { u with width := w }) ∨
        (a = 0x0C#32 ∧ t = v.unlessBusy fun u => { u with height := w }) ∨
        (a = 0x10#32 ∧ t = v.unlessBusy fun u => { u with gradeReg := gradeStored w }) ∨
        (a = 0x14#32 ∧ t = { v with irqEn := BitVec.setWidth 32 (w.extractLsb' 0 2) }) ∨
        (a = 0x18#32 ∧ t = v.pushInput (w.extractLsb' 0 8)) ∨
        (a = 0x1C#32 ∧ t = { v with eos := v.eos || w.getLsbD 0 }) ∨
        t = v ∨
        (∃ k, k < s.params.fbWords ∧ a = windowOffset k ∧ t = v.unlessBusy (State.writeWindowWord k w)))) := by
  unfold hostWrite at h
  split at h
  · exact .inl (Host.Outcome.next.inj h).symm
  next r hr =>
    refine .inr ⟨_, rfl, ?_⟩
    have ha := portTarget_eq_reg hr
    cases r
    · exact .inl ⟨ha, h⟩
    · exact .inr (.inl ⟨ha, (Host.Outcome.next.inj h).symm⟩)
    · exact .inr (.inr (.inl ⟨ha, (Host.Outcome.next.inj h).symm⟩))
    · exact .inr (.inr (.inr (.inl ⟨ha, (Host.Outcome.next.inj h).symm⟩)))
    · exact .inr (.inr (.inr (.inr (.inl ⟨ha, (Host.Outcome.next.inj h).symm⟩))))
    · exact .inr (.inr (.inr (.inr (.inr (.inl ⟨ha, (Host.Outcome.next.inj h).symm⟩)))))
    · exact .inr (.inr (.inr (.inr (.inr (.inr (.inl ⟨ha, (Host.Outcome.next.inj h).symm⟩))))))
    · exact .inr (.inr (.inr (.inr (.inr (.inr (.inr (.inl ⟨ha, (Host.Outcome.next.inj h).symm⟩)))))))
    all_goals exact .inr (.inr (.inr (.inr (.inr (.inr (.inr (.inr (.inl (Host.Outcome.next.inj h).symm))))))))
  next k hk =>
    obtain ⟨hk', ha⟩ := portTarget_eq_window hk
    exact .inr ⟨_, rfl, .inr (.inr (.inr (.inr (.inr (.inr (.inr (.inr (.inr
      ⟨k, hk', ha, (Host.Outcome.next.inj h).symm⟩))))))))⟩

/-- A push adds the bytes `acceptedBytes` names (42_commands.md R177). -/
theorem State.pushInput_ififo (s : State) (w : Word) :
    (s.pushInput (w.extractLsb' 0 8)).ififo = s.ififo ++ s.acceptedBytes (.write 0x18#32 w) := by
  by_cases h : s.eos = false ∧ s.ififo.length < s.params.fifoDepth <;>
    simp [State.pushInput, State.acceptedBytes, h]

/-- An access elsewhere than IN_DATA adds no byte. -/
theorem State.acceptedBytes_write_other (s : State) {a : Word} (w : Word) (h : a ≠ 0x18#32) :
    s.acceptedBytes (.write a w) = [] := if_neg fun hc => h hc.1

/-- What producing a sample's counters leave alone: the dimensions, the flags of the host, the input and the schedule; and
DONE can only rise, with STATE becoming IDLE (40_plane_decoder.md R107 to R110). -/
theorem State.advanceRun_keeps (s : State) :
    s.advanceRun.params = s.params ∧ s.advanceRun.width = s.width ∧ s.advanceRun.height = s.height ∧
    s.advanceRun.gradeReg = s.gradeReg ∧ s.advanceRun.eos = s.eos ∧ s.advanceRun.sched = s.sched ∧
    s.advanceRun.ififo = s.ififo ∧ s.advanceRun.inCount = s.inCount ∧ s.advanceRun.fb = s.fb ∧
    s.advanceRun.endFlag = s.endFlag ∧
    (s.advanceRun.done = s.done ∨ (s.advanceRun.done = true ∧ s.advanceRun.seq = .idle)) := by
  rcases s.advanceRun_cases with ⟨_, ht⟩ | ⟨_, ht⟩ <;> rw [ht]
  · rcases s.countSample.planeEnd_cases with ⟨_, h⟩ | ⟨_, _, h⟩ | ⟨_, _, _, _, h⟩ | ⟨_, _, _, h⟩ <;> rw [h] <;>
      simp [State.countSample, State.complete, State.frameEnd]
  · simp [State.countSample]

/-- What the length-byte step after its byte leaves alone (40_plane_decoder.md R106). -/
theorem State.startRun_keeps (q : Seq) (count : Nat) (b : Byte) (s : State) :
    (s.startRun q count b).params = s.params ∧ (s.startRun q count b).width = s.width ∧
    (s.startRun q count b).height = s.height ∧ (s.startRun q count b).gradeReg = s.gradeReg ∧
    (s.startRun q count b).eos = s.eos ∧ (s.startRun q count b).sched = s.sched ∧
    (s.startRun q count b).ififo = s.ififo ∧ (s.startRun q count b).inCount = s.inCount ∧
    (s.startRun q count b).done = s.done ∧ (s.startRun q count b).endFlag = s.endFlag := by
  rcases State.startRun_cases q count b s with ⟨_, _, h⟩ | ⟨_, h⟩ <;> rw [h] <;> simp [State.blockError]

/-- What every block turn leaves alone, and that it takes at most one byte of IFIFO and counts it (00_scope.md R13;
10_state.md R28). -/
theorem blockStep_keeps {s t : State} (h : blockStep s = .next t) :
    t.params = s.params ∧ t.width = s.width ∧ t.height = s.height ∧ t.gradeReg = s.gradeReg ∧ t.eos = s.eos ∧
    t.sched = s.sched ∧
    ((t.ififo = s.ififo ∧ t.inCount = s.inCount) ∨ ∃ b, s.ififo = b :: t.ififo ∧ t.inCount = s.inCount + 1) := by
  rcases blockStep_cases h with ⟨_, rfl⟩ | ⟨_, _, _, rfl⟩ | ⟨q, _, hq, rfl⟩ | ⟨q, _, hq, rfl⟩ |
    ⟨b, q, _, hq, _, _, rfl⟩ | ⟨b, q, _, hq, rfl⟩ | ⟨b, q, _, hq, _, rfl⟩ | ⟨b, q, _, hq, rfl⟩ | ⟨_, _, rfl⟩ |
    ⟨_, _, rfl⟩
  · simp
  · simp [State.blockError]
  · simp [hq]
  · simp [hq]
  · simp [State.blockError, hq]
  · obtain ⟨h1, h2, h3, h4, h5, h6, h7, h8, _⟩ :=
      State.startRun_keeps (if b.getLsbD 7 then .repv else .lit) (declaredCount b) b (s.consumed q)
    exact ⟨h1, h2, h3, h4, h5, h6, .inr ⟨b, by rw [h7]; exact hq, h8⟩⟩
  · obtain ⟨h1, h2, h3, h4, h5, h6, h7, h8, _⟩ :=
      State.advanceRun_keeps { s.consumed q with fb := Memory.write s.fb s.writeIndex b }
    exact ⟨h1, h2, h3, h4, h5, h6, .inr ⟨b, by rw [h7]; exact hq, h8⟩⟩
  · simp [hq]
  · obtain ⟨h1, h2, h3, h4, h5, h6, h7, h8, _⟩ :=
      State.advanceRun_keeps { s with fb := Memory.write s.fb s.writeIndex s.runVal }
    exact ⟨h1, h2, h3, h4, h5, h6, .inl ⟨h7, h8⟩⟩
  · unfold State.advanceGrade; dsimp only; split <;> simp [State.complete]

/-- Everything a host turn other than SRESET can do while the block is busy: the sequencer, the dimensions, GRADE, FB and
the counters stay, flags are not raised, bytes are only appended to IFIFO, and EOS stays set (20_memory.md R58, R69;
42_commands.md R171). -/
theorem hostStep_while_busy {op : HostOp} {s t : State} (hb : s.busy = true)
    (hr : op ≠ .write 0x00#32 0x0000000F#32) (h : hostStep op s = .next t) :
    t = { s with done := t.done, endFlag := t.endFlag, cmdRej := t.cmdRej, wrRej := t.wrRej, inRej := t.inRej,
                 irqEn := t.irqEn, ififo := s.ififo ++ s.acceptedBytes op, eos := t.eos, response := t.response,
                 draws := t.draws } ∧
    (s.done = false → t.done = false) ∧ (s.endFlag = false → t.endFlag = false) ∧ (s.eos = true → t.eos = true) := by
  cases op with
  | read a =>
    obtain rfl := Host.Outcome.next.inj h
    have hn : s.ififo ++ s.acceptedBytes (.read a) = s.ififo := List.append_nil _
    rcases hostRead_cases a s with ⟨r, h⟩ | ⟨_, h⟩ <;> rw [h, hn] <;> exact ⟨rfl, id, id, id⟩
  | write a w =>
    have keep : ∀ v : State, v = { s with response := v.response, cmdRej := v.cmdRej, wrRej := v.wrRej } →
        a ≠ 0x18#32 →
        v = { s with done := v.done, endFlag := v.endFlag, cmdRej := v.cmdRej, wrRej := v.wrRej, inRej := v.inRej,
                     irqEn := v.irqEn, ififo := s.ififo ++ s.acceptedBytes (.write a w), eos := v.eos,
                     response := v.response, draws := v.draws } ∧
        (s.done = false → v.done = false) ∧ (s.endFlag = false → v.endFlag = false) ∧
        (s.eos = true → v.eos = true) := by
      intro v hv ha
      rw [State.acceptedBytes_write_other s w ha, List.append_nil]
      rw [hv]
      exact ⟨rfl, id, id, id⟩
    by_cases ha : a = 0x18#32
    · subst ha
      have hs : t = ({ s with response := .ok } : State).pushInput (w.extractLsb' 0 8) := by
        have h' : hostWrite Reg.inData.offset w s = .next t := h
        unfold hostWrite at h'
        rw [portTarget_reg] at h'
        exact (Host.Outcome.next.inj h').symm
      have hq := State.pushInput_ififo { s with response := .ok } w
      rw [← hs] at hq
      have hq' : t.ififo = s.ififo ++ s.acceptedBytes (.write 0x18#32 w) := hq
      rw [← hq']
      rcases State.pushInput_cases (w.extractLsb' 0 8) { s with response := .ok } with ⟨_, _, hc⟩ | ⟨_, hc⟩ <;>
        rw [hs, hc] <;> exact ⟨rfl, id, id, id⟩
    · have hn := State.acceptedBytes_write_other s w ha
      rcases hostWrite_cases h with rfl | ⟨v, hv, hc⟩
      · exact keep _ rfl ha
      · have hvb : v.busy = true := by rw [hv]; exact hb
        have refused : ∀ f, v.unlessBusy f = { v with wrRej := true } := by
          intro f; simp [State.unlessBusy, hvb]
        rcases hc with ⟨ha', hc⟩ | ⟨_, rfl⟩ | ⟨_, rfl⟩ | ⟨_, rfl⟩ | ⟨_, rfl⟩ | ⟨_, rfl⟩ | ⟨ha', _⟩ | ⟨_, rfl⟩ | rfl |
          ⟨k, hk, ha', rfl⟩
        · have hni : v.seq ≠ .idle := by intro hi; simp [State.busy, hi] at hvb
          have ht : t = v.rejectCommand := by
            rcases commandWrite_eq w v with ⟨hw, _⟩ | ⟨_, st, _, hc'⟩ | ⟨_, hc'⟩
            · exact absurd (by rw [ha', hw]) hr
            · rw [hc'] at hc
              rcases v.acceptCommand_cases st with ⟨hi, _⟩ | ⟨hi, _⟩ | ⟨_, h3⟩
              · exact absurd hi hni
              · exact absurd hi hni
              · rw [← h3]; exact (Host.Outcome.next.inj hc).symm
            · rw [hc'] at hc
              rcases v.illegalCommand_cases (w.extractLsb' 0 8) with ⟨hi, _⟩ | ⟨_, h3⟩
              · exact absurd hi hni
              · rw [← h3]; exact (Host.Outcome.next.inj hc).symm
          rw [ht]; subst hv; exact keep _ rfl ha
        · rw [hn, List.append_nil, hv]
          exact ⟨rfl, fun h => by simp [State.clearFlags, h], fun h => by simp [State.clearFlags, h], id⟩
        · rw [refused]; subst hv; exact keep _ rfl ha
        · rw [refused]; subst hv; exact keep _ rfl ha
        · rw [refused]; subst hv; exact keep _ rfl ha
        · rw [hn, List.append_nil, hv]; exact ⟨rfl, id, id, id⟩
        · exact absurd ha' ha
        · rw [hn, List.append_nil, hv]; exact ⟨rfl, id, id, fun h => by simp [h]⟩
        · subst hv; exact keep _ rfl ha
        · rw [refused]; subst hv; exact keep _ rfl ha

/-! ### Counting the block's turns -/

/-- With a silent host every turn is the block's. -/
@[simp] theorem blockTurns_nil (k : Nat) : blockTurns k [] = k := by
  induction k with
  | zero => rfl
  | succ k ih => simp [blockTurns, ih]

/-- A block turn counts one. -/
theorem blockTurns_of_blockTurn {s u : State} (h : s.BlockTurn u) (k : Nat) :
    blockTurns (k + 1) s.sched = blockTurns k u.sched + 1 := by
  rcases h with ⟨hs, rfl⟩ | ⟨hs, _⟩ <;> rw [hs] <;> rfl

/-- A host turn counts none. -/
@[simp] theorem blockTurns_host (k : Nat) (op : HostOp) (rest : List Turn) :
    blockTurns (k + 1) (.host op :: rest) = blockTurns k rest := rfl

/-- A bound on the block's turns bounds all turns: the host takes none but those of the schedule. -/
theorem le_blockTurns_add_length (k : Nat) (turns : List Turn) : k ≤ blockTurns k turns + turns.length := by
  induction k generalizing turns with
  | zero => omega
  | succ k ih =>
    match turns with
    | [] => simp
    | .block :: rest => have := ih rest; simp only [blockTurns, List.length_cons]; omega
    | .host _ :: rest => have := ih rest; simp only [blockTurns, List.length_cons]; omega

end Sys2Proof.Machine
end

