-- ==== Sys2Proof/Tests/Slice0.lean ====
section
/-! SUPPORT. The model's own tests. Expected values come from spec/95_test_vectors.md (the vector's name stands in each
docstring) or from the encodings of spec/30_encoding.md, written out bit by bit. The second half shows, for each
statement with hypotheses, a state and operands that meet them all. -/

namespace Sys2Proof.Tests
open Sys2Proof.Machine

/-! ### Well-formedness -/

/-- The one ill-formed instruction: PL = 3 (30_encoding.md R86). -/
theorem test_wellFormed_refuses_pl3 : WellFormed (.decodePlane 3#2) = false := by decide
theorem test_wellFormed_pl : WellFormed (.decodePlane 2#2) = true := by decide
theorem test_packet_refuses_empty_literal : Packet.wellFormed (.literal []) = false := by decide
theorem test_packet_refuses_long_literal : Packet.wellFormed (.literal (List.replicate 129 0#8)) = false := by
  simp [Packet.wellFormed]
theorem test_packet_refuses_short_repeat : Packet.wellFormed (.repeatRun 2 7#8) = false := by decide
theorem test_packet_refuses_long_repeat : Packet.wellFormed (.repeatRun 131 7#8) = false := by decide

/-! ### Decoding, from words written out -/

theorem test_decode_lit : decode (.lengthByte 0b00001100#8) = .ok (.lit 12#7) := by decide
theorem test_decode_rep : decode (.lengthByte 0b11000000#8) = .ok (.rep 64#7) := by decide
theorem test_decode_markK : decode (.markerByte 0b01001011#8) = .ok .markK := by decide
theorem test_decode_markE : decode (.markerByte 0b01000101#8) = .ok .markE := by decide
theorem test_decode_decodePlane :
    decode (.commandWord 0b00000000000000000000000000100001#32) = .ok (.decodePlane 2#2) := by decide
theorem test_decode_decodeFrame :
    decode (.commandWord 0b00000000000000000000000000000010#32) = .ok .decodeFrame := by decide
theorem test_decode_grade : decode (.commandWord 0b00000000000000000000000000000011#32) = .ok .grade := by decide
theorem test_decode_sreset : decode (.commandWord 0b00000000000000000000000000001111#32) = .ok .sreset := by decide

/-- V-M3: a byte that is no marker, at a marker position. -/
theorem test_decode_reserved_marker : decode (.markerByte 0x23#8) = .error (.reservedMarker 0x23#8) := by decide
/-- The same byte at a length position is LIT 36 (95 section 2.1): its place decides, not the byte. -/
theorem test_decode_hash_as_length : decode (.lengthByte 0x23#8) = .ok (.lit 35#7) := by decide
/-- V-CM1 and V-CM8: illegal command words. -/
theorem test_decode_illegal_words :
    [0x00000000, 0x00000004, 0x0000000E, 0x00000012, 0x00000040, 0x00000042, 0x0000008F, 0x0000001F, 0x40000002,
      0x00000031].all (fun w => (decodeTableWord 32 w).isNone) = true := by decide
/-- 95 section 2.1: run counts at the ends of the two ranges. -/
theorem test_declared_counts :
    [0x00#8, 0x7F#8, 0x80#8, 0x81#8, 0xFE#8, 0xFF#8].map declaredCount = [1, 128, 130, 129, 4, 3] := by decide
theorem test_table_word_lit : decodeTableWord 8 0b00000001 = some (.lit 1#7) := by decide
theorem test_table_word_markE : decodeTableWord 8 0b01000101 = some .markE := by decide
theorem test_table_word_decodePlane : decodeTableWord 32 0b00010001 = some (.decodePlane 1#2) := by decide
theorem test_table_word_rejects : decodeTableWord 32 0x31 = none ∧ decodeTableWord 16 0x01 = none := by decide

/-- S7: the encoding of the runs 1 x 11, 2 x 22, 3 x 33, 130 x 44. -/
theorem test_encode_runs :
    planeBytes (runPackets 0x11#8 1 ++ runPackets 0x22#8 2 ++ runPackets 0x33#8 3 ++ runPackets 0x44#8 130) =
      [0x00#8, 0x11#8, 0x01#8, 0x22#8, 0x22#8, 0xFF#8, 0x33#8, 0x80#8, 0x44#8] := by decide
/-- S8: the plane's last packet ends exactly at N samples, and the next byte is not consumed. -/
theorem test_decodePlane_stops_at_boundary :
    decodePlane .clamp 5 [0xFF#8, 0x07#8, 0x01#8, 0x01#8, 0x02#8, 0x99#8] =
      .ok [0x07#8, 0x07#8, 0x07#8, 0x01#8, 0x02#8] [0x99#8] := by decide

/-! ### Small states -/

/-- w x h pixels on a machine for 16, with this policy. -/
def dims (p : OvershootPolicy) (w h : Word) : State :=
  { State.resetWith { maxPixels := 16, fifoDepth := 4, overshoot := p } with width := w, height := h }

/-- A decode in STATE q whose next bytes are `bytes`, 2 x 1 pixels. -/
def decoding (p : OvershootPolicy) (q : Seq) (bytes : List Byte) : State :=
  { dims p 2 1 with seq := q, ififo := bytes }

/-- s with a host write as its next turn. -/
def writing (a w : Word) (s : State) : State := { s with sched := [.host (.write a w)] }

/-- s with a host read as its next turn. -/
def reading (a : Word) (s : State) : State := { s with sched := [.host (.read a)] }

/-- Some fields of the state after one step. -/
def after {α : Type} (s : State) (f : State → α) : Option α := (nextState? (step s)).map f

/-! ### One step of each instruction -/

/-- P5: length byte 03 is LIT 4, clamped to the 2 samples needed. -/
theorem test_lit_clamped :
    after (decoding .clamp .hdr [0x03#8, 0x0A#8]) (fun t => (t.seq, t.runLeft, t.ififo, t.inCount)) =
      some (.lit, 2#8, [0x0A#8], 1#32) := by decide
/-- P5 under FAULT: OVERSHOOT with ERR_BYTE 03. -/
theorem test_lit_overshoot :
    after (decoding .fault .hdr [0x03#8, 0x0A#8]) (fun t => (t.statusWord, t.errByte, t.inCount)) =
      some (0x00000204#32, 0x03#8, 1#32) := by decide
/-- S9: length byte FF is REP 3, clamped to 2. -/
theorem test_rep_clamped :
    after (decoding .clamp .hdr [0xFF#8, 0x00#8]) (fun t => (t.seq, t.runLeft, t.ififo)) =
      some (.repv, 2#8, [0x00#8]) := by decide
/-- S9 under FAULT: STATUS 0x00000204, ERR_BYTE FF. -/
theorem test_rep_overshoot :
    after (decoding .fault .hdr [0xFF#8, 0x00#8]) (fun t => (t.statusWord, t.errByte)) =
      some (0x00000204#32, 0xFF#8) := by decide
/-- P5's second frame: 4B is consumed and plane R's length byte comes next. -/
theorem test_markK :
    after { decoding .clamp .marker [0x4B#8] with mode := .frame, inCount := 10, cnt := 2, curPlane := .blue }
      (fun t => (t.seq, t.curPlane, t.cnt, t.inCount)) = some (.hdr, .red, 0#32, 11#32) := by decide
/-- P1's third DECODE_FRAME: STATUS 0x0000000A, IN_COUNT 15, FRAME_COUNT 2. -/
theorem test_markE :
    after { decoding .clamp .marker [0x45#8] with mode := .frame, inCount := 14, frameCount := 2, eos := true }
      (fun t => (t.statusWord, t.inCount, t.frameCount)) = some (0x0000000A#32, 15#32, 2#32) := by decide
/-- P2: STATUS reads 0x00001011 after DECODE_PLANE G with nothing pushed. -/
theorem test_decodePlane :
    after (writing 0x00#32 0x00000011#32 (dims .clamp 5 1)) (fun t => (t.statusWord, t.response)) =
      some (0x00001011#32, .ok) := by decide
/-- V-CM2: legality is checked before the dimensions. -/
theorem test_decodePlane_pl3 :
    after (writing 0x00#32 0x00000031#32 (dims .clamp 0 5)) (fun t => (t.statusWord, t.errByte)) =
      some (0x00000504#32, 0x31#8) := by decide
/-- V-CM5: N = MAX_PIXELS is accepted; STATUS 0x00000011. -/
theorem test_decodeFrame :
    after (writing 0x00#32 0x00000002#32 (dims .clamp 4 4)) State.statusWord = some 0x00000011#32 := by decide
/-- V-CM7: N = 2^32 does not wrap. -/
theorem test_decodeFrame_dimension :
    after (writing 0x00#32 0x00000002#32 (dims .clamp 0x00010000#32 0x00010000#32)) State.statusWord =
      some 0x00000404#32 := by decide
/-- V-CM9: GRADE while a decode holds is rejected; STATUS 0x00000031. -/
theorem test_grade_rejected :
    after (writing 0x00#32 0x00000003#32 (decoding .clamp .marker [])) State.statusWord = some 0x00000031#32 := by
  decide
/-- V-CM4: HEIGHT = 0; STATUS 0x00000404. -/
theorem test_grade_dimension :
    after (writing 0x00#32 0x00000003#32 (dims .clamp 5 0)) State.statusWord = some 0x00000404#32 := by decide
/-- V-CM9e: SRESET while busy; STATUS 0 and WIDTH = HEIGHT = 0. -/
theorem test_sreset :
    after (writing 0x00#32 0x0000000F#32 { decoding .clamp .marker [] with cmdRej := true, wrRej := true })
      (fun t => (t.statusWord, t.seq, t.width, t.height, t.gradeReg)) =
      some (0#32, .idle, 0#32, 0#32, 0x00323232#32) := by decide

/-! ### Block steps and the host port -/

/-- V-L2: a marker value in a payload is a sample, and the plane ends at N. -/
theorem test_literal_step :
    after { dims .clamp 1 1 with seq := .lit, ififo := [0x4B#8], runLeft := 1, inCount := 1 }
      (fun t => (t.statusWord, t.cnt, t.inCount, t.fb)) = some (0x00000002#32, 1#32, 2#32, [(0, 0x4B#8)]) := by decide
/-- P1: the last fill step of a frame; STATUS 0x00002002, FRAME_COUNT 1. -/
theorem test_fill_step :
    after { dims .clamp 2 1 with seq := .fill, mode := .frame, curPlane := .blue, cnt := 1, runLeft := 1 }
      (fun t => (t.statusWord, t.cnt, t.frameCount, t.fb)) = some (0x00002002#32, 2#32, 1#32, [(5, 0#8)]) := by decide
/-- V-M3: FORMAT, ERR_BYTE 23, one byte consumed. -/
theorem test_format_error :
    after (decoding .clamp .marker [0x23#8]) (fun t => (t.statusWord, t.errByte, t.inCount)) =
      some (0x00000304#32, 0x23#8, 1#32) := by decide
/-- S10: the stream ends inside a literal; STATUS 0x00000104, POS unchanged. -/
theorem test_truncated :
    after { dims .clamp 4 1 with seq := .lit, eos := true, cnt := 2, runLeft := 2, inCount := 3 }
      (fun t => (t.statusWord, t.cnt, t.inCount, t.errByte)) = some (0x00000104#32, 2#32, 3#32, 0#8) := by decide
set_option maxRecDepth 8000 in
/-- 95 section 2.10, row 7, as one grading step on N = 1. -/
theorem test_grade_step :
    after { dims .clamp 1 1 with seq := .grade, gradeReg := setParamsWord 60 40 90,
                                 fb := [(0, 128#8), (1, 64#8), (2, 32#8)] }
      (fun t => (t.fb, t.statusWord, t.cnt)) =
      some ([(0, 176#8), (1, 68#8), (2, 16#8)], 0x00000002#32, 1#32) := by decide
/-- 95 section 2.8: values where double evaluation or truncation toward 0 would differ. -/
theorem test_tone_stages : brightStage 180 11 = 63 ∧ contrastStage 18 55 = 7 ∧ contrastStage 1 25 = 64 := by decide
set_option maxRecDepth 8000 in
/-- 95 section 2.9: both branches of floor(k * P), and a perfect square for k < 0. -/
theorem test_saturation_stage :
    saturatePixel 25 { r := 10, g := 200, b := 30 } = { r := 81, g := 176, b := 91 } ∧
    saturatePixel 60 { r := 128, g := 0, b := 255 } = { r := 131, g := 0, b := 255 } ∧
    saturatePixel 100 { r := 37, g := 37, b := 37 } = { r := 37, g := 37, b := 37 } := by decide
/-- V-CM12, V-CM12a, V-CM12b: writes of GRADE. -/
theorem test_grade_register :
    gradeStored 0x00656432#32 = 0x00323232#32 ∧ gradeStored 0xFF3C5046#32 = 0x003C5046#32 ∧
    gradeStored 0x00000080#32 = 0x00323232#32 := by decide
/-- V-CM17: window word 2 goes to FB bytes 8 to 11, the lowest byte first. -/
theorem test_window_write :
    after (writing 0x40000008#32 0x1EC80AFF#32 (dims .clamp 2 2)) State.fb =
      some [(8, 0xFF#8), (9, 0x0A#8), (10, 0xC8#8), (11, 0x1E#8)] := by decide
/-- P3: a window read, pixels (255,255,255) and (0,255,0) in bytes 6 to 11. -/
theorem test_window_read :
    after (reading 0x40000008#32
        { dims .clamp 2 2 with fb := [(8, 0xFF#8), (9, 0x00#8), (10, 0xFF#8), (11, 0x00#8)] }) State.response =
      some (.data 0x00FF00FF#32) := by decide
/-- V-CM11: a misaligned write answers BusError. -/
theorem test_bus_error :
    after (writing 0x00000002#32 5#32 (dims .clamp 2 1)) (fun t => (t.response, t.width)) = some (.busError, 2#32) := by
  decide
/-- V-CM10: a push into a full FIFO is dropped; STATUS 0x00000080. -/
theorem test_push_full :
    after (writing 0x18#32 3#32 { dims .clamp 0 0 with ififo := [1, 2, 3, 4] })
      (fun t => (t.statusWord, t.ififo.length)) = some (0x00000080#32, 4) := by decide

/-- V-CM10: IN_LEVEL reads the number of bytes in IFIFO. -/
theorem test_in_level :
    after (reading 0x20#32 { dims .clamp 0 0 with ififo := [1, 2] }) State.response = some (.data 2#32) := by decide

/-! ### The host's two questions, on one word of each row -/

theorem test_fetch_lit :
    after (State.reset.withFetchWord 8 0x02) (fun t => (t.seq, t.runLeft)) = some (.lit, 3#8) := by decide
theorem test_fetch_markK : after (State.reset.withFetchWord 8 0x4B) State.seq = some .hdr := by decide
theorem test_fetch_decodeFrame :
    after (State.reset.withFetchWord 32 0x00000002) (fun t => (t.seq, t.errcode)) = some (.error, .dimension) := by
  decide

/-! ### Witnesses: states and operands that meet a statement's hypotheses, clause by clause -/

theorem witness_DecodeEncodeRoundTrip : WellFormed (.decodePlane 2#2) = true ∧ WellFormed (.lit 127#7) = true := by
  decide
theorem witness_DecodedObjectIsItsEncoding : decode (.commandWord 0x00000021#32) = .ok (.decodePlane 2#2) := by decide
theorem witness_LengthByteKinds :
    (0x00#8).toNat < 0x80 ∧ (0x7F#8).toNat < 0x80 ∧ 0x80 ≤ (0x80#8).toNat ∧ 0x80 ≤ (0xFF#8).toNat := by decide
theorem witness_RunCountsFromSignedLength :
    0 ≤ (0x00#8).toInt ∧ 0 ≤ (0x7F#8).toInt ∧ (0x80#8).toInt < 0 ∧ (0xFF#8).toInt < 0 := by decide
theorem witness_MarkerBytes : 0x46#8 ≠ 0x4B#8 ∧ 0x46#8 ≠ 0x45#8 := by decide
/-- Packets at the ends of both ranges: 1 and 128 literal samples, 3 and 130 repeated ones. -/
theorem witness_ConformingPlaneDecodes :
    ∀ p ∈ [Packet.literal [7#8], .literal (List.replicate 128 9#8), .repeatRun 3 1#8, .repeatRun 130 2#8],
      p.wellFormed = true := by simp [Packet.wellFormed]
theorem witness_StepRunsDecodedInstruction :
    (writing 0x00#32 0x02#32 (dims .clamp 2 1)).HostWrites 0x00#32 0x02#32 { dims .clamp 2 1 with response := .ok } ∧
    decode (.commandWord 0x02#32) = .ok .decodeFrame ∧
    (let u := decoding .clamp .marker [0x4B#8]
     u.BlockTurn u ∧ u.seq = .marker ∧ u.ififo = [0x4B#8] ∧ decode (.markerByte 0x4B#8) = .ok .markK) ∧
    (let u := decoding .clamp .hdr [0xFF#8, 0x07#8]
     { u with sched := [.block] }.BlockTurn u ∧ u.seq = .hdr ∧ u.ififo = 0xFF#8 :: [0x07#8] ∧
       decode (.lengthByte 0xFF#8) = .ok (.rep 127#7)) := by decide
theorem witness_WaitingKeepsAllState :
    ((dims .clamp 2 1).BlockTurn (dims .clamp 2 1) ∧ (dims .clamp 2 1).seq = .idle) ∧
    (let u := { dims .clamp 2 1 with seq := .error, errcode := .format }
     u.BlockTurn u ∧ u.seq = .error) ∧
    (let u := decoding .clamp .hdr []
     u.BlockTurn u ∧ u.seq ∈ [Seq.marker, .hdr, .lit, .repv] ∧ u.ififo = [] ∧ u.eos = false) := by decide
/-- N = MAX_PIXELS. -/
theorem witness_DecodePlaneStarts :
    (2#2, Plane.blue) ∈ [(0#2, Plane.red), (1#2, .green), (2#2, .blue)] ∧
    (let s := dims .clamp 4 4
     s.seq = .idle ∧ s.width ≠ 0 ∧ s.height ≠ 0 ∧ s.width.toNat * s.height.toNat = s.params.maxPixels) := by decide
theorem witness_DecodeFrameStarts :
    let s := dims .clamp 16 1
    s.seq = .idle ∧ s.width ≠ 0 ∧ s.height ≠ 0 ∧ s.width.toNat * s.height.toNat ≤ s.params.maxPixels := by decide
theorem witness_GradeStarts :
    let s := dims .fault 1 1
    s.seq = .idle ∧ s.width ≠ 0 ∧ s.height ≠ 0 ∧ s.width.toNat * s.height.toNat ≤ s.params.maxPixels := by decide
theorem witness_CommandRejectedUnlessIdle :
    let u := { decoding .clamp .marker [] with response := .ok }
    (writing 0x00#32 0x31#32 (decoding .clamp .marker [])).HostWrites 0x00#32 0x31#32 u ∧
      0x31#32 ≠ 0x0000000F#32 ∧ u.seq ≠ .idle := by decide
theorem witness_IllegalCommandRaises :
    let u := { dims .clamp 0 5 with response := .ok }
    u.seq = .idle ∧ (writing 0x00#32 0x1F#32 (dims .clamp 0 5)).HostWrites 0x00#32 0x1F#32 u ∧
      0x1F#32 ∉ [0x00000001#32, 0x00000011#32, 0x00000021#32, 0x00000002#32, 0x00000003#32, 0x0000000F#32] := by
  decide
/-- Each of the three reasons, the last at N = MAX_PIXELS + 1 and at N = 2^32. -/
theorem witness_BadDimensionsRaise :
    Instr.grade ∈ [Instr.decodePlane 0#2, .decodePlane 1#2, .decodePlane 2#2, .decodeFrame, .grade] ∧
    (dims .clamp 0 5).seq = .idle ∧ (dims .clamp 0 5).width = 0 ∧ (dims .clamp 5 0).height = 0 ∧
    (dims .clamp 17 1).params.maxPixels + 1 = (dims .clamp 17 1).width.toNat * (dims .clamp 17 1).height.toNat ∧
    (dims .clamp 0x10000#32 0x10000#32).params.maxPixels <
      (dims .clamp 0x10000#32 0x10000#32).width.toNat * (dims .clamp 0x10000#32 0x10000#32).height.toNat := by decide
theorem witness_BadMarkerRaisesFormat :
    let u := decoding .clamp .marker [0x0A#8]
    u.BlockTurn u ∧ u.seq = .marker ∧ u.ififo = [0x0A#8] ∧ 0x0A#8 ≠ 0x4B#8 ∧ 0x0A#8 ≠ 0x45#8 := by decide
theorem witness_EndOfStreamRaisesTruncated :
    let u := { decoding .clamp .repv [] with eos := true, runLeft := 2 }
    u.BlockTurn u ∧ u.seq ∈ [Seq.marker, .hdr, .lit, .repv] ∧ u.ififo = [] ∧ u.eos = true := by decide
/-- On 2 pixels: LIT 2 and REP 3 at and past the samples needed, under both policies. -/
theorem witness_PacketsBeginTheirRun :
    (let s := decoding .fault .hdr []
     s.cnt.toNat < s.pixels ∧ (1#7).toNat + 1 ≤ s.pixels - s.cnt.toNat ∧ s.pixels - s.cnt.toNat < (2#7).toNat + 1 ∧
       s.pixels - s.cnt.toNat < 130 - (127#7).toNat ∧ s.params.overshoot = .fault) ∧
    (let s := { dims .clamp 3 1 with seq := .hdr }
     s.cnt.toNat < s.pixels ∧ 130 - (127#7).toNat ≤ s.pixels - s.cnt.toNat ∧ s.params.overshoot = .clamp) := by decide
/-- The hold, the end of the stream, a count that fits, and one that does not. -/
theorem witness_LengthByteStep :
    (let u := decoding .clamp .hdr []
     u.BlockTurn u ∧ u.seq = .hdr ∧ u.cnt.toNat < u.pixels ∧ u.ififo = [] ∧ u.eos = false) ∧
    (let u := { decoding .clamp .hdr [] with eos := true, cnt := 1 }
     u.BlockTurn u ∧ u.seq = .hdr ∧ u.cnt.toNat < u.pixels ∧ u.ififo = [] ∧ u.eos = true) ∧
    (let u := decoding .fault .hdr [0x01#8]
     u.BlockTurn u ∧ u.seq = .hdr ∧ u.cnt.toNat < u.pixels ∧ u.ififo = [0x01#8] ∧
       (0x01#8).toNat + 1 ≤ u.pixels - u.cnt.toNat) ∧
    (let u := decoding .fault .hdr [0xFF#8]
     u.BlockTurn u ∧ u.seq = .hdr ∧ u.cnt.toNat < u.pixels ∧ u.ififo = [0xFF#8] ∧
       u.pixels - u.cnt.toNat < 130 - ((0xFF#8).toNat - 128) ∧ u.params.overshoot = .fault) ∧
    (let u := decoding .clamp .hdr [0x80#8]
     u.BlockTurn u ∧ u.seq = .hdr ∧ u.cnt.toNat < u.pixels ∧ u.ififo = [0x80#8] ∧ u.params.overshoot = .clamp) := by
  decide
theorem witness_LiteralStepCopiesOneByte :
    let u := { decoding .clamp .lit [0x45#8] with runLeft := 1, cnt := 1 }
    u.BlockTurn u ∧ u.seq = .lit ∧ u.ififo = [0x45#8] ∧ u.cnt.toNat < u.params.maxPixels := by decide
theorem witness_RepeatStepsFillTheRun :
    (let u := { decoding .clamp .repv [0x07#8] with runLeft := 2 }
     u.BlockTurn u ∧ u.seq = .repv ∧ u.ififo = [0x07#8]) ∧
    (let u := { decoding .clamp .fill [] with runLeft := 2, runVal := 7 }
     u.BlockTurn u ∧ u.seq = .fill ∧ u.cnt.toNat < u.params.maxPixels) := by decide
/-- CNT = N - 1 and CNT = N, in both modes and on each plane. -/
theorem witness_PlaneEndCases :
    (let s := { decoding .clamp .lit [] with cnt := 1 }; s.cnt.toNat < s.pixels) ∧
    (let s := { decoding .clamp .lit [] with cnt := 2, mode := .frame }
     s.pixels ≤ s.cnt.toNat ∧ s.mode = .frame ∧ s.curPlane = .red ∧
     { s with curPlane := .green }.curPlane = .green ∧ { s with curPlane := .blue }.curPlane = .blue) ∧
    (let s := { decoding .clamp .fill [] with cnt := 2 }; s.pixels ≤ s.cnt.toNat ∧ s.mode = .plane) := by decide
/-- A pixel that is not the last, and the last one. -/
theorem witness_GradeStepGradesOnePixel :
    (let u := decoding .clamp .grade []
     u.BlockTurn u ∧ u.seq = .grade ∧ u.cnt.toNat < u.params.maxPixels ∧ (u.cnt + 1).toNat ≠ u.pixels) ∧
    (let u := { decoding .clamp .grade [] with cnt := 1 }
     u.BlockTurn u ∧ u.seq = .grade ∧ u.cnt.toNat < u.params.maxPixels ∧ (u.cnt + 1).toNat = u.pixels) := by decide
theorem witness_FullBrightnessKeeps255 :
    brightField 0x00323264#32 = 100#8 ∧ contrastField 0x00323264#32 = 50#8 ∧ saturField 0x00323264#32 = 50#8 := by
  decide
theorem witness_ZeroContrastGivesGrey : contrastField 0x00640064#32 = 0#8 := by decide
theorem witness_TonesAreMonotone : (254#8).toNat ≤ (255#8).toNat := by decide

/-- The invariant of a state whose FB has no byte written. -/
theorem inv_of_no_bytes {s : State} (hp : s.params.legal) (hfb : s.fb = [])
    (hd : s.ififo.length ≤ s.params.fifoDepth ∧ gradeStored s.gradeReg = s.gradeReg ∧ s.irqEn.toNat < 4 ∧
      (s.errcode ≠ .none ↔ s.seq = .error) ∧ (s.seq ≠ .idle → s.done = false ∧ s.endFlag = false) ∧
      (s.busy = true → s.dimensionsLegal = true)) (hq : s.seqInv) : s.Inv where
  params := hp
  fbWf := by rw [hfb]; rfl
  fbInside := by intro i hi; simp [hfb, Memory.read?] at hi
  fifo := hd.1
  grade := hd.2.1
  irqEn := hd.2.2.1
  errcode := hd.2.2.2.1
  flags := hd.2.2.2.2.1
  dimensions := hd.2.2.2.2.2
  sequencer := hq

/-- The invariant in STATE HDR, from facts that evaluate. -/
theorem inv_of_hdr {s : State} (h : s.params.legal ∧ s.fb = [] ∧ s.seq = .hdr ∧ s.cnt.toNat < s.pixels ∧
    s.ififo.length ≤ s.params.fifoDepth ∧ gradeStored s.gradeReg = s.gradeReg ∧ s.irqEn.toNat < 4 ∧
      (s.errcode ≠ .none ↔ s.seq = .error) ∧ (s.seq ≠ .idle → s.done = false ∧ s.endFlag = false) ∧
      (s.busy = true → s.dimensionsLegal = true)) : s.Inv :=
  inv_of_no_bytes h.1 h.2.1 h.2.2.2.2 (by rw [State.seqInv, h.2.2.1]; exact h.2.2.2.1)

/-- A host that polls STATUS, writes a window word and pushes a byte, between block turns. -/
def busyHost : List Turn :=
  [.host (.read 0x04#32), .block, .host (.write 0x40000000#32 9#32), .host (.write 0x18#32 0x07#32), .block]

/-- Of its first five turns two are the block's, and after it every turn is. -/
theorem test_blockTurns : blockTurns 5 busyHost = 2 ∧ blockTurns 9 busyHost = 6 := by decide

theorem witness_GradeCommandGradesTheFrame :
    (let s := { decoding .clamp .grade [] with sched := busyHost }
     s.Inv ∧ s.seq = .grade ∧ s.cnt = 0 ∧ s.noSreset) ∧
    (let s := decoding .clamp .grade []
     s.Inv ∧ s.seq = .grade ∧ s.cnt = 0 ∧ s.noSreset ∧ s.sched = []) := by
  refine ⟨⟨inv_of_no_bytes (by decide) rfl (by decide) ?_, by decide⟩,
    ⟨inv_of_no_bytes (by decide) rfl (by decide) ?_, by decide⟩⟩ <;>
  · show 0 < 2 * 1; decide
/-- A plane that decodes, one whose value byte is missing, and one that overshoots under FAULT. -/
theorem witness_PlaneStepsComputeDecodePlane :
    (let s : State := { decoding .clamp .hdr [0xFF#8, 0x07#8] with eos := true, sched := busyHost }
     s.Inv ∧ s.seq = .hdr ∧ s.mode = .plane ∧ s.cnt = 0 ∧ s.eos = true ∧ s.noSreset ∧
     decodePlane s.params.overshoot s.pixels s.ififo = .ok [0x07#8, 0x07#8] []) ∧
    (let s : State := { decoding .clamp .hdr [0x00#8, 0x05#8, 0xFF#8] with eos := true }
     s.Inv ∧ s.seq = .hdr ∧ s.mode = .plane ∧ s.cnt = 0 ∧ s.eos = true ∧ s.noSreset ∧
     decodePlane s.params.overshoot s.pixels s.ififo = .err .truncated 0 [0x05#8] []) ∧
    (let s : State := { decoding .fault .hdr [0xFF#8, 0x07#8] with eos := true }
     s.Inv ∧ s.seq = .hdr ∧ s.mode = .plane ∧ s.cnt = 0 ∧ s.eos = true ∧ s.noSreset ∧
     decodePlane s.params.overshoot s.pixels s.ififo = .err .overshoot 0xFF#8 [] [0x07#8]) :=
  ⟨⟨inv_of_hdr (by decide), by decide⟩, ⟨inv_of_hdr (by decide), by decide⟩, ⟨inv_of_hdr (by decide), by decide⟩⟩

/-- A DECODE_FRAME on 2 x 1 pixels that waits for its marker, with this input, EOS and a busy host. -/
def waitingForMarker (bytes : List Byte) : State :=
  { State.resetWith { maxPixels := 16, fifoDepth := 8, overshoot := .clamp } with
    width := 2, height := 1, seq := .marker, mode := .frame, ififo := bytes, eos := true, sched := busyHost }

theorem inv_of_waitingForMarker {bytes : List Byte} (h : bytes.length ≤ 8) : (waitingForMarker bytes).Inv :=
  inv_of_no_bytes (s := waitingForMarker bytes)
    (by show Params.legal { maxPixels := 16, fifoDepth := 8, overshoot := .clamp }; decide) rfl
    ⟨h, by show gradeStored 0x00323232#32 = 0x00323232#32; decide, by show (0#32).toNat < 4; decide,
      by simp [waitingForMarker, State.resetWith], by simp [waitingForMarker, State.resetWith], fun _ => by
        show State.dimensionsLegal { State.resetWith { maxPixels := 16, fifoDepth := 8, overshoot := .clamp } with
          width := 2, height := 1 } = true
        decide⟩ ⟨rfl, rfl, rfl⟩
/-- Each way a frame can end: three planes (S9), END, FORMAT, and TRUNCATED in the green plane. -/
theorem witness_FrameStepsComputeDecodeFrame :
    ∀ p ∈ [([0x4B#8, 0xFF#8, 0xFF#8, 0xFF#8, 0x00#8, 0xFF#8, 0x00#8],
          FrameResult.ok [0xFF#8, 0xFF#8] [0x00#8, 0x00#8] [0x00#8, 0x00#8] []),
        ([0x45#8, 0x01#8], .endOfFrames [0x01#8]), ([0x0A#8], .err .format 0x0A#8 .red [] []),
        ([0x4B#8, 0xFF#8, 0xFF#8, 0x01#8, 0x05#8], .err .truncated 0 .green [0x05#8] [])],
      (waitingForMarker p.1).Inv ∧ (waitingForMarker p.1).seq = .marker ∧ (waitingForMarker p.1).eos = true ∧
      (waitingForMarker p.1).noSreset ∧ decodeFrame .clamp 2 p.1 = p.2 := by
  simp only [List.forall_mem_cons]
  exact ⟨⟨inv_of_waitingForMarker (by decide), by decide⟩, ⟨inv_of_waitingForMarker (by decide), by decide⟩,
    ⟨inv_of_waitingForMarker (by decide), by decide⟩, ⟨inv_of_waitingForMarker (by decide), by decide⟩,
    fun _ h => nomatch h⟩

/-- The host pushes the payload while the block decodes: the block holds once between the two bytes. -/
def pushing : State :=
  { decoding .clamp .hdr [0x01#8] with
    sched := [.block, .host (.write 0x18#32 0x05#32), .block, .block, .host (.read 0x04#32),
      .host (.write 0x18#32 0x06#32), .block, .block] }
/-- The plane ends at the seventh step; and a frame whose `'E'` is pushed ends at the second. -/
theorem witness_DecodeTakesPushedBytes :
    (pushing.Inv ∧ pushing.noSreset ∧ (runBusy 7 pushing).map State.busy = some false ∧ pushing.seq = .hdr ∧
      pushing.mode = .plane ∧ pushing.cnt = 0 ∧ pushedIn 7 pushing = [0x05#8, 0x06#8]) ∧
    (let s := { waitingForMarker [] with eos := false, sched := [.host (.write 0x18#32 0x45#32), .block] }
     s.Inv ∧ s.noSreset ∧ (runBusy 2 s).map State.busy = some false ∧ s.seq = .marker ∧
     pushedIn 2 s = [0x45#8]) :=
  ⟨⟨inv_of_hdr (by decide), by decide⟩,
    ⟨inv_of_no_bytes (by decide) rfl (by decide) ⟨rfl, rfl, rfl⟩, by decide⟩⟩
/-- V-L1's shape with a pushing host: the samples 05 06 arrive one by one, and both are consumed. -/
theorem test_pushed_payload :
    (runBusy 7 pushing).map (fun t => (t.statusWord, t.cnt, t.inCount, t.ififo)) =
      some (0x00000002#32, 2#32, 3#32, []) ∧
    (runBusy 7 pushing).map State.fb = some [(0, 0x05#8), (3, 0x06#8)] := by decide

theorem witness_ConformingPlaneRoundTrip :
    let s := { decoding .clamp .hdr [0x01#8, 0x05#8, 0x06#8, 0x99#8] with sched := busyHost }
    s.Inv ∧ s.seq = .hdr ∧ s.mode = .plane ∧ s.cnt = 0 ∧ s.noSreset ∧
    (∀ p ∈ [Packet.literal [0x05#8, 0x06#8]], p.wellFormed = true) ∧
    (planeSamples [Packet.literal [0x05#8, 0x06#8]]).length = s.pixels ∧
    s.ififo = planeBytes [Packet.literal [0x05#8, 0x06#8]] ++ [0x99#8] :=
  ⟨inv_of_hdr (by decide), by decide⟩
theorem witness_EveryCommandEnds :
    let s : State := { decoding .fault .hdr [] with eos := true, sched := busyHost }
    s.Inv ∧ s.busy = true ∧ s.eos = true ∧ s.noSreset := ⟨inv_of_hdr (by decide), by decide⟩
/-- The largest and the smallest legal parameters. -/
theorem witness_ResetMeetsInvariant :
    Params.legal { maxPixels := 357913941, fifoDepth := 1, overshoot := .fault } ∧
    Params.legal { maxPixels := 1, fifoDepth := 1, overshoot := .clamp } := by decide
theorem witness_StepKeepsInvariant :
    let s := decoding .clamp .hdr [0x00#8]
    s.Inv ∧ step s = .next { s with ififo := [], inCount := 1, runLeft := 1, seq := .lit } :=
  ⟨inv_of_hdr (by decide), rfl⟩
theorem witness_StepNeverStops : State.Inv (decoding .clamp .hdr [0x00#8]) :=
  inv_of_hdr (by decide)
theorem witness_OnlySresetLeavesError :
    let s : State := { dims .clamp 2 1 with seq := .error, errcode := .format, errByte := 0x0A }
    s.seq = .error ∧ step s = .next s := ⟨rfl, rfl⟩
theorem witness_BusyKeepsFrameParameters :
    let s := decoding .clamp .hdr [0x00#8]
    s.busy = true ∧ step s = .next { s with ififo := [], inCount := 1, runLeft := 1, seq := .lit } :=
  ⟨by decide, rfl⟩
/-- DONE set by MARK_E with END; each flag cleared by a W1C write; each rejection flag set. -/
theorem witness_StickyFlagsChangeOnlyAsRuled :
    (let s := { decoding .clamp .marker [0x45#8] with mode := .frame }
     s.done = false ∧ s.endFlag = false ∧ after s (fun t => (t.done, t.endFlag)) = some (true, true)) ∧
    (let s := { dims .clamp 2 1 with done := true, endFlag := true, cmdRej := true, wrRej := true, inRej := true }
     after (writing 0x04#32 0xEA#32 s) (fun t => (t.done, t.endFlag, t.cmdRej, t.wrRej, t.inRej)) =
       some (false, false, false, false, false)) ∧
    (let s := decoding .clamp .hdr [1, 2, 3, 4]
     after (writing 0x00#32 0x01#32 s) State.cmdRej = some true ∧
     after (writing 0x08#32 0x09#32 s) State.wrRej = some true ∧
     after (writing 0x18#32 0x09#32 s) State.inRej = some true) := by decide
theorem witness_InputStreamCoherence :
    after (decoding .clamp .hdr [0x00#8, 0x09#8]) (fun t => (t.ififo, t.inCount)) = some ([0x09#8], 1#32) ∧
    after (writing 0x18#32 0x0A#32 (decoding .clamp .hdr [0x00#8])) State.ififo = some [0x00#8, 0x0A#8] := by decide
theorem witness_BlockWritesOnlyTheFrame :
    let s := decoding .clamp .hdr [0x00#8]
    s.Inv ∧ s.BlockTurn s ∧ step s = .next { s with ififo := [], inCount := 1, runLeft := 1, seq := .lit } :=
  ⟨inv_of_hdr (by decide), by decide, rfl⟩

/-- A register of the list, and IN_LEVEL with a full FIFO. -/
theorem witness_RegisterReads :
    (reading 0x04#32 (dims .clamp 2 1)).HostReads 0x04#32 (dims .clamp 2 1) ∧
    (0x04#32, (dims .clamp 2 1).statusWord) ∈ [(0x00#32, 0#32), (0x04#32, (dims .clamp 2 1).statusWord)] ∧
    (let u := decoding .clamp .hdr [1, 2, 3, 4]
     (reading 0x20#32 u).HostReads 0x20#32 u ∧ u.ififo.length < 2 ^ 32) := by decide
theorem witness_StatusWriteClears :
    (writing 0x04#32 0xEA#32 (dims .clamp 2 1)).HostWrites 0x04#32 0xEA#32
      { dims .clamp 2 1 with response := .ok } := by decide
theorem witness_DimensionWrites :
    (writing 0x08#32 9#32 (dims .clamp 2 1)).HostWrites 0x08#32 9#32 { dims .clamp 2 1 with response := .ok } ∧
    (writing 0x0C#32 9#32 (dims .clamp 2 1)).HostWrites 0x0C#32 9#32 { dims .clamp 2 1 with response := .ok } := by
  decide
/-- Fields of 100, the largest legal value, and of 101; idle and busy. -/
theorem witness_GradeRegisterWrite :
    (let u := { dims .clamp 2 1 with response := .ok }
     (writing 0x10#32 0xFF646464#32 (dims .clamp 2 1)).HostWrites 0x10#32 0xFF646464#32 u ∧ u.seq = .idle ∧
     (0xFF646464#32).toNat % 256 = 100 ∧ (0xFF646464#32).toNat / 256 % 256 = 100 ∧
     (0xFF646464#32).toNat / 65536 % 256 = 100) ∧
    (writing 0x10#32 0x00656432#32 (dims .clamp 2 1)).HostWrites 0x10#32 0x00656432#32
      { dims .clamp 2 1 with response := .ok } ∧ ¬ (0x00656432#32).toNat / 65536 % 256 ≤ 100 ∧
    (let u := { decoding .clamp .hdr [] with response := .ok }
     (writing 0x10#32 0#32 (decoding .clamp .hdr [])).HostWrites 0x10#32 0#32 u ∧ u.seq ≠ .idle ∧ u.seq ≠ .error) := by
  decide
theorem witness_InterruptEnableAndEosWrites :
    (writing 0x14#32 0xFFFFFFFF#32 (dims .clamp 2 1)).HostWrites 0x14#32 0xFFFFFFFF#32
      { dims .clamp 2 1 with response := .ok } ∧
    (writing 0x1C#32 1#32 (dims .clamp 2 1)).HostWrites 0x1C#32 1#32 { dims .clamp 2 1 with response := .ok } := by
  decide
/-- Room for one more byte, no room, and EOS. -/
theorem witness_InputPush :
    (let u := { dims .clamp 2 1 with ififo := [1, 2, 3], response := .ok }
     (writing 0x18#32 9#32 { dims .clamp 2 1 with ififo := [1, 2, 3] }).HostWrites 0x18#32 9#32 u ∧ u.eos = false ∧
     u.ififo.length < u.params.fifoDepth) ∧
    (let u := { dims .clamp 2 1 with ififo := [1, 2, 3, 4], response := .ok }
     (writing 0x18#32 9#32 { dims .clamp 2 1 with ififo := [1, 2, 3, 4] }).HostWrites 0x18#32 9#32 u ∧
     u.params.fifoDepth ≤ u.ififo.length) ∧
    (let u := { dims .clamp 2 1 with eos := true, response := .ok }
     (writing 0x18#32 9#32 { dims .clamp 2 1 with eos := true }).HostWrites 0x18#32 9#32 u ∧ u.eos = true) := by decide
/-- A register, the window's first and last word (12 words for 16 pixels), and CMD. -/
theorem witness_BusyWritesRefused :
    let s := decoding .clamp .hdr []
    let u := { s with response := .ok }
    u.params.legal ∧ u.busy = true ∧ (writing 0x10#32 0#32 s).HostWrites 0x10#32 0#32 u ∧
    0x10#32 ∈ [0x08#32, 0x0C#32, 0x10#32] ∧ 11 + 1 = u.params.fbWords ∧
    (writing 0x4000002C#32 0#32 s).HostWrites (BitVec.ofNat 32 (0x40000000 + 4 * 11)) 0#32 u ∧
    (writing 0x00#32 2#32 s).HostWrites 0x00#32 2#32 u := by decide
/-- 1 pixel has 3 bytes: its only window word has one byte that does not exist. -/
theorem witness_WindowWriteIsLittleEndian :
    let s := State.resetWith { maxPixels := 1, fifoDepth := 1, overshoot := .clamp }
    let u := { s with response := .ok }
    u.params.legal ∧ u.busy = false ∧ 0 + 1 = u.params.fbWords ∧
    (writing 0x40000000#32 5#32 s).HostWrites (BitVec.ofNat 32 (0x40000000 + 4 * 0)) 5#32 u := by decide
theorem witness_WindowReadIsLittleEndian :
    let s := decoding .clamp .grade []
    s.params.legal ∧ 11 < s.params.fbWords ∧ s.busy = true ∧ (dims .clamp 2 1).busy = false ∧
    (reading 0x4000002C#32 s).HostReads (BitVec.ofNat 32 (0x40000000 + 4 * 11)) s ∧
    (reading 0x4000002C#32 (dims .clamp 2 1)).HostReads (BitVec.ofNat 32 (0x40000000 + 4 * 11)) (dims .clamp 2 1) := by
  decide
/-- Offsets on each side of every boundary: misaligned, the first and last of the gap, the first past the window, a
read-only register, a write-only one, and the last register. -/
theorem witness_PortErrorsAndIgnoredWrites :
    let s := dims .clamp 2 1
    let u := { s with response := .ok }
    (0x02#32).toNat % 4 ≠ 0 ∧ 0x34 ≤ (0x34#32).toNat ∧ (0x3FFFFFFC#32).toNat < 0x40000000 ∧
    (0x40000030#32).toNat = 0x40000000 + 4 * s.params.fbWords ∧
    (reading 0x34#32 s).HostReads 0x34#32 s ∧ (writing 0x34#32 1#32 s).HostWrites 0x34#32 1#32 u ∧
    0x20#32 ∈ [0x20#32, 0x24#32, 0x28#32, 0x2C#32, 0x30#32] ∧
    (writing 0x20#32 1#32 s).HostWrites 0x20#32 1#32 u ∧ 0x18#32 ∈ [0x00#32, 0x18#32] ∧
    (reading 0x18#32 s).HostReads 0x18#32 s ∧ (0x30#32).toNat % 4 = 0 ∧ (0x30#32).toNat ≤ 0x30 ∧
    (reading 0x30#32 s).HostReads 0x30#32 s ∧ (writing 0x30#32 1#32 s).HostWrites 0x30#32 1#32 u := by decide

end Sys2Proof.Tests
end

section
/-! PROOF. The family 00_scope.md: where the block waits its turn keeps all state, and from every state that meets the
invariant a step goes on. -/

namespace Sys2Proof.Machine

/-! ### The block's turn -/

/-- The machine's step on a block turn is the block's step on the state without that turn. -/
theorem step_of_blockTurn {s u : State} (h : s.BlockTurn u) : step s = blockStep u := by
  rcases h with ⟨hs, rfl⟩ | ⟨hs, hu⟩
  · simp only [step, hs]
  · rw [hu]; simp only [step, hs]

theorem blockStep_idle {s : State} (hs : s.seq = .idle) : blockStep s = .next s := by
  simp only [blockStep, hs]

theorem blockStep_error {s : State} (hs : s.seq = .error) : blockStep s = .next s := by
  simp only [blockStep, hs]

/-- The block holds while its STATE reads input and there is none yet (00_scope.md R13). -/
theorem blockStep_hold {s : State} (hr : s.seq.readsInput = true) (hq : s.ififo = []) (he : s.eos = false) :
    blockStep s = .next s := by
  simp [blockStep_without_byte hr hq, he]

theorem Seq.readsInput_iff_mem (q : Seq) : q.readsInput = true ↔ q ∈ [Seq.marker, .hdr, .lit, .repv] := by
  cases q <;> decide

/-! ### Steps that cannot stop -/

/-- A sample whose pixel the buffer holds is produced (00_scope.md R14). -/
theorem State.produceSample_goesOn {s : State} (v : Byte) (h : s.cnt.toNat < s.params.maxPixels) :
    ∃ t, s.produceSample v = .next t := by
  have hw : s.writeIndex < s.params.fbBytes := sampleIndex_lt h
  rcases s.produceSample_cases v with ⟨_, ht⟩ | ⟨hge, _⟩
  · exact ⟨_, ht⟩
  · omega

/-- The block's step goes on whenever CNT names a pixel of the buffer in the STATEs that access it: LIT, FILL and
GRADE (00_scope.md R14). -/
theorem blockStep_goesOn {s : State}
    (hc : s.seq ∈ [Seq.lit, .fill, .grade] → s.cnt.toNat < s.params.maxPixels) : ∃ t, blockStep s = .next t := by
  rcases Seq.eq_cases s.seq with (hs | hs | hs | hs) | hr
  · exact ⟨s, blockStep_idle hs⟩
  · exact ⟨s, blockStep_error hs⟩
  · rw [blockStep_fill hs]
    exact State.produceSample_goesOn _ (hc (by simp [hs]))
  · rw [blockStep_grade hs, if_pos (hc (by simp [hs]))]
    exact ⟨_, rfl⟩
  · cases hq : s.ififo with
    | nil => exact ⟨_, blockStep_without_byte ((Seq.readsInput_iff_mem _).2 (by simpa using hr)) hq⟩
    | cons b q =>
      rcases hr with hs | hs | hs | hs
      · exact ⟨_, blockStep_marker hs hq⟩
      · exact ⟨_, blockStep_hdr hs hq⟩
      · rw [blockStep_lit hs hq]
        exact State.produceSample_goesOn b (hc (by simp [hs]))
      · exact ⟨_, blockStep_repv hs hq⟩

/-- Every command word has an outcome: a reset, an acceptance or an illegal command. -/
theorem commandWrite_goesOn (w : Word) (s : State) : ∃ t, commandWrite w s = .next t := by
  rcases commandWrite_eq w s with ⟨_, h⟩ | ⟨_, _, _, h⟩ | ⟨_, h⟩ <;> exact ⟨_, h⟩

theorem writeReg_goesOn (r : Reg) (w : Word) (s : State) : ∃ t, writeReg r w s = .next t := by
  cases r
  case cmd => exact commandWrite_goesOn w s
  all_goals exact ⟨_, rfl⟩

/-- Every host access completes, in every state (42_commands.md R181). -/
theorem hostStep_goesOn (op : HostOp) (s : State) : ∃ t, hostStep op s = .next t := by
  cases op with
  | read a => exact ⟨_, rfl⟩
  | write a w =>
    rw [hostStep, hostWrite]
    split
    next => exact ⟨_, rfl⟩
    next r _ => exact writeReg_goesOn r w _
    next => exact ⟨_, rfl⟩

/-! ### What the invariant says of CNT -/

/-- The invariant does not look at the schedule. -/
theorem State.Inv.withSched {s : State} (h : s.Inv) (turns : List Turn) : ({ s with sched := turns } : State).Inv where
  params := h.params
  fbWf := h.fbWf
  fbInside := h.fbInside
  fifo := h.fifo
  grade := h.grade
  irqEn := h.irqEn
  errcode := h.errcode
  flags := h.flags
  dimensions := h.dimensions
  sequencer := h.sequencer

/-- A command in progress has N ≤ MAX_PIXELS (42_commands.md R172). -/
theorem State.Inv.pixels_le_maxPixels {s : State} (h : s.Inv) (hb : s.busy = true) :
    s.pixels ≤ s.params.maxPixels := by
  have hd := h.dimensions hb
  simp only [State.dimensionsLegal, Bool.and_eq_true, decide_eq_true_eq] at hd
  exact hd.2

/-- In the STATEs that access the frame buffer CNT names one of the N pixels: GRADE says so, and in LIT and FILL at
least one sample of the run is left. -/
theorem State.Inv.cnt_lt_pixels {s : State} (h : s.Inv) (hs : s.seq ∈ [Seq.lit, .fill, .grade]) :
    s.cnt.toNat < s.pixels := by
  have hq := h.sequencer
  simp only [List.mem_cons, List.not_mem_nil, or_false] at hs
  rcases hs with hs | hs | hs <;> simp only [State.seqInv, hs] at hq <;> omega

theorem State.Inv.cnt_lt_maxPixels {s : State} (h : s.Inv) (hs : s.seq ∈ [Seq.lit, .fill, .grade]) :
    s.cnt.toNat < s.params.maxPixels := by
  have hb : s.busy = true := by
    by_contra hn
    rcases (State.busy_eq_false_iff s).1 (by simpa using hn) with hi | hi <;> simp [hi] at hs
  exact Nat.lt_of_lt_of_le (h.cnt_lt_pixels hs) (h.pixels_le_maxPixels hb)

/-! ### The obligations -/

/-- Settles O42: a block turn goes on because the invariant keeps CNT inside the frame buffer, and a host turn goes on
in every state. -/
theorem stepNeverStops : Obligations.StepNeverStops := by
  intro s h
  rcases step_cases s with ⟨_, hst⟩ | ⟨rest, _, hst⟩ | ⟨op, rest, _, hst⟩ <;> rw [hst]
  · exact blockStep_goesOn h.cnt_lt_maxPixels
  · exact blockStep_goesOn (h.withSched rest).cnt_lt_maxPixels
  · exact hostStep_goesOn op _

/-- Settles O11, one lemma about the block's step for each way to wait. -/
theorem waitingKeepsAllState : Obligations.WaitingKeepsAllState := by
  intro s u hu hw
  rw [step_of_blockTurn hu]
  rcases hw with hs | hs | ⟨hs, hq, he⟩
  · exact blockStep_idle hs
  · exact blockStep_error hs
  · exact blockStep_hold ((Seq.readsInput_iff_mem _).2 hs) hq he

end Sys2Proof.Machine
end

section
/-! PROOF. The family 10_state.md: what each turn keeps of the registers, what moves the sticky flags, which bytes of FB
a block turn writes, and that every step keeps the invariant. -/

namespace Sys2Proof.Machine

/-! ### What a step can do -/

/-- A step that goes on is the block's turn or a host access. -/
theorem step_turn {s t : State} (h : step s = .next t) :
    (∃ rest, blockStep { s with sched := rest } = .next t) ∨
    (∃ op rest, s.sched = .host op :: rest ∧ hostStep op { s with sched := rest } = .next t) := by
  rcases step_cases s with ⟨_, hst⟩ | ⟨rest, _, hst⟩ | ⟨op, rest, hs, hst⟩ <;> rw [hst] at h
  · exact .inl ⟨s.sched, h⟩
  · exact .inl ⟨rest, h⟩
  · exact .inr ⟨op, rest, hs, h⟩

/-- A block turn starts from s but for the schedule. -/
theorem State.BlockTurn.exists_sched {s u : State} (h : s.BlockTurn u) : ∃ rest, u = { s with sched := rest } := by
  rcases h with ⟨_, rfl⟩ | ⟨_, hu⟩
  · exact ⟨u.sched, rfl⟩
  · exact ⟨_, hu⟩

/-- Everything a command word can do (42_commands.md R171 to R174): SRESET, a rejection outside IDLE, an error from
IDLE, or the start of a command. -/
theorem commandWrite_outcomes {w : Word} {s t : State} (h : commandWrite w s = .next t) :
    (w = 0x0000000F#32 ∧ t = s.softReset) ∨
    (s.seq ≠ .idle ∧ t = s.rejectCommand) ∨
    (s.seq = .idle ∧ ∃ c b, c ≠ .none ∧ t = s.clearCompletion.raise c b) ∨
    (s.seq = .idle ∧ s.dimensionsLegal = true ∧
      ((∃ c, t = s.clearCompletion.startPlane c) ∨ t = s.clearCompletion.startFrame ∨
        t = s.clearCompletion.startGrade)) := by
  rcases commandWrite_eq w s with ⟨hw, ht⟩ | ⟨_, start, hstart, ht⟩ | ⟨_, ht⟩ <;> rw [ht] at h <;>
    obtain rfl := Host.Outcome.next.inj h
  · exact .inl ⟨hw, rfl⟩
  · rcases s.acceptCommand_cases start with ⟨hi, hd, ha⟩ | ⟨hi, _, ha⟩ | ⟨hi, ha⟩ <;> rw [ha]
    · simp only [List.mem_cons, List.not_mem_nil, or_false] at hstart
      refine .inr (.inr (.inr ⟨hi, hd, ?_⟩))
      rcases hstart with rfl | rfl | rfl | rfl | rfl
      · exact .inl ⟨.red, rfl⟩
      · exact .inl ⟨.green, rfl⟩
      · exact .inl ⟨.blue, rfl⟩
      · exact .inr (.inl rfl)
      · exact .inr (.inr rfl)
    · exact .inr (.inr (.inl ⟨hi, .dimension, _, by decide, rfl⟩))
    · exact .inr (.inl ⟨hi, rfl⟩)
  · rcases s.illegalCommand_cases (w.extractLsb' 0 8) with ⟨hi, ha⟩ | ⟨hi, ha⟩ <;> rw [ha]
    · exact .inr (.inr (.inl ⟨hi, .illegalCmd, _, by decide, rfl⟩))
    · exact .inr (.inl ⟨hi, rfl⟩)

/-! ### The parameters -/

theorem commandWrite_params {w : Word} {s t : State} (h : commandWrite w s = .next t) : t.params = s.params := by
  rcases commandWrite_outcomes h with ⟨_, rfl⟩ | ⟨_, rfl⟩ | ⟨_, _, _, _, rfl⟩ | ⟨_, _, ⟨_, rfl⟩ | rfl | rfl⟩ <;> rfl

theorem State.unlessBusy_params {write : State → State} {s : State} (h : (write s).params = s.params) :
    (s.unlessBusy write).params = s.params := by
  rcases s.unlessBusy_cases write with ⟨_, hc⟩ | ⟨_, hc⟩ <;> rw [hc]
  exact h

theorem State.pushInput_params (b : Byte) (s : State) : (s.pushInput b).params = s.params := by
  rcases s.pushInput_cases b with ⟨_, _, hc⟩ | ⟨_, hc⟩ <;> rw [hc]

/-- No host access changes the parameters (00_scope.md R6, R7). -/
theorem hostStep_params {op : HostOp} {s t : State} (h : hostStep op s = .next t) : t.params = s.params := by
  cases op with
  | read a =>
    obtain rfl := Host.Outcome.next.inj h
    rcases hostRead_cases a s with ⟨_, h⟩ | ⟨_, h⟩ <;> rw [h]
  | write a w =>
    rcases hostWrite_cases h with rfl | ⟨v, hv, hc⟩
    · rfl
    · have hp : v.params = s.params := by rw [hv]
      rw [← hp]
      rcases hc with ⟨_, hc⟩ | ⟨_, rfl⟩ | ⟨_, rfl⟩ | ⟨_, rfl⟩ | ⟨_, rfl⟩ | ⟨_, rfl⟩ | ⟨_, rfl⟩ | ⟨_, rfl⟩ | rfl |
        ⟨k, _, _, rfl⟩
      · exact commandWrite_params hc
      · rfl
      · exact State.unlessBusy_params rfl
      · exact State.unlessBusy_params rfl
      · exact State.unlessBusy_params rfl
      · rfl
      · exact State.pushInput_params _ v
      · rfl
      · rfl
      · obtain ⟨m, hm⟩ := State.writeWindowWord_frame k w v
        exact State.unlessBusy_params (by rw [hm])

/-! ### The sticky flags -/

/-- What the counters of a sample leave alone, besides what `State.advanceRun_keeps` says. -/
theorem State.advanceRun_rejections (s : State) :
    s.advanceRun.cmdRej = s.cmdRej ∧ s.advanceRun.wrRej = s.wrRej ∧ s.advanceRun.inRej = s.inRej := by
  rcases s.advanceRun_cases with ⟨_, ht⟩ | ⟨_, ht⟩ <;> rw [ht]
  · rcases s.countSample.planeEnd_cases with ⟨_, h⟩ | ⟨_, _, h⟩ | ⟨_, _, _, _, h⟩ | ⟨_, _, _, h⟩ <;> rw [h] <;>
      exact ⟨rfl, rfl, rfl⟩
  · exact ⟨rfl, rfl, rfl⟩

/-- The counters of a pixel: the command ends with the last one (41_color_grader.md R149, R150). -/
theorem State.advanceGrade_cases (s : State) :
    ((s.cnt + 1).toNat = s.pixels ∧ s.advanceGrade = ({ s with cnt := s.cnt + 1 } : State).complete) ∨
    ((s.cnt + 1).toNat ≠ s.pixels ∧ s.advanceGrade = { s with cnt := s.cnt + 1 }) := by
  by_cases h : (s.cnt + 1).toNat = s.pixels
  · exact .inl ⟨h, if_pos h⟩
  · exact .inr ⟨h, if_neg h⟩

/-- What the counters of a pixel leave alone; DONE can only rise, with STATE becoming IDLE. -/
theorem State.advanceGrade_keeps (s : State) :
    s.advanceGrade.fb = s.fb ∧ s.advanceGrade.endFlag = s.endFlag ∧
    (s.advanceGrade.cmdRej = s.cmdRej ∧ s.advanceGrade.wrRej = s.wrRej ∧ s.advanceGrade.inRej = s.inRej) ∧
    (s.advanceGrade.done = s.done ∨ (s.advanceGrade.done = true ∧ s.advanceGrade.seq = .idle)) := by
  rcases s.advanceGrade_cases with ⟨_, h⟩ | ⟨_, h⟩ <;> rw [h]
  · exact ⟨rfl, rfl, ⟨rfl, rfl, rfl⟩, .inr ⟨rfl, rfl⟩⟩
  · exact ⟨rfl, rfl, ⟨rfl, rfl, rfl⟩, .inl rfl⟩

theorem State.busy_of_seq {s : State} {q : Seq} (hs : s.seq = q) (hi : q ≠ .idle) (he : q ≠ .error) :
    s.busy = true := by
  simp [State.busy, hs, hi, he]

/-- A block turn raises no rejection flag, sets DONE only where a busy block ends in IDLE, sets END only at a marker,
with DONE, and clears nothing (10_state.md R47). -/
theorem blockStep_flags {s t : State} (h : blockStep s = .next t) :
    (t.cmdRej = s.cmdRej ∧ t.wrRej = s.wrRej ∧ t.inRej = s.inRej) ∧
    (t.done = s.done ∨ s.busy = true ∧ t.done = true ∧ t.seq = .idle) ∧
    (t.endFlag = s.endFlag ∨ s.seq = .marker ∧ t.endFlag = true ∧ t.done = true) := by
  rcases blockStep_cases h with ⟨_, rfl⟩ | ⟨_, _, _, rfl⟩ | ⟨q, _, _, rfl⟩ | ⟨q, hs, _, rfl⟩ |
    ⟨b, q, _, _, _, _, rfl⟩ | ⟨b, q, _, _, rfl⟩ | ⟨b, q, hs, _, _, rfl⟩ | ⟨b, q, _, _, rfl⟩ | ⟨hs, _, rfl⟩ |
    ⟨hs, _, rfl⟩
  · exact ⟨⟨rfl, rfl, rfl⟩, .inl rfl, .inl rfl⟩
  · exact ⟨⟨rfl, rfl, rfl⟩, .inl rfl, .inl rfl⟩
  · exact ⟨⟨rfl, rfl, rfl⟩, .inl rfl, .inl rfl⟩
  · exact ⟨⟨rfl, rfl, rfl⟩, .inr ⟨State.busy_of_seq hs nofun nofun, rfl, rfl⟩, .inr ⟨hs, rfl, rfl⟩⟩
  · exact ⟨⟨rfl, rfl, rfl⟩, .inl rfl, .inl rfl⟩
  · rcases State.startRun_cases (if b.getLsbD 7 then .repv else .lit) (declaredCount b) b (s.consumed q)
      with ⟨_, _, h⟩ | ⟨_, h⟩ <;> rw [h] <;> exact ⟨⟨rfl, rfl, rfl⟩, .inl rfl, .inl rfl⟩
  · obtain ⟨_, _, _, _, _, _, _, _, _, he, hd⟩ :=
      State.advanceRun_keeps { s.consumed q with fb := Memory.write s.fb s.writeIndex b }
    exact ⟨State.advanceRun_rejections _, hd.imp id fun hd => ⟨State.busy_of_seq hs nofun nofun, hd⟩, .inl he⟩
  · exact ⟨⟨rfl, rfl, rfl⟩, .inl rfl, .inl rfl⟩
  · obtain ⟨_, _, _, _, _, _, _, _, _, he, hd⟩ :=
      State.advanceRun_keeps { s with fb := Memory.write s.fb s.writeIndex s.runVal }
    exact ⟨State.advanceRun_rejections _, hd.imp id fun hd => ⟨State.busy_of_seq hs nofun nofun, hd⟩, .inl he⟩
  · obtain ⟨_, he, hr, hd⟩ := State.advanceGrade_keeps
      { s with fb := Memory.writePixel s.fb s.cnt.toNat (gradePixel s.gradeReg (s.pixelAt s.cnt.toNat)) }
    exact ⟨hr, hd.imp id fun hd => ⟨State.busy_of_seq hs nofun nofun, hd⟩, .inl he⟩

/-- The five sticky flags of t are those of s (10_state.md R47). -/
def State.SameFlags (s t : State) : Prop :=
  t.done = s.done ∧ t.endFlag = s.endFlag ∧ t.cmdRej = s.cmdRej ∧ t.wrRej = s.wrRej ∧ t.inRej = s.inRej

theorem hostRead_flags (a : Word) (s : State) : s.SameFlags (hostRead a s) := by
  rcases hostRead_cases a s with ⟨_, h⟩ | ⟨_, h⟩ <;> rw [h] <;> exact ⟨rfl, rfl, rfl, rfl, rfl⟩

/-- What a host write of w to a can do to the sticky flags, from s to t (10_state.md R47). -/
inductive HostWriteFlags (a w : Word) (s t : State) : Prop where
  | sreset (ha : a = 0x00#32) (hw : w = 0x0000000F#32) (h : s.softReset.SameFlags t)
  | statusWrite (ha : a = 0x04#32) (h : (s.clearFlags w).SameFlags t)
  | commandTaken (ha : a = 0x00#32) (hs : s.seq = .idle) (h : s.clearCompletion.SameFlags t)
  | commandRejected (ha : a = 0x00#32) (hs : s.seq ≠ .idle) (h : s.rejectCommand.SameFlags t)
  | pushDropped (ha : a = 0x18#32) (h : ({ s with inRej := true } : State).SameFlags t)
  | writeRefused (hb : s.busy = true) (h : ({ s with wrRej := true } : State).SameFlags t)
  | unmoved (h : s.SameFlags t)

/-- A write that may be refused, and moves no flag if it is not, can only raise WR_REJ (20_memory.md R58). -/
theorem HostWriteFlags.of_unlessBusy {a w : Word} {s : State} {write : State → State}
    (h : s.SameFlags (write { s with response := .ok })) :
    HostWriteFlags a w s (({ s with response := .ok } : State).unlessBusy write) := by
  rcases State.unlessBusy_cases write { s with response := .ok } with ⟨hb, hc⟩ | ⟨_, hc⟩ <;> rw [hc]
  · exact .writeRefused hb ⟨rfl, rfl, rfl, rfl, rfl⟩
  · exact .unmoved h

/-- SRESET, a write of STATUS and a command from IDLE clear flags; a command outside IDLE, a refused write and a dropped
push each raise one (10_state.md R47). -/
theorem hostWrite_flags {a w : Word} {s t : State} (h : hostWrite a w s = .next t) : HostWriteFlags a w s t := by
  rcases hostWrite_cases h with rfl | ⟨v, rfl, hc⟩
  · exact .unmoved ⟨rfl, rfl, rfl, rfl, rfl⟩
  · rcases hc with ⟨ha, hc⟩ | ⟨ha, rfl⟩ | ⟨_, rfl⟩ | ⟨_, rfl⟩ | ⟨_, rfl⟩ | ⟨_, rfl⟩ | ⟨ha, rfl⟩ | ⟨_, rfl⟩ | rfl |
      ⟨k, _, _, rfl⟩
    · rcases commandWrite_outcomes hc with ⟨hw, rfl⟩ | ⟨hi, rfl⟩ | ⟨hi, _, _, _, rfl⟩ | ⟨hi, _, hs⟩
      · exact .sreset ha hw ⟨rfl, rfl, rfl, rfl, rfl⟩
      · exact .commandRejected ha hi ⟨rfl, rfl, rfl, rfl, rfl⟩
      · exact .commandTaken ha hi ⟨rfl, rfl, rfl, rfl, rfl⟩
      · refine .commandTaken ha hi ?_
        rcases hs with ⟨_, rfl⟩ | rfl | rfl <;> exact ⟨rfl, rfl, rfl, rfl, rfl⟩
    · exact .statusWrite ha ⟨rfl, rfl, rfl, rfl, rfl⟩
    · exact .of_unlessBusy ⟨rfl, rfl, rfl, rfl, rfl⟩
    · exact .of_unlessBusy ⟨rfl, rfl, rfl, rfl, rfl⟩
    · exact .of_unlessBusy ⟨rfl, rfl, rfl, rfl, rfl⟩
    · exact .unmoved ⟨rfl, rfl, rfl, rfl, rfl⟩
    · rcases State.pushInput_cases (w.extractLsb' 0 8) { s with response := .ok } with ⟨_, _, hp⟩ | ⟨_, hp⟩ <;> rw [hp]
      · exact .unmoved ⟨rfl, rfl, rfl, rfl, rfl⟩
      · exact .pushDropped ha ⟨rfl, rfl, rfl, rfl, rfl⟩
    · exact .unmoved ⟨rfl, rfl, rfl, rfl, rfl⟩
    · exact .unmoved ⟨rfl, rfl, rfl, rfl, rfl⟩
    · obtain ⟨m, hm⟩ := State.writeWindowWord_frame k w { s with response := .ok }
      exact .of_unlessBusy (by rw [hm]; exact ⟨rfl, rfl, rfl, rfl, rfl⟩)

/-- A flag that is b before and b' after rises only if `set` and falls only if `clear`. -/
def FlagRule (b b' : Bool) (set clear : Prop) : Prop := (b = false → b' = true → set) ∧ (b = true → b' = false → clear)

section
variable {b b' : Bool} {set clear : Prop}

theorem FlagRule.same (h : b' = b) : FlagRule b b' set clear := by
  subst h; exact ⟨fun h0 h1 => absurd (h0.symm.trans h1) nofun, fun h1 h0 => absurd (h0.symm.trans h1) nofun⟩

theorem FlagRule.raised (h : b' = true) (hs : set) : FlagRule b b' set clear :=
  ⟨fun _ _ => hs, fun _ h0 => absurd (h0.symm.trans h) nofun⟩

theorem FlagRule.cleared (h : b' = false) (hc : clear) : FlagRule b b' set clear :=
  ⟨fun _ h1 => absurd (h.symm.trans h1) nofun, fun _ _ => hc⟩

/-- A W1C write clears the flag if the written bit m is 1 and keeps it otherwise (42_commands.md R175). -/
theorem FlagRule.writeOneToClear {m : Bool} (h : b' = (b && !m)) (hc : m = true → clear) :
    FlagRule b b' set clear := by
  cases m
  · exact .same (by simpa using h)
  · exact .cleared (by simpa using h) (hc rfl)

end

/-- Each sticky flag moves from s to t only as 10_state.md R47 rules. -/
structure State.FlagsRuled (s t : State) : Prop where
  done : FlagRule s.done t.done (s.busy = true ∧ t.seq = .idle) (s.SresetNext ∨
    ∃ a w u, s.HostWrites a w u ∧ ((a = 0x04#32 ∧ w.getLsbD 1 = true) ∨ (a = 0x00#32 ∧ s.seq = .idle)))
  endFlag : FlagRule s.endFlag t.endFlag (s.seq = .marker ∧ t.done = true) (s.SresetNext ∨
    ∃ a w u, s.HostWrites a w u ∧ ((a = 0x04#32 ∧ w.getLsbD 3 = true) ∨ (a = 0x00#32 ∧ s.seq = .idle)))
  cmdRej : FlagRule s.cmdRej t.cmdRej (∃ w u, s.HostWrites 0x00#32 w u ∧ s.seq ≠ .idle)
    (s.SresetNext ∨ ∃ w u, s.HostWrites 0x04#32 w u ∧ w.getLsbD 5 = true)
  wrRej : FlagRule s.wrRej t.wrRej (s.busy = true ∧ ∃ a w u, s.HostWrites a w u)
    (s.SresetNext ∨ ∃ w u, s.HostWrites 0x04#32 w u ∧ w.getLsbD 6 = true)
  inRej : FlagRule s.inRej t.inRej (∃ w u, s.HostWrites 0x18#32 w u)
    (s.SresetNext ∨ ∃ w u, s.HostWrites 0x04#32 w u ∧ w.getLsbD 7 = true)

theorem State.SameFlags.ruled {s t : State} (h : s.SameFlags t) : s.FlagsRuled t := by
  obtain ⟨hd, he, hc, hw, hi⟩ := h
  exact ⟨.same hd, .same he, .same hc, .same hw, .same hi⟩

theorem blockStep_flagsRuled {s t : State} {rest : List Turn} (h : blockStep { s with sched := rest } = .next t) :
    s.FlagsRuled t := by
  obtain ⟨⟨hc, hw, hi⟩, hd, he⟩ := blockStep_flags h
  refine ⟨?_, ?_, .same hc, .same hw, .same hi⟩
  · rcases hd with hd | ⟨hb, ht, hidle⟩
    · exact .same hd
    · exact .raised ht ⟨hb, hidle⟩
  · rcases he with he | ⟨hm, ht, hdone⟩
    · exact .same he
    · exact .raised ht ⟨hm, hdone⟩

theorem hostWrite_flagsRuled {s t : State} {a w : Word} {rest : List Turn} (hs : s.sched = .host (.write a w) :: rest)
    (h : hostWrite a w { s with sched := rest } = .next t) : s.FlagsRuled t := by
  have hu : s.HostWrites a w { s with sched := rest, response := .ok } := ⟨hs, rfl⟩
  cases hostWrite_flags h with
  | sreset ha hword hf =>
    have hr : s.SresetNext := by rw [State.SresetNext, hs, ha, hword]; rfl
    obtain ⟨hd, he, hc, hw, hi⟩ := hf
    exact ⟨.cleared hd (.inl hr), .cleared he (.inl hr), .cleared hc (.inl hr), .cleared hw (.inl hr),
      .cleared hi (.inl hr)⟩
  | statusWrite ha hf =>
    subst ha
    obtain ⟨hd, he, hc, hw, hi⟩ := hf
    exact ⟨.writeOneToClear hd fun hm => .inr ⟨_, _, _, hu, .inl ⟨rfl, hm⟩⟩,
      .writeOneToClear he fun hm => .inr ⟨_, _, _, hu, .inl ⟨rfl, hm⟩⟩,
      .writeOneToClear hc fun hm => .inr ⟨_, _, hu, hm⟩, .writeOneToClear hw fun hm => .inr ⟨_, _, hu, hm⟩,
      .writeOneToClear hi fun hm => .inr ⟨_, _, hu, hm⟩⟩
  | commandTaken ha hidle hf =>
    obtain ⟨hd, he, hc, hw, hi⟩ := hf
    exact ⟨.cleared hd (.inr ⟨_, _, _, hu, .inr ⟨ha, hidle⟩⟩), .cleared he (.inr ⟨_, _, _, hu, .inr ⟨ha, hidle⟩⟩),
      .same hc, .same hw, .same hi⟩
  | commandRejected ha hidle hf =>
    subst ha
    obtain ⟨hd, he, hc, hw, hi⟩ := hf
    exact ⟨.same hd, .same he, .raised hc ⟨_, _, hu, hidle⟩, .same hw, .same hi⟩
  | pushDropped ha hf =>
    subst ha
    obtain ⟨hd, he, hc, hw, hi⟩ := hf
    exact ⟨.same hd, .same he, .same hc, .same hw, .raised hi ⟨_, _, hu⟩⟩
  | writeRefused hb hf =>
    obtain ⟨hd, he, hc, hw, hi⟩ := hf
    exact ⟨.same hd, .same he, .same hc, .raised hw ⟨hb, _, _, _, hu⟩, .same hi⟩
  | unmoved hf => exact State.SameFlags.ruled (s := s) hf

/-! ### The bytes a block turn writes -/

/-- The region of a failed command lies below 3N (60_exceptions.md R203). -/
theorem State.failedRegion_lt {s : State} {j : Nat} (h : j ∈ s.failedRegion) : j < 3 * s.pixels := by
  rw [State.mem_failedRegion] at h
  cases hm : s.mode <;> simp only [hm] at h
  case plane =>
    obtain ⟨i, hi, rfl⟩ := h
    exact sampleIndex_lt (by omega)
  case frame => omega

theorem State.blockError_fbByte_of_ge {s : State} {j : Nat} (c : ErrCode) (b : Byte) (hj : 3 * s.pixels ≤ j) :
    (s.blockError c b).fbByte j = s.fbByte j :=
  s.blockError_fbByte_outside c b fun h => absurd (State.failedRegion_lt h) (by omega)

theorem State.startRun_fbByte_of_ge {s : State} {j : Nat} (q : Seq) (count : Nat) (b : Byte) (hj : 3 * s.pixels ≤ j) :
    (s.startRun q count b).fbByte j = s.fbByte j := by
  rcases s.startRun_cases q count b with ⟨_, _, h⟩ | ⟨_, h⟩ <;> rw [h]
  · exact State.blockError_fbByte_of_ge _ _ hj
  · rfl

/-- A sample's write leaves every byte from 3N on alone (40_plane_decoder.md R115). -/
theorem State.fbByte_writeSample_of_ge {s : State} {j : Nat} (v : Byte) (hc : s.cnt.toNat < s.pixels)
    (hj : 3 * s.pixels ≤ j) : ({ s with fb := Memory.write s.fb s.writeIndex v } : State).fbByte j = s.fbByte j := by
  have hi : s.writeIndex < 3 * s.pixels := sampleIndex_lt hc
  rw [State.fbByte_write, if_neg (by omega)]

theorem Memory.read?_writePixel_of_ge {m : Memory} {i n j : Nat} (p : Pixel) (hi : i < n) (hj : 3 * n ≤ j) :
    Memory.read? (Memory.writePixel m i p) j = Memory.read? m j := by
  have hne : ∀ c, j ≠ sampleIndex c i := fun c => by have := sampleIndex_lt (c := c) hi; omega
  rw [Memory.writePixel, Memory.read?_write_other _ _ (hne _), Memory.read?_write_other _ _ (hne _),
    Memory.read?_write_other _ _ (hne _)]

/-- A block turn writes below 3N alone, where CNT names a pixel in the STATEs that write (40_plane_decoder.md R115). -/
theorem blockStep_fbByte_of_ge {s t : State} {j : Nat} (hc : s.seq ∈ [Seq.lit, .fill, .grade] → s.cnt.toNat < s.pixels)
    (h : blockStep s = .next t) (hj : 3 * s.pixels ≤ j) : t.fbByte j = s.fbByte j := by
  rcases blockStep_cases h with ⟨_, rfl⟩ | ⟨_, _, _, rfl⟩ | ⟨q, _, _, rfl⟩ | ⟨q, _, _, rfl⟩ |
    ⟨b, q, _, _, _, _, rfl⟩ | ⟨b, q, _, _, rfl⟩ | ⟨b, q, hs, _, _, rfl⟩ | ⟨b, q, _, _, rfl⟩ | ⟨hs, _, rfl⟩ |
    ⟨hs, _, rfl⟩
  · rfl
  · exact State.blockError_fbByte_of_ge _ _ hj
  · rfl
  · rfl
  · exact State.blockError_fbByte_of_ge (s := s.consumed q) _ _ hj
  · exact State.startRun_fbByte_of_ge (s := s.consumed q) _ _ _ hj
  · obtain ⟨_, _, _, _, _, _, _, _, hfb, _⟩ :=
      State.advanceRun_keeps { s.consumed q with fb := Memory.write s.fb s.writeIndex b }
    rw [State.fbByte_congr hfb]
    exact State.fbByte_writeSample_of_ge b (hc (by simp [hs])) hj
  · rfl
  · obtain ⟨_, _, _, _, _, _, _, _, hfb, _⟩ :=
      State.advanceRun_keeps { s with fb := Memory.write s.fb s.writeIndex s.runVal }
    rw [State.fbByte_congr hfb]
    exact State.fbByte_writeSample_of_ge _ (hc (by simp [hs])) hj
  · rw [State.fbByte_congr (State.advanceGrade_keeps _).1, State.fbByte,
      Memory.read?_writePixel_of_ge _ (hc (by simp [hs])) hj, State.fbByte]

/-! ### The invariant, operation by operation -/

theorem State.seqInv_of_not_busy {s : State} (h : s.busy = false) : s.seqInv := by
  rcases s.busy_eq_false_iff.1 h with hs | hs <;> simp only [State.seqInv, hs]

section
variable {s : State}

theorem State.seqInv_hdr (hs : s.seq = .hdr) : s.seqInv ↔ s.cnt.toNat < s.pixels := by rw [State.seqInv, hs]

theorem State.seqInv_lit (hs : s.seq = .lit) : s.seqInv ↔
    1 ≤ s.runLeft.toNat ∧ s.runLeft.toNat ≤ 128 ∧ s.cnt.toNat + s.runLeft.toNat ≤ s.pixels := by
  rw [State.seqInv, hs]

/-- REPV and FILL hold a repeat run (40_plane_decoder.md R108). -/
theorem State.seqInv_repeat (hs : s.seq = .repv ∨ s.seq = .fill) : s.seqInv ↔
    1 ≤ s.runLeft.toNat ∧ s.runLeft.toNat ≤ 130 ∧ s.cnt.toNat + s.runLeft.toNat ≤ s.pixels := by
  rcases hs with hs | hs <;> rw [State.seqInv, hs]

theorem State.seqInv_grade (hs : s.seq = .grade) : s.seqInv ↔ s.cnt.toNat < s.pixels := by rw [State.seqInv, hs]

end

/-- A stored GRADE word is stored unchanged: its fields are at most 100 and its reserved bits 0 (10_state.md R37). -/
theorem gradeStored_idem (w : Word) : gradeStored (gradeStored w) = gradeStored w := by
  by_cases hc : (brightField w).toNat ≤ 100 ∧ (contrastField w).toNat ≤ 100 ∧ (saturField w).toNat ≤ 100
  · have hw : gradeStored w = BitVec.ofNat 32 (w.toNat % 16777216) := by
      rw [gradeStored, if_pos hc, gradeFields_append]
    obtain ⟨hb, hk, hs⟩ := gradeFields_toNat w
    obtain ⟨hb', hk', hs'⟩ := gradeFields_toNat (BitVec.ofNat 32 (w.toNat % 16777216))
    have hn : (BitVec.ofNat 32 (w.toNat % 16777216)).toNat = w.toNat % 16777216 := by
      rw [BitVec.toNat_ofNat]; omega
    rw [hn] at hb' hk' hs'
    rw [hw, gradeStored, if_pos (by omega), gradeFields_append, hn, Nat.mod_mod]
  · rw [gradeStored.eq_def w, if_neg hc]; decide

/-- A write of a byte that exists keeps FB canonical and in bounds (10_state.md R31). -/
theorem State.Inv.writeByte {s : State} (h : s.Inv) {i : Nat} (v : Byte) (hi : i < s.params.fbBytes) :
    ({ s with fb := Memory.write s.fb i v } : State).Inv :=
  { h with
    fbWf := Memory.wf_write i v h.fbWf
    fbInside := fun j hj => by
      rw [Memory.read?_write] at hj
      split at hj
      next hji => exact hji ▸ hi
      next => exact h.fbInside j hj }

theorem State.Inv.writePixel {s : State} (h : s.Inv) {i : Nat} (p : Pixel) (hi : i < s.params.maxPixels) :
    ({ s with fb := Memory.writePixel s.fb i p } : State).Inv :=
  ((h.writeByte p.r (sampleIndex_lt hi)).writeByte p.g (sampleIndex_lt hi)).writeByte p.b (sampleIndex_lt hi)

theorem State.Inv.forgetRegion {s : State} (h : s.Inv) : s.forgetRegion.Inv :=
  { h with
    fbWf := Memory.wf_fill _ _ h.fbWf
    fbInside := fun j hj => by
      rw [State.forgetRegion_fb, Memory.read?_fill] at hj
      split at hj
      next hm => exact State.failedRegion_inside hm
      next => exact h.fbInside j hj }

/-- Error entry, from a state whose DONE and END are 0 (60_exceptions.md R202). -/
theorem State.Inv.raise {s : State} (h : s.Inv) {c : ErrCode} (b : Byte) (hc : c ≠ .none)
    (hf : s.done = false ∧ s.endFlag = false) : (s.raise c b).Inv :=
  { h with
    errcode := ⟨fun _ => rfl, fun _ => hc⟩
    flags := fun _ => hf
    dimensions := nofun
    sequencer := trivial }

theorem State.Inv.blockError {s : State} (h : s.Inv) {c : ErrCode} (b : Byte) (hc : c ≠ .none) (hs : s.seq ≠ .idle) :
    (s.blockError c b).Inv :=
  h.forgetRegion.raise b hc (h.flags hs)

theorem State.Inv.consumed {s : State} (h : s.Inv) {b : Byte} {q : List Byte} (hq : s.ififo = b :: q) :
    (s.consumed q).Inv :=
  { h with
    fifo := by
      have := h.fifo
      rw [hq] at this
      exact Nat.le_of_succ_le this }

theorem State.Inv.errcode_none {s : State} (h : s.Inv) (hs : s.seq ≠ .error) : s.errcode = .none :=
  not_not.1 (mt h.errcode.1 hs)

/-- From a state without an error, the sequencer may move to any busy STATE whose registers fit. -/
theorem State.Inv.moveTo {s : State} (h : s.Inv) {q : Seq} {m : Mode} {c : Plane} {n : BitVec 32} {r : BitVec 8}
    (hs : s.seq ≠ .error) (hq : q ≠ .error) (hd : s.dimensionsLegal = true) (hf : s.done = false ∧ s.endFlag = false)
    (hi : ({ s with seq := q, mode := m, curPlane := c, cnt := n, runLeft := r } : State).seqInv) :
    ({ s with seq := q, mode := m, curPlane := c, cnt := n, runLeft := r } : State).Inv :=
  { h with
    errcode := ⟨fun he => absurd (h.errcode_none hs) he, fun he => absurd he hq⟩
    flags := fun _ => hf
    dimensions := fun _ => hd
    sequencer := hi }

theorem State.seq_ne_of_busy {s : State} (hb : s.busy = true) : s.seq ≠ .idle ∧ s.seq ≠ .error := by
  constructor <;> intro hs <;> simp [State.busy, hs] at hb

/-- A busy block may move to any busy STATE whose registers fit: the command goes on with its dimensions and flags. -/
theorem State.Inv.goOn {s : State} (h : s.Inv) {q : Seq} {m : Mode} {c : Plane} {n : BitVec 32} {r : BitVec 8}
    (hb : s.busy = true) (hq : q ≠ .error)
    (hi : ({ s with seq := q, mode := m, curPlane := c, cnt := n, runLeft := r } : State).seqInv) :
    ({ s with seq := q, mode := m, curPlane := c, cnt := n, runLeft := r } : State).Inv :=
  h.moveTo (State.seq_ne_of_busy hb).2 hq (h.dimensions hb) (h.flags (State.seq_ne_of_busy hb).1) hi

/-- A busy block may end its command in IDLE, whatever its counters and flags are (10_state.md R46, R47). -/
theorem State.Inv.toIdle {s : State} (h : s.Inv) (hb : s.busy = true) (n : BitVec 32) (r : BitVec 8) (d e : Bool)
    (f : Word) :
    ({ s with seq := .idle, cnt := n, runLeft := r, done := d, endFlag := e, frameCount := f } : State).Inv :=
  { h with
    errcode := ⟨fun he => absurd (h.errcode_none (State.seq_ne_of_busy hb).2) he, nofun⟩
    flags := fun hi => absurd rfl hi
    dimensions := nofun
    sequencer := trivial }

theorem State.pixels_pos {s : State} (hd : s.dimensionsLegal = true) : 0 < s.pixels := by
  simp only [State.dimensionsLegal, Bool.and_eq_true, bne_iff_ne, ne_eq, decide_eq_true_eq] at hd
  obtain ⟨⟨hw, hh⟩, _⟩ := hd
  exact Nat.mul_pos (Nat.pos_of_ne_zero fun h0 => hw (BitVec.eq_of_toNat_eq h0))
    (Nat.pos_of_ne_zero fun h0 => hh (BitVec.eq_of_toNat_eq h0))

/-- CNT does not wrap while it names a pixel of a command in progress (00_scope.md R6). -/
theorem State.Inv.cnt_succ {s : State} (h : s.Inv) (hb : s.busy = true) (hc : s.cnt.toNat < s.pixels) :
    (s.cnt + 1).toNat = s.cnt.toNat + 1 := by
  have hm := h.pixels_le_maxPixels hb
  obtain ⟨_, hmax, _⟩ := h.params
  rw [BitVec.toNat_add]
  exact Nat.mod_eq_of_lt (by show s.cnt.toNat + 1 < 2 ^ 32; omega)

/-- The number of samples a length byte declares (30_encoding.md R77). -/
theorem declaredCount_bounds (b : Byte) :
    1 ≤ declaredCount b ∧ declaredCount b ≤ 130 ∧ (b.getLsbD 7 = false → declaredCount b ≤ 128) := by
  have hm := (b.extractLsb' 0 7).isLt
  cases hb : b.getLsbD 7
  · simp only [declaredCount, hb, litCount, Bool.false_eq_true, if_false]; omega
  · simp only [declaredCount, hb, repCount, if_true]; exact ⟨by omega, by omega, nofun⟩

/-- The length-byte step begins a run that fits what the plane still needs, or fails (40_plane_decoder.md R106). -/
theorem State.Inv.startRun {s : State} (h : s.Inv) (hs : s.seq = .hdr) (b : Byte) :
    (s.startRun (if b.getLsbD 7 then .repv else .lit) (declaredCount b) b).Inv := by
  have hb : s.busy = true := State.busy_of_seq hs nofun nofun
  rcases s.startRun_cases (if b.getLsbD 7 then .repv else .lit) (declaredCount b) b with ⟨_, _, ht⟩ | ⟨_, ht⟩ <;>
    rw [ht]
  · exact h.blockError b nofun (State.seq_ne_of_busy hb).1
  · obtain ⟨h1, h130, h128⟩ := declaredCount_bounds b
    have hc := (State.seqInv_hdr hs).1 h.sequencer
    have hrem : s.remaining = s.pixels - s.cnt.toNat := rfl
    have hr : (BitVec.ofNat 8 (min (declaredCount b) s.remaining)).toNat = min (declaredCount b) s.remaining := by
      rw [BitVec.toNat_ofNat]; omega
    have fits : ∀ m, declaredCount b ≤ m → 1 ≤ min (declaredCount b) s.remaining ∧
        min (declaredCount b) s.remaining ≤ m ∧ s.cnt.toNat + min (declaredCount b) s.remaining ≤ s.pixels := by
      omega
    rw [← hr] at fits
    cases hk : b.getLsbD 7 with
    | false => exact h.goOn hb nofun ((State.seqInv_lit rfl).2 (fits 128 (h128 hk)))
    | true => exact h.goOn hb nofun ((State.seqInv_repeat (.inl rfl)).2 (fits 130 h130))

/-- A run that fits still fits after a sample that was not its last (10_state.md R26). -/
theorem State.countSample_fits {s : State} {m : Nat} (hcnt : (s.cnt + 1).toNat = s.cnt.toNat + 1)
    (hr : s.countSample.runLeft ≠ 0)
    (h : 1 ≤ s.runLeft.toNat ∧ s.runLeft.toNat ≤ m ∧ s.cnt.toNat + s.runLeft.toNat ≤ s.pixels) :
    1 ≤ s.countSample.runLeft.toNat ∧ s.countSample.runLeft.toNat ≤ m ∧
      s.countSample.cnt.toNat + s.countSample.runLeft.toNat ≤ s.countSample.pixels := by
  obtain ⟨h1, h2, h3⟩ := h
  have hrun : s.countSample.runLeft.toNat = s.runLeft.toNat - 1 := BitVec.toNat_sub_of_le h1
  have hpos : s.countSample.runLeft.toNat ≠ 0 := fun h0 => hr (BitVec.eq_of_toNat_eq h0)
  have hc : s.countSample.cnt.toNat = s.cnt.toNat + 1 := hcnt
  have hp : s.countSample.pixels = s.pixels := rfl
  omega

/-- The counters after a sample (40_plane_decoder.md R107 to R110). -/
theorem State.Inv.advanceRun {s : State} (h : s.Inv) (hs : s.seq = .lit ∨ s.seq = .fill) : s.advanceRun.Inv := by
  have hb : s.busy = true := by rcases hs with hs | hs <;> exact State.busy_of_seq hs nofun nofun
  have hcnt := h.cnt_succ hb (h.cnt_lt_pixels (by rcases hs with hs | hs <;> simp [hs]))
  rcases s.advanceRun_cases with ⟨_, ht⟩ | ⟨hr, ht⟩ <;> rw [ht]
  · rcases s.countSample.planeEnd_cases with ⟨hlt, hp⟩ | ⟨_, _, hp⟩ | ⟨c, _, _, _, hp⟩ | ⟨_, _, _, hp⟩ <;> rw [hp]
    · exact h.goOn hb nofun hlt
    · exact h.toIdle hb _ _ _ _ _
    · exact h.goOn hb nofun (State.pixels_pos (h.dimensions hb))
    · exact h.toIdle hb _ _ _ _ _
  · refine h.goOn hb (State.seq_ne_of_busy hb).2 ?_
    rcases hs with hs | hs
    · exact (State.seqInv_lit (s := s.countSample) hs).2
        (State.countSample_fits hcnt hr ((State.seqInv_lit hs).1 h.sequencer))
    · exact (State.seqInv_repeat (s := s.countSample) (.inr hs)).2
        (State.countSample_fits hcnt hr ((State.seqInv_repeat (.inr hs)).1 h.sequencer))

/-- The counters after a pixel (41_color_grader.md R149, R150). -/
theorem State.Inv.advanceGrade {s : State} (h : s.Inv) (hs : s.seq = .grade) : s.advanceGrade.Inv := by
  have hb : s.busy = true := State.busy_of_seq hs nofun nofun
  have hc := (State.seqInv_grade hs).1 h.sequencer
  have hcnt := h.cnt_succ hb hc
  rcases s.advanceGrade_cases with ⟨_, ht⟩ | ⟨hne, ht⟩ <;> rw [ht]
  · exact h.toIdle hb _ _ _ _ _
  · refine h.goOn hb (State.seq_ne_of_busy hb).2 ((State.seqInv_grade (s := { s with cnt := s.cnt + 1 }) hs).2 ?_)
    show (s.cnt + 1).toNat < s.pixels
    omega

/-! ### The invariant, turn by turn -/

/-- A block turn keeps the invariant. -/
theorem State.Inv.blockStep {s t : State} (h : s.Inv) (ht : blockStep s = .next t) : t.Inv := by
  rcases blockStep_cases ht with ⟨_, rfl⟩ | ⟨hr, _, _, rfl⟩ | ⟨q, hs, hq, rfl⟩ | ⟨q, hs, hq, rfl⟩ |
    ⟨b, q, hs, hq, _, _, rfl⟩ | ⟨b, q, hs, hq, rfl⟩ | ⟨b, q, hs, hq, hw, rfl⟩ | ⟨b, q, hs, hq, rfl⟩ |
    ⟨hs, hw, rfl⟩ | ⟨hs, hc, rfl⟩
  · exact h
  · exact h.blockError _ nofun fun hs => by simp [hs, Seq.readsInput] at hr
  · have hb : s.busy = true := State.busy_of_seq hs nofun nofun
    exact (h.consumed hq).goOn hb nofun (State.pixels_pos (h.dimensions hb))
  · exact (h.consumed hq).toIdle (State.busy_of_seq hs nofun nofun) _ _ _ _ _
  · exact (h.consumed hq).blockError b nofun (by simp [hs])
  · exact (h.consumed hq).startRun hs b
  · exact ((h.consumed hq).writeByte b hw).advanceRun (.inl hs)
  · have hv : ({ s.consumed q with runVal := b } : State).Inv := { h.consumed hq with }
    exact hv.goOn (State.busy_of_seq hs nofun nofun) nofun
      ((State.seqInv_repeat (.inr rfl)).2 ((State.seqInv_repeat (.inl hs)).1 h.sequencer))
  · exact (h.writeByte _ hw).advanceRun (.inr hs)
  · exact (h.writePixel _ hc).advanceGrade hs

/-- SRESET puts every register back to its reset value and leaves FB alone (42_commands.md R174). -/
theorem State.Inv.softReset {s : State} (h : s.Inv) : s.softReset.Inv where
  params := h.params
  fbWf := h.fbWf
  fbInside := h.fbInside
  fifo := Nat.zero_le _
  grade := by rw [State.softReset_gradeReg]; decide
  irqEn := by rw [State.softReset_irqEn]; decide
  errcode := ⟨fun hc => absurd rfl hc, nofun⟩
  flags := fun hs => absurd rfl hs
  dimensions := nofun
  sequencer := trivial

theorem State.Inv.clearCompletion {s : State} (h : s.Inv) : s.clearCompletion.Inv :=
  { h with flags := fun _ => ⟨rfl, rfl⟩ }

theorem State.Inv.commandWrite {w : Word} {s t : State} (h : s.Inv) (ht : commandWrite w s = .next t) : t.Inv := by
  rcases commandWrite_outcomes ht with ⟨_, rfl⟩ | ⟨_, rfl⟩ | ⟨_, c, b, hc, rfl⟩ | ⟨hi, hd, hs⟩
  · exact h.softReset
  · exact { h with }
  · exact h.clearCompletion.raise b hc ⟨rfl, rfl⟩
  · have hne : s.clearCompletion.seq ≠ .error := by simp [hi]
    rcases hs with ⟨c, rfl⟩ | rfl | rfl
    · exact h.clearCompletion.moveTo hne nofun hd ⟨rfl, rfl⟩ (State.pixels_pos hd)
    · exact h.clearCompletion.moveTo hne nofun hd ⟨rfl, rfl⟩ ⟨rfl, rfl, rfl⟩
    · exact h.clearCompletion.moveTo hne nofun hd ⟨rfl, rfl⟩ (State.pixels_pos hd)

theorem State.Inv.unlessBusy {write : State → State} {s : State} (h : s.Inv)
    (hw : s.busy = false → (write s).Inv) : (s.unlessBusy write).Inv := by
  rcases s.unlessBusy_cases write with ⟨_, hc⟩ | ⟨hb, hc⟩ <;> rw [hc]
  · exact { h with }
  · exact hw hb

/-- New dimensions are fine while the block is not busy (20_memory.md R58). -/
theorem State.Inv.withDimensions {s : State} (h : s.Inv) (hb : s.busy = false) (w v : Word) :
    ({ s with width := w, height := v } : State).Inv :=
  { h with
    dimensions := fun hb' => absurd (hb.symm.trans hb') nofun
    sequencer := State.seqInv_of_not_busy (s := { s with width := w, height := v }) hb }

theorem State.Inv.pushInput {s : State} (h : s.Inv) (b : Byte) : (s.pushInput b).Inv := by
  rcases s.pushInput_cases b with ⟨_, hl, hp⟩ | ⟨_, hp⟩ <;> rw [hp]
  · exact { h with fifo := by simpa using hl }
  · exact { h with }

theorem State.Inv.clearFlags {s : State} (h : s.Inv) (w : Word) : (s.clearFlags w).Inv :=
  { h with
    flags := fun hs => by
      obtain ⟨hd, he⟩ := h.flags hs
      simp [State.clearFlags, hd, he] }

theorem State.Inv.writeWindowByte {s : State} (h : s.Inv) (j : Nat) (v : Byte) : (s.writeWindowByte j v).Inv := by
  rw [State.writeWindowByte_eq]
  split
  next hj => exact h.writeByte v hj
  next => exact h

theorem State.Inv.writeWindowWord {s : State} (h : s.Inv) (k : Nat) (w : Word) : (s.writeWindowWord k w).Inv :=
  (((h.writeWindowByte _ _).writeWindowByte _ _).writeWindowByte _ _).writeWindowByte _ _

/-- A host turn keeps the invariant. -/
theorem State.Inv.hostStep {op : HostOp} {s t : State} (h : s.Inv) (ht : hostStep op s = .next t) : t.Inv := by
  cases op with
  | read a =>
    obtain rfl := Host.Outcome.next.inj ht
    rcases hostRead_cases a s with ⟨_, hr⟩ | ⟨_, hr⟩ <;> rw [hr] <;> exact { h with }
  | write a w =>
    rcases hostWrite_cases ht with rfl | ⟨v, hv, hc⟩
    · exact { h with }
    · have hi : v.Inv := by rw [hv]; exact { h with }
      rcases hc with ⟨_, hc⟩ | ⟨_, rfl⟩ | ⟨_, rfl⟩ | ⟨_, rfl⟩ | ⟨_, rfl⟩ | ⟨_, rfl⟩ | ⟨_, rfl⟩ | ⟨_, rfl⟩ | rfl |
        ⟨k, _, _, rfl⟩
      · exact hi.commandWrite hc
      · exact hi.clearFlags w
      · exact hi.unlessBusy fun hb => hi.withDimensions hb _ _
      · exact hi.unlessBusy fun hb => hi.withDimensions hb _ _
      · exact hi.unlessBusy fun _ => { hi with grade := gradeStored_idem w }
      · refine { hi with irqEn := ?_ }
        rw [BitVec.toNat_setWidth]
        exact (Nat.mod_le _ _).trans_lt (w.extractLsb' 0 2).isLt
      · exact hi.pushInput _
      · exact { hi with }
      · exact hi
      · exact hi.unlessBusy fun _ => hi.writeWindowWord k w

/-! ### The obligations -/

/-- Settles O41: one lemma for the block's turn and one for the host's, each from the lemmas about its operations. -/
theorem stepKeepsInvariant : Obligations.StepKeepsInvariant := by
  intro s t h ht
  rcases step_turn ht with ⟨rest, ht⟩ | ⟨op, rest, _, ht⟩
  · exact (h.withSched rest).blockStep ht
  · exact (h.withSched rest).hostStep ht

/-- Settles O44: a block turn keeps the dimensions and GRADE; a host turn of a busy block keeps them unless it is
SRESET; no turn changes the parameters. -/
theorem busyKeepsFrameParameters : Obligations.BusyKeepsFrameParameters := by
  intro s t h
  rcases step_turn h with ⟨rest, h⟩ | ⟨op, rest, hs, h⟩
  · obtain ⟨hp, hw, hh, hg, _⟩ := blockStep_keeps h
    exact ⟨hp, fun _ => .inr ⟨hw, hh, hg⟩⟩
  · refine ⟨hostStep_params (s := { s with sched := rest }) h, fun hb => ?_⟩
    by_cases hr : op = .write 0x00#32 0x0000000F#32
    · exact .inl (by rw [State.SresetNext, hs, hr]; rfl)
    · obtain ⟨ht, _⟩ := hostStep_while_busy (s := { s with sched := rest }) hb hr h
      rw [ht]
      exact .inr ⟨rfl, rfl, rfl⟩

/-- Settles O45, from what a block turn and a host write do to the flags; a host read moves none. -/
theorem stickyFlagsChangeOnlyAsRuled : Obligations.StickyFlagsChangeOnlyAsRuled := by
  intro s t h
  have hf : s.FlagsRuled t := by
    rcases step_turn h with ⟨rest, h⟩ | ⟨op, rest, hs, h⟩
    · exact blockStep_flagsRuled h
    · cases op with
      | read a =>
        obtain rfl := Host.Outcome.next.inj h
        exact State.SameFlags.ruled (s := s) (hostRead_flags a { s with sched := rest })
      | write a w => exact hostWrite_flagsRuled hs h
  exact ⟨hf.done.1, hf.endFlag.1, hf.done.2, hf.endFlag.2, hf.cmdRej.1, hf.cmdRej.2, hf.wrRej.1, hf.wrRej.2, hf.inRej.1,
    hf.inRej.2⟩

/-- Settles O47: in the STATEs that write FB the invariant keeps CNT below N. -/
theorem blockWritesOnlyTheFrame : Obligations.BlockWritesOnlyTheFrame := by
  intro s u t h hu ht j hj
  rw [step_of_blockTurn hu] at ht
  obtain ⟨rest, rfl⟩ := hu.exists_sched
  exact blockStep_fbByte_of_ge (s := { s with sched := rest }) h.cnt_lt_pixels ht hj

end Sys2Proof.Machine
end

section
/-! PROOF. The family 20_memory.md: what an access to the host port does, by the register or window word it addresses,
and what each turn does to the input stream. -/

namespace Sys2Proof.Machine

/-! ### What an offset addresses -/

theorem Reg.offset_bounds (r : Reg) : r.offset.toNat % 4 = 0 ∧ r.offset.toNat ≤ 0x30 := by
  cases r <;> decide

/-- The aligned offsets up to 0x30 are the registers' (10_state.md R29). -/
theorem Reg.exists_offset_eq {a : Word} (h4 : a.toNat % 4 = 0) (hle : a.toNat ≤ 0x30) : ∃ r : Reg, r.offset = a := by
  have hmap : ∀ i : Fin 13, ∃ r ∈ Reg.all, r.offset = BitVec.ofNat 32 (4 * i) := by decide
  obtain ⟨r, _, hr⟩ := hmap ⟨a.toNat / 4, by omega⟩
  refine ⟨r, hr.trans (BitVec.eq_of_toNat_eq ?_)⟩
  rw [BitVec.toNat_ofNat]
  dsimp only
  omega

/-- The offsets that address nothing: misaligned, in the gap, or past the window (20_memory.md R53, R54). -/
theorem portTarget_eq_none {p : Params} {a : Word}
    (h : a.toNat % 4 ≠ 0 ∨ (0x34 ≤ a.toNat ∧ a.toNat < 0x40000000) ∨ 0x40000000 + 4 * p.fbWords ≤ a.toNat) :
    portTarget p a = none := by
  unfold portTarget
  by_cases h4 : a.toNat % 4 ≠ 0
  · exact if_pos h4
  rw [if_neg h4]
  by_cases hw : 0x40000000 ≤ a.toNat
  · rw [if_pos hw]
    exact if_neg (by omega)
  · rw [if_neg hw, Option.map_eq_none_iff, List.find?_eq_none]
    intro r _ hr
    obtain rfl := beq_iff_eq.1 hr
    have := r.offset_bounds
    omega

/-! ### The step of a host access, by what it addresses -/

theorem step_of_hostReads {s u : State} {a : Word} (h : s.HostReads a u) : step s = .next (hostRead a u) := by
  obtain ⟨hs, hu⟩ := h
  rw [hu]
  simp only [step, hs, hostStep]

theorem step_of_hostReads_unmapped {s u : State} {a : Word} (h : s.HostReads a u) (ha : portTarget u.params a = none) :
    step s = .next { u with response := .busError } := by
  rw [step_of_hostReads h, hostRead, ha]

theorem step_of_hostReads_reg {s u : State} {r : Reg} (h : s.HostReads r.offset u) :
    step s = .next { u with response := .data (u.readReg r) } := by
  rw [step_of_hostReads h, hostRead, portTarget_reg]

theorem step_of_hostReads_window {s u : State} {k : Nat} (hp : u.params.legal) (hk : k < u.params.fbWords)
    (h : s.HostReads (windowOffset k) u) :
    step s = .next (if u.busy then { u with response := .data (Config.freeWord u.draws), draws := u.draws + 1 }
      else { u with response := .data (u.windowWord k) }) := by
  rw [step_of_hostReads h, hostRead, portTarget_window hp hk]

/-- A write's step is `hostWrite` on the state before the port answers. -/
theorem step_of_hostWrites {s u : State} {a w : Word} (h : s.HostWrites a w u) :
    step s = hostWrite a w { s with sched := u.sched } := by
  simp only [step, h.1, hostStep]

theorem step_of_hostWrites_unmapped {s u : State} {a w : Word} (h : s.HostWrites a w u)
    (ha : portTarget u.params a = none) : step s = .next { u with response := .busError } := by
  have hu := h.2
  rw [hu] at ha ⊢
  rw [step_of_hostWrites h, hostWrite, ha]

theorem step_of_hostWrites_reg {s u : State} {r : Reg} {w : Word} (h : s.HostWrites r.offset w u) :
    step s = writeReg r w u := by
  have hu := h.2
  rw [step_of_hostWrites h, hostWrite, portTarget_reg]
  exact congrArg (writeReg r w) hu.symm

theorem step_of_hostWrites_window {s u : State} {k : Nat} {w : Word} (hp : u.params.legal) (hk : k < u.params.fbWords)
    (h : s.HostWrites (windowOffset k) w u) : step s = .next (u.unlessBusy (State.writeWindowWord k w)) := by
  have hu := h.2
  rw [hu] at hp hk
  rw [step_of_hostWrites h, hostWrite, portTarget_window hp hk]
  exact congrArg (fun v : State => Host.Outcome.next (v.unlessBusy (State.writeWindowWord k w))) hu.symm

/-! ### Register writes -/

theorem State.unlessBusy_of_busy {s : State} (h : s.busy = true) (write : State → State) :
    s.unlessBusy write = { s with wrRej := true } := if_pos h

theorem State.unlessBusy_of_not_busy {s : State} (h : s.busy = false) (write : State → State) :
    s.unlessBusy write = write s := if_neg (by simp [h])

/-- The registers whose writes a busy block refuses (20_memory.md R58). -/
theorem writeReg_while_busy {r : Reg} {s : State} (w : Word) (hb : s.busy = true)
    (hr : r ∈ [Reg.width, .height, .grade]) : writeReg r w s = .next { s with wrRej := true } := by
  simp only [List.mem_cons, List.not_mem_nil, or_false] at hr
  rcases hr with rfl | rfl | rfl <;> exact congrArg Host.Outcome.next (State.unlessBusy_of_busy hb _)

/-- A write to a read-only register is ignored (20_memory.md R54). -/
theorem writeReg_readOnly {r : Reg} (w : Word) (s : State)
    (hr : r ∈ [Reg.inLevel, .inCount, .frameCount, .pos, .errByte]) : writeReg r w s = .next s := by
  simp only [List.mem_cons, List.not_mem_nil, or_false] at hr
  rcases hr with rfl | rfl | rfl | rfl | rfl <;> rfl

/-- A write-only register reads 0 (20_memory.md R54). -/
theorem State.readReg_writeOnly {r : Reg} (s : State) (hr : r ∈ [Reg.cmd, .inData]) : s.readReg r = 0#32 := by
  simp only [List.mem_cons, List.not_mem_nil, or_false] at hr
  rcases hr with rfl | rfl <;> rfl

/-- A command leaves the port's answer alone, and WR_REJ too unless it is SRESET, which clears it. -/
theorem commandWrite_response_wrRej {w : Word} {s t : State} (h : commandWrite w s = .next t) :
    t.response = s.response ∧ (t.wrRej = true → s.wrRej = true) := by
  rcases commandWrite_outcomes h with ⟨_, rfl⟩ | ⟨_, rfl⟩ | ⟨_, _, _, _, rfl⟩ | ⟨_, _, ⟨_, rfl⟩ | rfl | rfl⟩
  · exact ⟨rfl, nofun⟩
  all_goals exact ⟨rfl, id⟩

theorem State.unlessBusy_response {write : State → State} {s : State} (h : (write s).response = s.response) :
    (s.unlessBusy write).response = s.response := by
  rcases s.unlessBusy_cases write with ⟨_, hc⟩ | ⟨_, hc⟩ <;> rw [hc]
  exact h

theorem State.pushInput_response_wrRej (b : Byte) (s : State) :
    (s.pushInput b).response = s.response ∧ (s.pushInput b).wrRej = s.wrRej := by
  rcases s.pushInput_cases b with ⟨_, _, hc⟩ | ⟨_, hc⟩ <;> rw [hc] <;> exact ⟨rfl, rfl⟩

/-- The answer to a register write is given before the register takes it (20_memory.md R51). -/
theorem writeReg_response {r : Reg} {w : Word} {s t : State} (h : writeReg r w s = .next t) :
    t.response = s.response := by
  cases r
  case cmd => exact (commandWrite_response_wrRej h).1
  all_goals obtain rfl := Host.Outcome.next.inj h
  case width | height | grade => exact State.unlessBusy_response rfl
  case inData => exact (State.pushInput_response_wrRej _ s).1
  all_goals rfl

/-- A write to a register other than the three a busy block refuses never sets WR_REJ (20_memory.md R58). -/
theorem writeReg_wrRej {r : Reg} {w : Word} {s t : State} (hr : r ∉ [Reg.width, .height, .grade])
    (h : writeReg r w s = .next t) (ht : t.wrRej = true) : s.wrRej = true := by
  cases r
  case cmd => exact (commandWrite_response_wrRej h).2 ht
  case width | height | grade => simp at hr
  all_goals obtain rfl := Host.Outcome.next.inj h
  case status =>
    simp only [State.clearFlags, Bool.and_eq_true] at ht
    exact ht.1
  case inData => exact (State.pushInput_response_wrRej _ s).2 ▸ ht
  all_goals exact ht

/-! ### Window words -/

/-- Byte n of a window word, the lowest first (20_memory.md R56). -/
theorem State.extractLsb'_windowWord (s : State) (k : Nat) {n : Nat} (hn : n < 4) :
    (s.windowWord k).extractLsb' (8 * n) 8 = s.windowByte (4 * k + n) := by
  obtain ⟨h0, h1, h2, h3⟩ := extractLsb'_four_bytes (s.windowByte (4 * k)) (s.windowByte (4 * k + 1))
    (s.windowByte (4 * k + 2)) (s.windowByte (4 * k + 3))
  match n, hn with
  | 0, _ => exact h0
  | 1, _ => exact h1
  | 2, _ => exact h2
  | 3, _ => exact h3

/-- A read of FB after a window word was written (20_memory.md R56, R57). -/
theorem State.fbByte_writeWindowWord (k : Nat) (w : Word) (s : State) (j : Nat) :
    (s.writeWindowWord k w).fbByte j =
      if 4 * k ≤ j ∧ j < 4 * k + 4 ∧ j < s.params.fbBytes then w.extractLsb' (8 * (j - 4 * k)) 8
      else s.fbByte j := by
  simp only [State.writeWindowWord, State.fbByte_writeWindowByte, State.writeWindowByte_params]
  by_cases hin : 4 * k ≤ j ∧ j < 4 * k + 4
  · obtain ⟨n, rfl⟩ := Nat.exists_eq_add_of_le hin.1
    have hn : n < 4 := by omega
    match n, hn with
    | 0, _ | 1, _ | 2, _ | 3, _ => simp
  · rw [if_neg (by omega), if_neg (by omega), if_neg (by omega), if_neg (by omega), if_neg (by omega)]

/-! ### The input stream -/

/-- t has the input stream of s: IFIFO, IN_COUNT and EOS (10_state.md R32, R33, R42). -/
def State.SameInput (s t : State) : Prop := t.ififo = s.ififo ∧ t.inCount = s.inCount ∧ t.eos = s.eos

theorem commandWrite_sameInput {w : Word} {s t : State} (hw : w ≠ 0x0000000F#32) (h : commandWrite w s = .next t) :
    s.SameInput t := by
  rcases commandWrite_outcomes h with ⟨hr, _⟩ | ⟨_, rfl⟩ | ⟨_, _, _, _, rfl⟩ | ⟨_, _, ⟨_, rfl⟩ | rfl | rfl⟩
  · exact absurd hr hw
  all_goals exact ⟨rfl, rfl, rfl⟩

theorem State.SameInput.of_unlessBusy {write : State → State} {s : State}
    (h : s.SameInput (write { s with response := .ok })) :
    s.SameInput (({ s with response := .ok } : State).unlessBusy write) := by
  rcases State.unlessBusy_cases write { s with response := .ok } with ⟨_, hc⟩ | ⟨_, hc⟩ <;> rw [hc]
  · exact ⟨rfl, rfl, rfl⟩
  · exact h

/-- What a host write other than SRESET does to the input stream: nothing, one byte appended by a push, or EOS set by
IN_CTRL (20_memory.md R69; 42_commands.md R177, R178). -/
theorem hostWrite_input {a w : Word} {s t : State} (hr : ¬ (a = 0x00#32 ∧ w = 0x0000000F#32))
    (h : hostWrite a w s = .next t) :
    s.SameInput t ∨
    (a = 0x18#32 ∧ ({ s with ififo := s.ififo ++ [w.extractLsb' 0 8] } : State).SameInput t) ∨
    (a = 0x1C#32 ∧ ({ s with eos := s.eos || w.getLsbD 0 } : State).SameInput t) := by
  rcases hostWrite_cases h with rfl | ⟨v, rfl, hc⟩
  · exact .inl ⟨rfl, rfl, rfl⟩
  · rcases hc with ⟨ha, hc⟩ | ⟨_, rfl⟩ | ⟨_, rfl⟩ | ⟨_, rfl⟩ | ⟨_, rfl⟩ | ⟨_, rfl⟩ | ⟨ha, rfl⟩ | ⟨ha, rfl⟩ | rfl |
      ⟨k, _, _, rfl⟩
    · exact .inl (commandWrite_sameInput (s := { s with response := .ok }) (fun hw => hr ⟨ha, hw⟩) hc)
    · exact .inl ⟨rfl, rfl, rfl⟩
    · exact .inl (.of_unlessBusy ⟨rfl, rfl, rfl⟩)
    · exact .inl (.of_unlessBusy ⟨rfl, rfl, rfl⟩)
    · exact .inl (.of_unlessBusy ⟨rfl, rfl, rfl⟩)
    · exact .inl ⟨rfl, rfl, rfl⟩
    · rcases State.pushInput_cases (w.extractLsb' 0 8) { s with response := .ok } with ⟨_, _, hp⟩ | ⟨_, hp⟩ <;> rw [hp]
      · exact .inr (.inl ⟨ha, rfl, rfl, rfl⟩)
      · exact .inl ⟨rfl, rfl, rfl⟩
    · exact .inr (.inr ⟨ha, rfl, rfl, rfl⟩)
    · exact .inl ⟨rfl, rfl, rfl⟩
    · obtain ⟨m, hm⟩ := State.writeWindowWord_frame k w { s with response := .ok }
      exact .inl (.of_unlessBusy (by rw [hm]; exact ⟨rfl, rfl, rfl⟩))

theorem hostRead_sameInput (a : Word) (s : State) : s.SameInput (hostRead a s) := by
  rcases hostRead_cases a s with ⟨_, h⟩ | ⟨_, h⟩ <;> rw [h] <;> exact ⟨rfl, rfl, rfl⟩

/-! ### The obligations -/

/-- Settles O46: a block turn takes at most the oldest byte, a host write other than SRESET appends at most one, and a
host read moves none. -/
theorem inputStreamCoherence : Obligations.InputStreamCoherence := by
  intro s t h
  rcases step_turn h with ⟨rest, h⟩ | ⟨op, rest, hs, h⟩
  · obtain ⟨_, _, _, _, he, _, hin⟩ := blockStep_keeps h
    exact .inr ⟨fun hs => he.trans hs, hin.imp_right .inl⟩
  · cases op with
    | read a =>
      obtain rfl := Host.Outcome.next.inj h
      obtain ⟨hq, hc, he⟩ := hostRead_sameInput a { s with sched := rest }
      exact .inr ⟨fun hs => he.trans hs, .inl ⟨hq, hc⟩⟩
    | write a w =>
      by_cases hr : a = 0x00#32 ∧ w = 0x0000000F#32
      · exact .inl (by rw [State.SresetNext, hs, hr.1, hr.2]; rfl)
      · refine .inr ?_
        rcases hostWrite_input hr h with ⟨hq, hc, he⟩ | ⟨ha, hq, hc, he⟩ | ⟨_, hq, hc, he⟩
        · exact ⟨fun hs => he.trans hs, .inl ⟨hq, hc⟩⟩
        · subst ha
          exact ⟨fun hs => he.trans hs,
            .inr (.inr ⟨w, { s with sched := rest, response := .ok }, ⟨hs, rfl⟩, hq, hc⟩)⟩
        · exact ⟨fun hs => he.trans (by simp [hs]), .inl ⟨hq, hc⟩⟩

/-- Settles O54: the refused writes from `State.unlessBusy`, and the others from what a register write does to WR_REJ
and to the port's answer. -/
theorem busyWritesRefused : Obligations.BusyWritesRefused := by
  intro s u a w hp hb h
  refine ⟨?_, fun ha => ?_⟩
  · rintro (ha | ⟨k, hk, rfl⟩)
    · have ha : a ∈ [Reg.width, .height, .grade].map Reg.offset := ha
      obtain ⟨r, hr, rfl⟩ := List.mem_map.1 ha
      rw [step_of_hostWrites_reg h, writeReg_while_busy w hb hr]
    · rw [step_of_hostWrites_window hp hk h, State.unlessBusy_of_busy hb]
  · have ha : a ∈ [Reg.cmd, .status, .irqEn, .inData, .inCtrl].map Reg.offset := ha
    obtain ⟨r, hr, rfl⟩ := List.mem_map.1 ha
    have hn : ∀ r ∈ [Reg.cmd, .status, .irqEn, .inData, .inCtrl], r ∉ [Reg.width, .height, .grade] := by decide
    obtain ⟨t, ht⟩ := writeReg_goesOn r w u
    refine ⟨t, (step_of_hostWrites_reg h).trans ht, ?_, writeReg_wrRej (hn r hr) ht⟩
    rw [writeReg_response ht, h.2]

/-- Settles O55, from what a read of FB gives after a window word was written. -/
theorem windowWriteIsLittleEndian : Obligations.WindowWriteIsLittleEndian := by
  intro s u k w hp hb hk h
  refine ⟨u.writeWindowWord k w, ?_, ?_, State.fbByte_writeWindowWord k w u⟩
  · rw [step_of_hostWrites_window hp hk h, State.unlessBusy_of_not_busy hb]
  · obtain ⟨m, hm⟩ := State.writeWindowWord_frame k w u
    rw [hm]

/-- Settles O56: an idle block answers the word whose bytes are FB's, a busy one the next free word. -/
theorem windowReadIsLittleEndian : Obligations.WindowReadIsLittleEndian := by
  intro s u k hp hk h
  have hst := step_of_hostReads_window hp hk h
  refine ⟨fun hb => ⟨u.windowWord k, ?_, fun n hn => ?_⟩, fun hb => ⟨Config.freeWord u.draws, ?_⟩⟩
  · rw [hst, if_neg (by simp [hb])]
  · exact (u.extractLsb'_windowWord k hn).trans (u.windowByte_eq _)
  · rw [hst, if_pos hb]

/-- Settles O57, by what the offset addresses: nothing, a read-only register, a write-only one, or any register. -/
theorem portErrorsAndIgnoredWrites : Obligations.PortErrorsAndIgnoredWrites := by
  intro s u a w
  refine ⟨fun ha => ?_, fun ha h => ?_, fun ha h => ?_, fun h4 hle => ?_⟩
  · have hn := portTarget_eq_none ha
    exact ⟨fun h => step_of_hostReads_unmapped h hn, fun h => step_of_hostWrites_unmapped h hn⟩
  · have ha : a ∈ [Reg.inLevel, .inCount, .frameCount, .pos, .errByte].map Reg.offset := ha
    obtain ⟨r, hr, rfl⟩ := List.mem_map.1 ha
    rw [step_of_hostWrites_reg h, writeReg_readOnly w u hr]
  · have ha : a ∈ [Reg.cmd, .inData].map Reg.offset := ha
    obtain ⟨r, hr, rfl⟩ := List.mem_map.1 ha
    rw [step_of_hostReads_reg h, u.readReg_writeOnly hr]
  · obtain ⟨r, rfl⟩ := Reg.exists_offset_eq h4 hle
    refine ⟨fun h => ⟨_, step_of_hostReads_reg h, nofun⟩, fun h => ?_⟩
    obtain ⟨t, ht⟩ := writeReg_goesOn r w u
    refine ⟨t, (step_of_hostWrites_reg h).trans ht, ?_⟩
    rw [writeReg_response ht, h.2]
    nofun

end Sys2Proof.Machine
end

section
/-! PROOF. The family 30_encoding.md: the fields of an encoded object, the decoder as the inverse of the encoder, the
two kinds of length byte, and the packets that RUN and LITS expand to. -/

namespace Sys2Proof

/-! ### The fields of an encoded object -/

theorem getLsbD_seven_lengthByteOf : ∀ (s : Bool) (m : BitVec 7), (lengthByteOf s m).getLsbD 7 = s := by decide

theorem extractLsb'_lengthByteOf : ∀ (s : Bool) (m : BitVec 7), (lengthByteOf s m).extractLsb' 0 7 = m := by decide

@[simp] theorem commandOpc_commandWordOf : ∀ opc pl, commandOpc (commandWordOf opc pl) = opc := by decide

@[simp] theorem commandPl_commandWordOf : ∀ opc pl, commandPl (commandWordOf opc pl) = pl := by decide

@[simp] theorem commandRsv_commandWordOf : ∀ opc pl, commandRsv (commandWordOf opc pl) = 0#26 := by decide

/-- A command word is its OPC and its PL side by side when its RSV is 0 (30_encoding.md R84). -/
theorem commandWordOf_fields {w : Word} (h : commandRsv w = 0#26) : commandWordOf (commandOpc w) (commandPl w) = w := by
  have hrsv : w.toNat >>> 6 % 2 ^ 26 = 0 := congrArg BitVec.toNat h
  rw [Nat.shiftRight_eq_div_pow] at hrsv
  have hlow : commandPl w ++ commandOpc w = w.extractLsb' 0 6 :=
    BitVec.extractLsb'_append_extractLsb'_eq_extractLsb' rfl
  refine BitVec.eq_of_toNat_eq ?_
  rw [commandWordOf, hlow, BitVec.toNat_setWidth, BitVec.extractLsb'_toNat, Nat.shiftRight_zero]
  omega

/-! ### The decoder is the inverse of the encoder -/

theorem decodeLength_lengthByteOf (s : Bool) (m : BitVec 7) :
    decodeLength (lengthByteOf s m) = if s then .rep m else .lit m := by
  rw [decodeLength, getLsbD_seven_lengthByteOf, extractLsb'_lengthByteOf]

theorem encode_decodeLength (b : Byte) : encode (decodeLength b) = .lengthByte b := by
  have hb := Machine.lengthByteOf_fields b
  unfold decodeLength
  cases hs : b.getLsbD 7 <;> rw [hs] at hb <;> exact congrArg Encoded.lengthByte hb

theorem wellFormed_decodeLength (b : Byte) : WellFormed (decodeLength b) = true := by
  unfold decodeLength
  cases b.getLsbD 7 <;> rfl

theorem decodeCommand_decodePlane {pl : BitVec 2} (h : pl ≠ 3#2) :
    decodeCommand (commandWordOf 0x1#4 pl) = .ok (.decodePlane pl) := by
  simp [decodeCommand, h]

theorem encode_of_decodeMarker {b : Byte} {i : Instr} (h : decodeMarker b = .ok i) :
    WellFormed i = true ∧ encode i = .markerByte b := by
  unfold decodeMarker at h
  split_ifs at h with hk he <;> cases h
  · exact ⟨rfl, hk ▸ rfl⟩
  · exact ⟨rfl, he ▸ rfl⟩

theorem encode_of_decodeCommand {w : Word} {i : Instr} (h : decodeCommand w = .ok i) :
    WellFormed i = true ∧ encode i = .commandWord w := by
  unfold decodeCommand at h
  split_ifs at h with hrsv hop hop hop hop <;> cases h <;> obtain ⟨hopc, hpl⟩ := hop <;>
    rw [← commandWordOf_fields (not_not.1 hrsv), hopc]
  · exact ⟨by simpa [WellFormed] using hpl, by simp [encode]⟩
  all_goals rw [hpl]; exact ⟨rfl, rfl⟩

/-- 30_encoding.md R75, R82, R85: no bit of a well-formed instruction's encoding is dropped. -/
theorem decode_encode {i : Instr} (h : WellFormed i = true) : decode (encode i) = .ok i := by
  cases i with
  | lit m => exact congrArg Except.ok (decodeLength_lengthByteOf false m)
  | rep m => exact congrArg Except.ok (decodeLength_lengthByteOf true m)
  | decodePlane pl => exact decodeCommand_decodePlane (by simpa [WellFormed] using h)
  | markK | markE | decodeFrame | grade | sreset => decide

/-- The objects the decoder accepts, at all three places (30_encoding.md R87): the well-formed encodings. -/
theorem decode_eq_ok_iff {e : Encoded} {i : Instr} : decode e = .ok i ↔ WellFormed i = true ∧ encode i = e := by
  constructor
  · intro h
    cases e with
    | markerByte b => exact encode_of_decodeMarker h
    | lengthByte b =>
      cases h
      exact ⟨wellFormed_decodeLength b, encode_decodeLength b⟩
    | commandWord w => exact encode_of_decodeCommand h
  · rintro ⟨hi, rfl⟩
    exact decode_encode hi

/-! ### The two kinds of length byte -/

theorem getLsbD_seven_eq_decide (b : Byte) : b.getLsbD 7 = decide (0x80 ≤ b.toNat) :=
  (BitVec.msb_eq_getLsbD_last b).symm.trans (BitVec.msb_eq_decide b)

theorem decodeLength_of_lt {b : Byte} (h : b.toNat < 0x80) : decodeLength b = .lit (b.extractLsb' 0 7) := by
  rw [decodeLength, getLsbD_seven_eq_decide, if_neg (by simpa using h)]

theorem decodeLength_of_ge {b : Byte} (h : 0x80 ≤ b.toNat) : decodeLength b = .rep (b.extractLsb' 0 7) := by
  rw [decodeLength, getLsbD_seven_eq_decide, if_pos (by simpa using h)]

/-! ### The packets of RUN and LITS -/

@[simp] theorem planeSamples_nil : planeSamples [] = [] := rfl

@[simp] theorem planeSamples_cons (p : Packet) (ps : List Packet) :
    planeSamples (p :: ps) = p.samples ++ planeSamples ps := rfl

theorem runPacketsFrom_wellFormed (v : Byte) (fuel c : Nat) : ∀ p ∈ runPacketsFrom v fuel c, p.wellFormed = true := by
  induction fuel generalizing c with
  | zero => nofun
  | succ fuel ih =>
    unfold runPacketsFrom
    split_ifs with h3 h0
    · refine List.forall_mem_cons.2 ⟨?_, ih _⟩
      simp [Packet.wellFormed, h3]
    · nofun
    · refine List.forall_mem_singleton.2 ?_
      simp only [Packet.wellFormed, List.length_replicate, Bool.and_eq_true, decide_eq_true_eq]
      omega

/-- Each packet of a run takes a sample at least, so a fuel of c reaches the end. -/
theorem planeSamples_runPacketsFrom (v : Byte) {fuel c : Nat} (h : c ≤ fuel) :
    planeSamples (runPacketsFrom v fuel c) = List.replicate c v := by
  induction fuel generalizing c with
  | zero => rw [Nat.le_zero.1 h]; rfl
  | succ fuel ih =>
    unfold runPacketsFrom
    split_ifs with h3 h0
    · have hsum : min c 130 + (c - min c 130) = c := by omega
      rw [planeSamples_cons, ih (by omega), Packet.samples, List.replicate_append_replicate, hsum]
    · rw [h0]; rfl
    · simp [Packet.samples]

theorem litsPacketsFrom_wellFormed (fuel : Nat) (vs : List Byte) :
    ∀ p ∈ litsPacketsFrom fuel vs, p.wellFormed = true := by
  induction fuel generalizing vs with
  | zero => nofun
  | succ fuel ih =>
    unfold litsPacketsFrom
    split_ifs with h0
    · nofun
    · refine List.forall_mem_cons.2 ⟨?_, ih _⟩
      simp only [Packet.wellFormed, List.length_take, Bool.and_eq_true, decide_eq_true_eq]
      omega

/-- Each literal takes a value at least, so a fuel of their number reaches the end. -/
theorem planeSamples_litsPacketsFrom {fuel : Nat} {vs : List Byte} (h : vs.length ≤ fuel) :
    planeSamples (litsPacketsFrom fuel vs) = vs := by
  induction fuel generalizing vs with
  | zero => rw [List.length_eq_zero_iff.1 (Nat.le_zero.1 h)]; rfl
  | succ fuel ih =>
    unfold litsPacketsFrom
    split_ifs with h0
    · exact (List.length_eq_zero_iff.1 h0).symm
    · have hdrop : (vs.drop 128).length ≤ fuel := by rw [List.length_drop]; omega
      rw [planeSamples_cons, ih hdrop, Packet.samples, List.take_append_drop]

/-! ### The obligations -/

/-- Settles O1, by the constructors: each encoding's fields give its operands back. -/
theorem decodeEncodeRoundTrip : Obligations.DecodeEncodeRoundTrip := fun _ hi => decode_encode hi

/-- Settles O2, by the place of the object and the branches of its decoder. -/
theorem decodedObjectIsItsEncoding : Obligations.DecodedObjectIsItsEncoding := fun _ _ h => decode_eq_ok_iff.1 h

/-- Settles O6: the legal command words are the encodings of the four commands, three of them for DECODE_PLANE. -/
theorem legalCommandWords : Obligations.LegalCommandWords := by
  intro w i
  rw [decode_eq_ok_iff]
  cases i with
  | lit | rep | markK | markE => simp [encode]
  | decodeFrame | grade | sreset => simp [encode, WellFormed, commandWordOf, eq_comm]
  | decodePlane pl =>
    have hpl : ∀ pl : BitVec 2, pl = 0#2 ∨ pl = 1#2 ∨ pl = 2#2 ∨ pl = 3#2 := by decide
    rcases hpl pl with rfl | rfl | rfl | rfl <;> simp [encode, WellFormed, commandWordOf, eq_comm]

/-- Settles O8: every packet's count lies in its range, and the packets take the samples from the front until none is
left. -/
theorem expansionsAreConforming : Obligations.ExpansionsAreConforming :=
  ⟨fun v c => ⟨runPacketsFrom_wellFormed v c c, planeSamples_runPacketsFrom v le_rfl⟩,
    fun vs => ⟨litsPacketsFrom_wellFormed vs.length vs, planeSamples_litsPacketsFrom le_rfl⟩,
    fun _ _ _ => BitVec.setWidth_append_append_eq_shiftLeft_setWidth_or⟩

/-- Settles O3: bit 7, which is the kind, says whether the byte is below 0x80. -/
theorem lengthByteKinds : Obligations.LengthByteKinds :=
  fun _ => ⟨fun h => congrArg Except.ok (decodeLength_of_lt h), fun h => congrArg Except.ok (decodeLength_of_ge h)⟩

/-- Settles O4: the sign of n is bit 7, and M is n or n + 128. -/
theorem runCountsFromSignedLength : Obligations.RunCountsFromSignedLength := by
  intro b m
  have hb := b.isLt
  have hm : m.toNat = b.toNat % 128 := by rw [BitVec.extractLsb'_toNat, Nat.shiftRight_zero]
  have hn := b.toInt_eq_toNat_cond
  unfold litCount repCount
  refine ⟨fun h => ?_, fun h => ?_⟩
  · have hlt : b.toNat < 0x80 := by split_ifs at hn <;> omega
    rw [if_pos (by omega)] at hn
    exact ⟨congrArg Except.ok (decodeLength_of_lt hlt), by omega⟩
  · have hge : 0x80 ≤ b.toNat := by split_ifs at hn <;> omega
    rw [if_neg (by omega)] at hn
    exact ⟨congrArg Except.ok (decodeLength_of_ge hge), by omega⟩

/-- Settles O5, by the branches of the marker decoder. -/
theorem markerBytes : Obligations.MarkerBytes := by
  refine fun b => ⟨fun hk => hk ▸ rfl, fun he => he ▸ rfl, fun hk he => ?_⟩
  rw [decode, decodeMarker, if_neg hk, if_neg he]

/-- Settles O7: each word is the encoding of its instruction. -/
theorem specWordsDecode : Obligations.SpecWordsDecode := by
  simp only [Obligations.SpecWordsDecode, decode_eq_ok_iff]
  decide

end Sys2Proof
end

section
/-! PROOF. The family 40_plane_decoder.md: what each decode step does, the functional form as a loop that can be resumed
from any STATE, and that the block's steps, with the host's between them, compute it within their bounds. -/

namespace Sys2Proof.Machine

/-! ### A length byte as a number -/

/-- The count a length byte declares, from its value (30_encoding.md R77). -/
theorem declaredCount_eq (b : Byte) :
    declaredCount b = if b.toNat < 128 then b.toNat + 1 else 130 - (b.toNat - 128) := by
  have hb := b.isLt
  have hm : (b.extractLsb' 0 7).toNat = b.toNat % 128 := by rw [BitVec.extractLsb'_toNat, Nat.shiftRight_zero]
  rw [declaredCount, getLsbD_seven_eq_decide, litCount, repCount, hm]
  by_cases h : b.toNat < 128
  · rw [if_neg (by simpa using h), if_pos h]; omega
  · rw [if_pos (by simpa using h), if_neg h]; omega

/-- Bit 7 of a length byte chooses the STATE of its run (40_plane_decoder.md R106). -/
theorem runState_eq (b : Byte) :
    (if b.getLsbD 7 then Seq.repv else .lit) = if b.toNat < 128 then .lit else .repv := by
  rw [getLsbD_seven_eq_decide]
  by_cases h : b.toNat < 128
  · rw [if_neg (by simpa using h), if_pos h]
  · rw [if_pos (by simpa using h), if_neg h]

theorem lengthByteOf_toNat :
    ∀ m : BitVec 7, lengthByteOf false m = BitVec.ofNat 8 m.toNat ∧
      lengthByteOf true m = BitVec.ofNat 8 (128 + m.toNat) := by decide

/-! ### Errors of the decoder -/

theorem State.mayWrite_of_mem_failedRegion {s : State} {j : Nat} (h : j ∈ s.failedRegion) : s.mayWrite j := by
  rw [State.mem_failedRegion] at h
  unfold State.mayWrite
  cases hm : s.mode <;> simp only [hm] at h ⊢
  case plane =>
    obtain ⟨i, hi, rfl⟩ := h
    exact ⟨i, by omega, rfl⟩
  case frame => omega

/-- A block error changes what 60_exceptions.md R202 and R203 let it change. -/
theorem State.failsWith_blockError (s : State) (c : ErrCode) (b : Byte) : s.FailsWith (s.blockError c b) c b :=
  ⟨rfl, fun _ hj => State.blockError_fbByte_outside c b (mt State.mayWrite_of_mem_failedRegion hj)⟩

/-! ### A run's start, its samples and the plane's end -/

section
variable {s : State} {count : Nat}

/-- A run starts when its count fits, or is cut to fit under CLAMP (40_plane_decoder.md R106). -/
theorem State.startRun_of_fits (q : Seq) (b : Byte) (h : count ≤ s.remaining ∨ s.params.overshoot = .clamp) :
    s.startRun q count b = { s with runLeft := BitVec.ofNat 8 (min count s.remaining), seq := q } := by
  refine if_neg fun ⟨hlt, hf⟩ => ?_
  rcases h with h | h
  · omega
  · exact absurd (h.symm.trans hf) nofun

theorem State.startRun_of_overshoot (q : Seq) (b : Byte) (h : s.remaining < count) (hf : s.params.overshoot = .fault) :
    s.startRun q count b = s.blockError .overshoot b := if_pos ⟨h, hf⟩

end

/-- s after sample v of its run went to FB and the counters moved on (40_plane_decoder.md R107, R108, R114). -/
def State.withSample (v : Byte) (s : State) : State :=
  ({ s with fb := Memory.write s.fb s.writeIndex v } : State).countSample

theorem State.fbByte_withSample (s : State) (v : Byte) (j : Nat) :
    (s.withSample v).fbByte j = if j = 3 * s.cnt.toNat + s.curPlane.index then v else s.fbByte j :=
  s.fbByte_write s.writeIndex j v

/-- A sample of a pixel the buffer holds is produced, and PlaneEnd runs after the run's last one. -/
theorem State.produceSample_of_lt {s : State} (v : Byte) (h : s.cnt.toNat < s.params.maxPixels) :
    s.produceSample v =
      .next (if (s.withSample v).runLeft = 0 then (s.withSample v).planeEnd else s.withSample v) := by
  have hw : s.writeIndex < s.params.fbBytes := sampleIndex_lt h
  rcases s.produceSample_cases v with ⟨_, ht⟩ | ⟨hge, _⟩
  · exact ht
  · omega

section
variable {s : State}

theorem State.planeEnd_of_lt (h : s.cnt.toNat < s.pixels) : s.planeEnd = { s with seq := .hdr } := if_pos h

theorem State.planeEnd_plane (h : s.pixels ≤ s.cnt.toNat) (hm : s.mode = .plane) : s.planeEnd = s.complete := by
  rw [State.planeEnd, if_neg (by omega), hm]

/-- The end of a frame's plane with another to come (40_plane_decoder.md R109). -/
theorem State.planeEnd_next {c : Plane} (h : s.pixels ≤ s.cnt.toNat) (hm : s.mode = .frame)
    (hc : s.curPlane.next? = some c) : s.planeEnd = { s with curPlane := c, cnt := 0, seq := .hdr } := by
  simp only [State.planeEnd, if_neg (Nat.not_lt.2 h), hm, hc]

/-- The end of a frame's last plane (40_plane_decoder.md R109, R110). -/
theorem State.planeEnd_last (h : s.pixels ≤ s.cnt.toNat) (hm : s.mode = .frame) (hc : s.curPlane.next? = none) :
    s.planeEnd = s.frameEnd := by
  simp only [State.planeEnd, if_neg (Nat.not_lt.2 h), hm, hc]

end

/-! ### Commands and bytes as the instructions they run -/

/-- A command's start from IDLE with legal dimensions (42_commands.md R172). -/
theorem State.acceptCommand_of_legal {s : State} (start : State → State) (hs : s.seq = .idle) (hw : s.width ≠ 0)
    (hh : s.height ≠ 0) (hn : s.width.toNat * s.height.toNat ≤ s.params.maxPixels) :
    s.acceptCommand start = start s.clearCompletion := by
  have hd : s.dimensionsLegal = true := by
    simp only [State.dimensionsLegal, State.pixels, Bool.and_eq_true, bne_iff_ne]
    exact ⟨⟨hw, hh⟩, decide_eq_true hn⟩
  rw [State.acceptCommand, if_pos hs, if_pos hd]

/-- A marker byte that decodes runs its instruction (40_plane_decoder.md R103). -/
theorem blockStep_marker_exec {s : State} {b : Byte} {q : List Byte} {i : Instr} (hs : s.seq = .marker)
    (hq : s.ififo = b :: q) (hi : decodeMarker b = .ok i) : blockStep s = exec i (s.consumed q) := by
  simp only [blockStep, hs, markerStep, State.inRead_of_cons hq, hi]

/-- A length byte runs the instruction it decodes to (40_plane_decoder.md R106). -/
theorem blockStep_hdr_exec {s : State} {b : Byte} {q : List Byte} (hs : s.seq = .hdr) (hq : s.ififo = b :: q) :
    blockStep s = exec (decodeLength b) (s.consumed q) := by
  simp only [blockStep, hs, headerStep, State.inRead_of_cons hq]

/-! ### The obligations about single steps -/

/-- Settles O10, by the place the object is read at. -/
theorem stepRunsDecodedInstruction : Obligations.StepRunsDecodedInstruction := by
  refine fun s u i => ⟨fun w h hd => ?_, fun b q hu hs hq hd => ?_, fun b q hu hs hq hd => ?_⟩
  · have hw : decodeCommand w = .ok i := hd
    have hc : step s = commandWrite w u := step_of_hostWrites_reg (r := .cmd) h
    rw [hc, commandWrite, hw]
  · exact (step_of_blockTurn hu).trans (blockStep_marker_exec hs hq hd)
  · obtain rfl := Except.ok.inj hd
    exact (step_of_blockTurn hu).trans (blockStep_hdr_exec hs hq)

/-- Settles O12, by the value of PL. -/
theorem decodePlaneStarts : Obligations.DecodePlaneStarts := by
  intro s pl c hpl hs hw hh hn
  have ha := State.acceptCommand_of_legal (State.startPlane c) hs hw hh hn
  have he : exec (.decodePlane pl) s = .next (s.acceptCommand (State.startPlane c)) := by
    simp only [List.mem_cons, Prod.mk.injEq, List.not_mem_nil, or_false] at hpl
    rcases hpl with ⟨rfl, rfl⟩ | ⟨rfl, rfl⟩ | ⟨rfl, rfl⟩ <;> rfl
  rw [he, ha]
  rfl

/-- Settles O13, from what an accepted command does. -/
theorem decodeFrameStarts : Obligations.DecodeFrameStarts := fun _ hs hw hh hn =>
  congrArg Host.Outcome.next (State.acceptCommand_of_legal State.startFrame hs hw hh hn)

/-- Settles O19: the two instructions are these updates. -/
theorem markersEffect : Obligations.MarkersEffect := fun _ => ⟨rfl, rfl⟩

/-- Settles O20, from the marker step on a byte. -/
theorem badMarkerRaisesFormat : Obligations.BadMarkerRaisesFormat := by
  intro s u b q hu hs hq hk he
  refine ⟨_, ?_, (u.consumed q).failsWith_blockError .format b⟩
  rw [step_of_blockTurn hu, blockStep_marker hs hq, if_neg hk, if_neg he]

/-- Settles O21, from the steps that find no byte. -/
theorem endOfStreamRaisesTruncated : Obligations.EndOfStreamRaisesTruncated := by
  intro s u hu hs hq he
  refine ⟨_, ?_, u.failsWith_blockError .truncated 0x00#8⟩
  rw [step_of_blockTurn hu, blockStep_without_byte ((Seq.readsInput_iff_mem _).2 hs) hq, if_pos he]

/-- Settles O22: LIT and REP are `startRun` with their count and their length byte. -/
theorem packetsBeginTheirRun : Obligations.PacketsBeginTheirRun := by
  intro s m _
  obtain ⟨hl, hr⟩ := lengthByteOf_toNat m
  refine ⟨fun h => congrArg Host.Outcome.next (State.startRun_of_fits _ _ h),
    fun h => congrArg Host.Outcome.next (State.startRun_of_fits _ _ h),
    fun h hf => ⟨_, congrArg Host.Outcome.next (State.startRun_of_overshoot .lit _ h hf), ?_⟩,
    fun h hf => ⟨_, congrArg Host.Outcome.next (State.startRun_of_overshoot .repv _ h hf), ?_⟩⟩
  · rw [← hl]; exact s.failsWith_blockError .overshoot _
  · rw [← hr]; exact s.failsWith_blockError .overshoot _

/-- Settles O23: without a byte the step waits or fails, and with one it starts a run of the declared count. -/
theorem lengthByteStep : Obligations.LengthByteStep := by
  intro s u hu hs _
  rw [step_of_blockTurn hu]
  have hr : u.seq.readsInput = true := by rw [hs]; rfl
  refine ⟨fun hq he => blockStep_hold hr hq he, fun hq he => ?_, fun b q hq => ?_⟩
  · refine ⟨_, ?_, u.failsWith_blockError .truncated 0x00#8⟩
    rw [blockStep_without_byte hr hq, if_pos he]
  · rw [blockStep_hdr hs hq, declaredCount_eq, runState_eq]
    exact ⟨fun h => congrArg Host.Outcome.next (State.startRun_of_fits (s := u.consumed q) _ _ h), fun h hf =>
      ⟨_, congrArg Host.Outcome.next (State.startRun_of_overshoot (s := u.consumed q) _ _ h hf),
        (u.consumed q).failsWith_blockError .overshoot b⟩⟩

/-- Settles O24: the literal step produces the byte it takes. -/
theorem literalStepCopiesOneByte : Obligations.LiteralStepCopiesOneByte := by
  intro s u b q hu hs hq hc
  refine ⟨(u.consumed q).withSample b, rfl, (u.consumed q).fbByte_withSample b, ?_⟩
  rw [step_of_blockTurn hu, blockStep_lit hs hq, State.produceSample_of_lt (s := u.consumed q) b hc]

/-- Settles O25: the fill step produces RUN_VAL. -/
theorem repeatStepsFillTheRun : Obligations.RepeatStepsFillTheRun := by
  intro s u hu
  rw [step_of_blockTurn hu]
  refine ⟨fun b q hs hq => blockStep_repv hs hq, fun hs hc => ?_⟩
  refine ⟨u.withSample u.runVal, rfl, u.fbByte_withSample u.runVal, ?_⟩
  rw [blockStep_fill hs, State.produceSample_of_lt _ hc]

/-- Settles O26, by the mode and the plane. -/
theorem planeEndCases : Obligations.PlaneEndCases := by
  exact fun s => ⟨State.planeEnd_of_lt, fun h hm hc => State.planeEnd_next h hm (hc ▸ rfl),
    fun h hm hc => State.planeEnd_next h hm (hc ▸ rfl), fun h hm hc => State.planeEnd_last h hm (hc ▸ rfl),
    State.planeEnd_plane⟩

/-! ### The functional form, resumed from any point of a plane -/

theorem decodePlaneFrom_zero (policy : OvershootPolicy) (fuel : Nat) (out input : List Byte) :
    decodePlaneFrom policy fuel 0 out input = .ok out input := by
  cases fuel <;> rw [decodePlaneFrom]

/-- Fuel for the samples still needed is enough, because each packet produces at least one. -/
theorem decodePlaneFrom_fuel (policy : OvershootPolicy) {fuel need : Nat} (h : need ≤ fuel) (out input : List Byte) :
    decodePlaneFrom policy fuel need out input = decodePlaneFrom policy need need out input := by
  induction fuel using Nat.strong_induction_on generalizing need out input with
  | _ fuel ih =>
    match fuel, need, input with
    | _, 0, _ => rw [decodePlaneFrom_zero, decodePlaneFrom_zero]
    | 0, need + 1, _ => omega
    | fuel + 1, need + 1, [] => simp only [decodePlaneFrom]
    | fuel + 1, need + 1, b :: input =>
      obtain ⟨hd, _⟩ := declaredCount_bounds b
      have same : ∀ out input,
          decodePlaneFrom policy fuel (need + 1 - min (declaredCount b) (need + 1)) out input =
            decodePlaneFrom policy need (need + 1 - min (declaredCount b) (need + 1)) out input := fun out input =>
        (ih fuel (by omega) (by omega) out input).trans (ih need (by omega) (by omega) out input).symm
      simp only [decodePlaneFrom, same]

/-- decodePlane of n samples on `input` once `out` is produced and the next byte is a length byte. -/
def resumePlane (policy : OvershootPolicy) (n : Nat) (out input : List Byte) : PlaneResult :=
  decodePlaneFrom policy (n - out.length) (n - out.length) out input

/-- The same inside a literal run with `count` samples to come (40_plane_decoder.md R107). -/
def resumeLiteral (policy : OvershootPolicy) (n count : Nat) (out input : List Byte) : PlaneResult :=
  if input.length < count then .err .truncated 0x00#8 (out ++ input) []
  else resumePlane policy n (out ++ input.take count) (input.drop count)

/-- The same inside a repeat run of `count` samples whose value byte is the next one (40_plane_decoder.md R108). -/
def resumeRepeat (policy : OvershootPolicy) (n count : Nat) (out : List Byte) : List Byte → PlaneResult
  | [] => .err .truncated 0x00#8 out []
  | v :: input => resumePlane policy n (out ++ List.replicate count v) input

/-- The same after length byte b (40_plane_decoder.md R106). -/
def resumePacket (policy : OvershootPolicy) (n : Nat) (b : Byte) (out input : List Byte) : PlaneResult :=
  if b.getLsbD 7 then resumeRepeat policy n (min (declaredCount b) (n - out.length)) out input
  else resumeLiteral policy n (min (declaredCount b) (n - out.length)) out input

section
variable {policy : OvershootPolicy} {n : Nat} {out : List Byte}

theorem decodePlane_eq_resumePlane (policy : OvershootPolicy) (n : Nat) (input : List Byte) :
    decodePlane policy n input = resumePlane policy n [] input := rfl

theorem resumePlane_done (h : n ≤ out.length) (input : List Byte) : resumePlane policy n out input = .ok out input := by
  rw [resumePlane, Nat.sub_eq_zero_of_le h, decodePlaneFrom_zero]

theorem resumePlane_nil (h : out.length < n) : resumePlane policy n out [] = .err .truncated 0x00#8 out [] := by
  obtain ⟨need, hneed⟩ := Nat.exists_eq_add_one.2 (Nat.sub_pos_of_lt h)
  rw [resumePlane, hneed, decodePlaneFrom]

theorem resumePlane_overshoot {b : Byte} (hd : n - out.length < declaredCount b) (hf : policy = .fault)
    (h : out.length < n) (input : List Byte) :
    resumePlane policy n out (b :: input) = .err .overshoot b out input := by
  obtain ⟨need, hneed⟩ := Nat.exists_eq_add_one.2 (Nat.sub_pos_of_lt h)
  rw [hneed] at hd
  rw [resumePlane, hneed, decodePlaneFrom, if_pos ⟨hd, hf⟩]

theorem resumePlane_packet {b : Byte} (hd : declaredCount b ≤ n - out.length ∨ policy = .clamp)
    (h : out.length < n) (input : List Byte) :
    resumePlane policy n out (b :: input) = resumePacket policy n b out input := by
  obtain ⟨hpos, _⟩ := declaredCount_bounds b
  have hneed : n - out.length = n - out.length - 1 + 1 := by omega
  have hno : ¬ (n - out.length - 1 + 1 < declaredCount b ∧ policy = .fault) := by
    rintro ⟨hlt, rfl⟩
    rcases hd with hd | hd
    · omega
    · cases hd
  have resume : ∀ (vs input : List Byte), vs.length = min (declaredCount b) (n - out.length) →
      decodePlaneFrom policy (n - out.length - 1) (n - out.length - min (declaredCount b) (n - out.length))
        (out ++ vs) input = resumePlane policy n (out ++ vs) input := by
    intro vs input hvs
    rw [decodePlaneFrom_fuel policy (by omega), resumePlane, List.length_append, hvs, Nat.sub_add_eq]
  rw [resumePlane, hneed, decodePlaneFrom, if_neg hno, ← hneed, resumePacket]
  cases b.getLsbD 7
  · simp only [Bool.false_eq_true, if_false, resumeLiteral]
    split
    · rfl
    next hlen => exact resume _ _ (List.length_take_of_le (Nat.not_lt.1 hlen))
  · simp only [if_true]
    cases input with
    | nil => rfl
    | cons v input => exact resume _ _ List.length_replicate

/-- The literal's next payload byte is its next sample. -/
theorem resumeLiteral_cons (count : Nat) (v : Byte) (input : List Byte) :
    resumeLiteral policy n (count + 1) out (v :: input) = resumeLiteral policy n count (out ++ [v]) input := by
  simp [resumeLiteral]

theorem resumeLiteral_zero (input : List Byte) :
    resumeLiteral policy n 0 out input = resumePlane policy n out input := by
  simp [resumeLiteral]

theorem resumeLiteral_nil {count : Nat} (h : 0 < count) :
    resumeLiteral policy n count out [] = .err .truncated 0x00#8 out [] := by
  simp [resumeLiteral, h]

theorem resumeLiteral_append (vs input : List Byte) :
    resumeLiteral policy n vs.length out (vs ++ input) = resumePlane policy n (out ++ vs) input := by
  simp [resumeLiteral]

end

/-! ### Conforming encodings -/

/-- The length byte of a well-formed packet declares its samples, and its payload gives them (30_encoding.md R77,
R89). -/
theorem resumePacket_of_wellFormed {p : Packet} (hp : p.wellFormed = true) {policy : OvershootPolicy} {n : Nat}
    {out : List Byte} (hn : p.samples.length ≤ n - out.length) :
    ∃ b payload, p.bytes = b :: payload ∧ declaredCount b = p.samples.length ∧
      ∀ input, resumePacket policy n b out (payload ++ input) = resumePlane policy n (out ++ p.samples) input := by
  cases p with
  | literal vs =>
    simp only [Packet.wellFormed, Bool.and_eq_true, decide_eq_true_eq] at hp
    have hn : vs.length ≤ n - out.length := hn
    have hv : (BitVec.ofNat 8 (vs.length - 1)).toNat = vs.length - 1 := by rw [BitVec.toNat_ofNat]; omega
    have hd : declaredCount (BitVec.ofNat 8 (vs.length - 1)) = vs.length := by
      rw [declaredCount_eq, hv, if_pos (by omega)]; omega
    refine ⟨_, _, rfl, hd, fun input => ?_⟩
    rw [resumePacket, getLsbD_seven_eq_decide, hv, if_neg (by simp; omega), hd, Nat.min_eq_left hn]
    exact resumeLiteral_append vs input
  | repeatRun c v =>
    simp only [Packet.wellFormed, Bool.and_eq_true, decide_eq_true_eq] at hp
    have hc : (Packet.repeatRun c v).samples.length = c := List.length_replicate
    have hv : (BitVec.ofNat 8 (258 - c)).toNat = 258 - c := by rw [BitVec.toNat_ofNat]; omega
    have hd : declaredCount (BitVec.ofNat 8 (258 - c)) = c := by
      rw [declaredCount_eq, hv, if_neg (by omega)]; omega
    refine ⟨_, _, rfl, hd.trans hc.symm, fun input => ?_⟩
    rw [hc] at hn
    rw [resumePacket, getLsbD_seven_eq_decide, hv, if_pos (by simp; omega), hd, Nat.min_eq_left hn]
    rfl

theorem Packet.samples_length_pos {p : Packet} (hp : p.wellFormed = true) : 0 < p.samples.length := by
  cases p with
  | literal vs =>
    simp only [Packet.wellFormed, Bool.and_eq_true, decide_eq_true_eq] at hp
    exact hp.1
  | repeatRun c v =>
    simp only [Packet.wellFormed, Bool.and_eq_true, decide_eq_true_eq] at hp
    rw [Packet.samples, List.length_replicate]
    omega

/-- A plane goes on with its packets' samples, and takes their bytes (40_plane_decoder.md R118). -/
theorem resumePlane_planeBytes (policy : OvershootPolicy) {n : Nat} {ps : List Packet} {out : List Byte}
    (hps : ∀ p ∈ ps, p.wellFormed = true) (hn : n = out.length + (planeSamples ps).length) (rest : List Byte) :
    resumePlane policy n out (planeBytes ps ++ rest) = .ok (out ++ planeSamples ps) rest := by
  induction ps generalizing out with
  | nil =>
    rw [planeSamples_nil, List.append_nil]
    exact resumePlane_done (by simp [hn]) rest
  | cons p ps ih =>
    obtain ⟨hp, hps⟩ := List.forall_mem_cons.1 hps
    rw [planeSamples_cons, List.length_append] at hn
    have hpos := Packet.samples_length_pos hp
    obtain ⟨b, payload, hb, hd, hr⟩ :=
      resumePacket_of_wellFormed hp (policy := policy) (n := n) (out := out) (by omega)
    have hbytes : planeBytes (p :: ps) ++ rest = b :: (payload ++ (planeBytes ps ++ rest)) := by
      simp [planeBytes, hb]
    rw [hbytes, resumePlane_packet (.inl (by omega)) (by omega), hr, ih hps (by rw [List.length_append]; omega),
      planeSamples_cons, List.append_assoc]

/-- Settles O9, by induction on the packets. -/
theorem conformingPlaneDecodes : Obligations.ConformingPlaneDecodes := by
  intro policy ps rest hps
  rw [decodePlane_eq_resumePlane]
  exact resumePlane_planeBytes policy hps (by simp) rest

/-! ### A command's run, turn by turn -/

/-- t is s after the host's side of a turn of a busy block: the sequencer, the dimensions, FB and the counters stay,
`pushed` is added to IFIFO, and nothing is added once EOS is set (20_memory.md R58, R69). -/
structure State.HostMoves (s t : State) (pushed : List Byte) : Prop where
  fields : t = { s with done := t.done, endFlag := t.endFlag, cmdRej := t.cmdRej, wrRej := t.wrRej, inRej := t.inRej,
                        irqEn := t.irqEn, ififo := s.ififo ++ pushed, eos := t.eos, response := t.response,
                        draws := t.draws, sched := t.sched }
  eos : s.eos = true → t.eos = true ∧ pushed = []

/-- A busy s runs on to t, the first state that is not busy, and the host adds `pushed` to IFIFO meanwhile. -/
inductive State.BusyRun (t : State) : State → List Byte → Prop where
  | ended (hb : t.busy = false) : State.BusyRun t t []
  | host {s u : State} {pushed more : List Byte} (hi : s.Inv) (hb : s.busy = true) (hu : s.HostMoves u pushed)
      (hr : State.BusyRun t u more) : State.BusyRun t s (pushed ++ more)
  | block {s u : State} {pushed : List Byte} (hi : s.Inv) (hb : s.busy = true) (hu : blockStep s = .next u)
      (hr : State.BusyRun t u pushed) : State.BusyRun t s pushed

/-- Taking a block turn from the schedule moves nothing of the block. -/
theorem State.BlockTurn.hostMoves {s u : State} (h : s.BlockTurn u) : s.HostMoves u [] := by
  obtain ⟨rest, rfl⟩ := h.exists_sched
  exact ⟨by rw [List.append_nil], fun he => ⟨he, rfl⟩⟩

theorem State.acceptedBytes_of_eos {s : State} (h : s.eos = true) (op : HostOp) : s.acceptedBytes op = [] := by
  cases op with
  | read a => rfl
  | write a w => exact if_neg fun hc => by simp [h] at hc

/-- A host turn other than SRESET (20_memory.md R58; 42_commands.md R171). -/
theorem hostMoves_of_hostStep {s t : State} {op : HostOp} {rest : List Turn} (hb : s.busy = true)
    (hr : op ≠ .write 0x00#32 0x0000000F#32) (h : hostStep op { s with sched := rest } = .next t) :
    s.HostMoves t (s.acceptedBytes op) ∧ t.sched = rest := by
  obtain ⟨ht, _, _, he⟩ := hostStep_while_busy (s := { s with sched := rest }) hb hr h
  have hsched : t.sched = rest := by rw [ht]
  refine ⟨⟨?_, fun hs => ⟨he hs, State.acceptedBytes_of_eos hs op⟩⟩, hsched⟩
  rw [hsched]
  exact ht

section
variable {s t : State} {pushed : List Byte} (h : s.HostMoves t pushed)
include h

theorem State.HostMoves.params : t.params = s.params := by rw [h.fields]
theorem State.HostMoves.seq : t.seq = s.seq := by rw [h.fields]
theorem State.HostMoves.mode : t.mode = s.mode := by rw [h.fields]
theorem State.HostMoves.curPlane : t.curPlane = s.curPlane := by rw [h.fields]
theorem State.HostMoves.pixels : t.pixels = s.pixels := by rw [h.fields]; rfl
theorem State.HostMoves.ififo : t.ififo = s.ififo ++ pushed := by rw [h.fields]
theorem State.HostMoves.inCount : t.inCount = s.inCount := by rw [h.fields]
theorem State.HostMoves.frameCount : t.frameCount = s.frameCount := by rw [h.fields]
theorem State.HostMoves.fb : t.fb = s.fb := by rw [h.fields]
theorem State.HostMoves.busy : t.busy = s.busy := by rw [h.fields]; rfl

end

/-- The turn a busy s takes next: the block's, or a host turn other than SRESET. -/
inductive State.BusyTurn (s : State) : State → Prop where
  | block {u t : State} (hu : s.BlockTurn u) (ht : blockStep u = .next t) (hp : s.pushedNext = []) : State.BusyTurn s t
  | host {op : HostOp} {t : State} (hs : s.sched = .host op :: t.sched) (ht : s.HostMoves t s.pushedNext) :
      State.BusyTurn s t

theorem State.busyTurn_of_step {s t : State} (hb : s.busy = true) (hn : s.noSreset) (h : step s = .next t) :
    s.BusyTurn t := by
  rcases step_cases s with ⟨hs, hst⟩ | ⟨rest, hs, hst⟩ | ⟨op, rest, hs, hst⟩ <;> rw [hst] at h
  · exact .block (.inl ⟨hs, rfl⟩) h (by rw [State.pushedNext, hs])
  · exact .block (u := { s with sched := rest }) (.inr ⟨hs, rfl⟩) h (by rw [State.pushedNext, hs])
  · have hr : op ≠ .write 0x00#32 0x0000000F#32 := fun hop => hn (by rw [hs, hop]; exact List.mem_cons_self)
    obtain ⟨ht, hsched⟩ := hostMoves_of_hostStep hb hr h
    have hp : s.pushedNext = s.acceptedBytes op := by rw [State.pushedNext, hs]
    exact .host (op := op) (by rw [hs, hsched]) (hp ▸ ht)

/-- A turn leaves the rest of the schedule. -/
theorem State.BusyTurn.sched_suffix {s t : State} (h : s.BusyTurn t) : t.sched <:+ s.sched := by
  cases h with
  | block hu ht =>
    obtain ⟨_, _, _, _, _, hsched, _⟩ := blockStep_keeps ht
    rw [hsched]
    rcases hu with ⟨_, rfl⟩ | ⟨hs, _⟩
    · exact List.suffix_rfl
    · rw [hs]; exact List.suffix_cons _ _
  | host hs _ => rw [hs]; exact List.suffix_cons _ _

theorem State.BusyTurn.noSreset {s t : State} (h : s.BusyTurn t) (hn : s.noSreset) : t.noSreset :=
  fun hm => hn (h.sched_suffix.subset hm)

theorem nextState?_eq_some {o : Host.Outcome State Fault Refusal} {s : State} : nextState? o = some s ↔ o = .next s := by
  cases o <;> simp [nextState?]

theorem runBusy_succ_eq_some {k : Nat} {s t : State} :
    runBusy (k + 1) s = some t ↔ s.busy = true ∧ ∃ u, step s = .next u ∧ runBusy k u = some t := by
  rw [runBusy]
  cases s.busy <;> simp [Option.bind_eq_some_iff, nextState?_eq_some]

theorem runSteps_of_runBusy {k : Nat} {s t : State} (h : runBusy k s = some t) : runSteps k s = some t := by
  induction k generalizing s with
  | zero => exact h
  | succ k ih =>
    obtain ⟨_, u, hu, hk⟩ := runBusy_succ_eq_some.1 h
    rw [runSteps, hu]
    exact ih hk

/-- Turns that run to the first state that is not busy are a command's run. -/
theorem State.busyRun_of_runBusy {s t : State} {k : Nat} (hi : s.Inv) (hn : s.noSreset) (h : runBusy k s = some t)
    (ht : t.busy = false) : State.BusyRun t s (pushedIn k s) := by
  induction k generalizing s with
  | zero =>
    obtain rfl := Option.some.inj h
    exact .ended ht
  | succ k ih =>
    obtain ⟨hb, u, hu, hk⟩ := runBusy_succ_eq_some.1 h
    have hturn := State.busyTurn_of_step hb hn hu
    have hrun := ih (stepKeepsInvariant s u hi hu) (hturn.noSreset hn) hk
    have hpush : pushedIn (k + 1) s = s.pushedNext ++ pushedIn k u := by rw [pushedIn, hu]; rfl
    rw [hpush]
    cases hturn with
    | block hu ht hp =>
      obtain ⟨rest, rfl⟩ := hu.exists_sched
      rw [hp]
      exact .host hi hb hu.hostMoves (.block (hi.withSched rest) hb ht hrun)
    | host _ ht => exact .host hi hb ht hrun

namespace State.BusyRun
variable {s t : State} {pushed : List Byte}

/-- A state that is not busy has already ended. -/
theorem of_not_busy (h : State.BusyRun t s pushed) (hb : s.busy = false) : s = t ∧ pushed = [] := by
  cases h with
  | ended => exact ⟨rfl, rfl⟩
  | host _ hb' | block _ hb' => exact absurd (hb.symm.trans hb') nofun

/-- After EOS every push is dropped (42_commands.md R177). -/
theorem pushed_of_eos (h : State.BusyRun t s pushed) (he : s.eos = true) : pushed = [] := by
  induction h with
  | ended => rfl
  | host _ _ hu _ ih =>
    obtain ⟨heu, rfl⟩ := hu.eos he
    exact ih heu
  | block _ _ hu _ ih =>
    obtain ⟨_, _, _, _, heos, _⟩ := blockStep_keeps hu
    exact ih (heos.trans he)

end State.BusyRun

/-! ### How long a command runs and how much it reads -/

/-- The samples a frame needs in the planes after the one in progress. -/
def State.laterNeed (s : State) : Nat :=
  match s.mode, s.curPlane with
  | .frame, .red => 2 * s.pixels
  | .frame, .green => s.pixels
  | _, _ => 0

/-- What a decode takes after the run in progress, at f + 2 for each sample: a repeat of one sample takes a length
byte, a value byte and f for the sample, and no packet takes more for a sample. -/
def State.afterRun (f : Nat) (s : State) : Nat := (f + 2) * (s.remaining - s.runLeft.toNat + s.laterNeed)

/-- What a command still takes at most, where a step that reads a byte costs 1 and any other step f: block turns with
f = 1, and bytes with f = 0 (40_plane_decoder.md R117). -/
def State.budget (f : Nat) (s : State) : Nat :=
  match s.seq with
  | .idle | .error => 0
  | .marker => 1 + (f + 2) * (3 * s.pixels)
  | .hdr => (f + 2) * (s.remaining + s.laterNeed)
  | .lit => s.runLeft.toNat + s.afterRun f
  | .repv => 1 + f * s.runLeft.toNat + s.afterRun f
  | .fill => f * s.runLeft.toNat + s.afterRun f
  | .grade => f * s.remaining

/-- The cost of a block turn in `State.budget`. -/
def State.turnCost (f : Nat) (s : State) : Nat := if s.seq.readsInput then 1 else f

@[simp] theorem State.turnCost_one (s : State) : s.turnCost 1 = 1 := ite_self 1

section
variable {f : Nat} {s t : State} {pushed : List Byte}

theorem State.HostMoves.budget (h : s.HostMoves t pushed) (f : Nat) : t.budget f = s.budget f := by
  rw [h.fields]; rfl

theorem State.budget_idle (hs : s.seq = .idle) : s.budget f = 0 := by rw [State.budget, hs]
theorem State.budget_error (hs : s.seq = .error) : s.budget f = 0 := by rw [State.budget, hs]
theorem State.budget_marker (hs : s.seq = .marker) : s.budget f = 1 + (f + 2) * (3 * s.pixels) := by
  rw [State.budget, hs]
theorem State.budget_hdr (hs : s.seq = .hdr) : s.budget f = (f + 2) * (s.remaining + s.laterNeed) := by
  rw [State.budget, hs]
theorem State.budget_lit (hs : s.seq = .lit) : s.budget f = s.runLeft.toNat + s.afterRun f := by
  rw [State.budget, hs]
theorem State.budget_repv (hs : s.seq = .repv) : s.budget f = 1 + f * s.runLeft.toNat + s.afterRun f := by
  rw [State.budget, hs]
theorem State.budget_fill (hs : s.seq = .fill) : s.budget f = f * s.runLeft.toNat + s.afterRun f := by
  rw [State.budget, hs]
theorem State.budget_grade (hs : s.seq = .grade) : s.budget f = f * s.remaining := by rw [State.budget, hs]

/-- A step that reads input costs what is left at most. -/
theorem State.Inv.budget_pos (hi : s.Inv) (hr : s.seq.readsInput = true) : 1 ≤ s.budget f := by
  have hq := hi.sequencer
  rcases Seq.eq_cases s.seq with (hs | hs | hs | hs) | (hs | hs | hs | hs)
  · simp [hs, Seq.readsInput] at hr
  · simp [hs, Seq.readsInput] at hr
  · simp [hs, Seq.readsInput] at hr
  · simp [hs, Seq.readsInput] at hr
  · rw [State.budget_marker hs]; omega
  · rw [State.budget_hdr hs]
    have hc := (State.seqInv_hdr hs).1 hq
    exact Nat.mul_pos (by omega) (by simp only [State.remaining]; omega)
  · rw [State.budget_lit hs]
    have := (State.seqInv_lit hs).1 hq
    omega
  · rw [State.budget_repv hs]; omega

/-- The plane's end takes nothing: another plane's samples were counted before (40_plane_decoder.md R109). -/
theorem State.planeEnd_budget (f : Nat) (s : State) : s.planeEnd.budget f ≤ (f + 2) * (s.remaining + s.laterNeed) := by
  rcases s.planeEnd_cases with ⟨_, h⟩ | ⟨_, _, h⟩ | ⟨c, _, hm, hc, h⟩ | ⟨_, _, _, h⟩ <;> rw [h]
  · exact Nat.le_of_eq (State.budget_hdr rfl)
  · exact (Nat.le_of_eq (State.budget_idle rfl)).trans (Nat.zero_le _)
  · rw [State.budget_hdr rfl]
    refine Nat.mul_le_mul_left _ ?_
    cases hp : s.curPlane with
    | red => cases hp ▸ hc; simp [State.remaining, State.laterNeed, State.pixels, hm, hp]; omega
    | green => cases hp ▸ hc; simp [State.remaining, State.laterNeed, State.pixels, hm, hp]
    | blue => cases hp ▸ hc
  · exact (Nat.le_of_eq (State.budget_idle rfl)).trans (Nat.zero_le _)

/-- What a sample leaves of its run (40_plane_decoder.md R107, R108). -/
theorem State.Inv.withSample_counters (hi : s.Inv) (hs : s.seq = .lit ∨ s.seq = .fill) (v : Byte) :
    (s.withSample v).cnt.toNat = s.cnt.toNat + 1 ∧ (s.withSample v).runLeft.toNat + 1 = s.runLeft.toNat ∧
      s.cnt.toNat + s.runLeft.toNat ≤ s.pixels := by
  have hb : s.busy = true := by rcases hs with hs | hs <;> exact State.busy_of_seq hs nofun nofun
  have hr : 1 ≤ s.runLeft.toNat ∧ s.cnt.toNat + s.runLeft.toNat ≤ s.pixels := by
    rcases hs with hs | hs
    · have := (State.seqInv_lit hs).1 hi.sequencer; omega
    · have := (State.seqInv_repeat (.inr hs)).1 hi.sequencer; omega
  have hrun : (s.withSample v).runLeft.toNat = s.runLeft.toNat - 1 := BitVec.toNat_sub_of_le hr.1
  exact ⟨hi.cnt_succ hb (by omega), by omega, hr.2⟩

/-- The state after a sample: the run goes on, or it is over and PlaneEnd runs (40_plane_decoder.md R107, R108). -/
theorem State.Inv.produceSample_cases (hi : s.Inv) (hs : s.seq = .lit ∨ s.seq = .fill) {v : Byte}
    (ht : s.produceSample v = .next t) :
    (s.runLeft.toNat = 1 ∧ (s.withSample v).runLeft.toNat = 0 ∧ t = (s.withSample v).planeEnd) ∨
    (1 < s.runLeft.toNat ∧ t = s.withSample v) := by
  have hc := hi.cnt_lt_maxPixels (by rcases hs with hs | hs <;> simp [hs])
  rw [State.produceSample_of_lt v hc] at ht
  obtain rfl := Host.Outcome.next.inj ht
  obtain ⟨_, hr, _⟩ := hi.withSample_counters hs v
  by_cases h0 : (s.withSample v).runLeft = 0
  · have h0' : (s.withSample v).runLeft.toNat = 0 := congrArg BitVec.toNat h0
    exact .inl ⟨by omega, h0', if_pos h0⟩
  · have hne : (s.withSample v).runLeft.toNat ≠ 0 := fun h => h0 (BitVec.eq_of_toNat_eq h)
    exact .inr ⟨by omega, if_neg h0⟩

/-- A sample costs its part of the run's share. -/
theorem State.Inv.produceSample_budget (hi : s.Inv) (hs : s.seq = .lit ∨ s.seq = .fill) {v : Byte}
    (ht : s.produceSample v = .next t) :
    t.budget f + (if s.seq = .lit then 1 else f) ≤ s.budget f := by
  obtain ⟨hc, hr, hfit⟩ := hi.withSample_counters hs v
  have hrem : (s.withSample v).remaining = s.remaining - 1 := by
    rw [State.remaining, hc, Nat.sub_add_eq]; rfl
  have hafter : (s.withSample v).afterRun f = s.afterRun f := by
    have hneed : (s.withSample v).remaining - (s.withSample v).runLeft.toNat = s.remaining - s.runLeft.toNat := by
      omega
    rw [State.afterRun, hneed]; rfl
  have hrun : s.budget f = (if s.seq = .lit then 1 else f) * s.runLeft.toNat + s.afterRun f := by
    rcases hs with hs | hs
    · rw [State.budget_lit hs, if_pos hs, Nat.one_mul]
    · rw [State.budget_fill hs, if_neg (by simp [hs])]
  rcases hi.produceSample_cases hs ht with ⟨h1, h0, rfl⟩ | ⟨_, rfl⟩
  · have hend := (s.withSample v).planeEnd_budget f
    have hleft : (f + 2) * ((s.withSample v).remaining + (s.withSample v).laterNeed) = s.afterRun f := by
      rw [← hafter, State.afterRun, h0, Nat.sub_zero]
    rw [hrun, h1]
    omega
  · have hgo : (s.withSample v).budget f =
        (if s.seq = .lit then 1 else f) * (s.withSample v).runLeft.toNat + s.afterRun f := by
      rw [← hafter]
      rcases hs with hs | hs
      · rw [State.budget_lit (s := s.withSample v) hs, if_pos hs, Nat.one_mul]
      · rw [State.budget_fill (s := s.withSample v) hs, if_neg (by simp [hs])]
    rw [hgo, hrun, ← hr, Nat.mul_succ]
    omega

end

section
variable {f : Nat} {s t : State} {pushed : List Byte}

/-- The length-byte step costs 1, and its run no more than its samples did (40_plane_decoder.md R106). -/
theorem State.Inv.startRun_budget (hi : s.Inv) (hs : s.seq = .hdr) (b : Byte) (f : Nat) :
    (s.startRun (if b.getLsbD 7 then .repv else .lit) (declaredCount b) b).budget f + 1 ≤ s.budget f := by
  have hc := (State.seqInv_hdr hs).1 hi.sequencer
  obtain ⟨hd, hmax, _⟩ := declaredCount_bounds b
  have hrem : 1 ≤ s.remaining := Nat.sub_pos_of_lt hc
  rcases s.startRun_cases (if b.getLsbD 7 then .repv else .lit) (declaredCount b) b with ⟨_, _, ht⟩ | ⟨_, ht⟩ <;>
    rw [ht]
  · rw [State.budget_error rfl]
    exact hi.budget_pos (by rw [hs]; rfl)
  · obtain ⟨m, hm⟩ : ∃ m, m = min (declaredCount b) s.remaining := ⟨_, rfl⟩
    have hrun : (BitVec.ofNat 8 m).toNat = m := by rw [BitVec.toNat_ofNat]; omega
    have hsum : s.remaining + s.laterNeed = s.remaining - m + s.laterNeed + m := by omega
    have hshare : s.budget f = (f + 2) * (s.remaining - m + s.laterNeed) + (f * m + 2 * m) := by
      rw [State.budget_hdr hs, hsum, Nat.mul_add, Nat.add_mul f 2 m]
    have hafter : ({ s with runLeft := BitVec.ofNat 8 m } : State).afterRun f =
        (f + 2) * (s.remaining - m + s.laterNeed) := by
      rw [State.afterRun, hrun]; rfl
    rw [← hm, hshare, ← hafter]
    cases b.getLsbD 7 with
    | true =>
      have hcost : State.budget f { s with runLeft := BitVec.ofNat 8 m, seq := .repv } =
          1 + f * m + ({ s with runLeft := BitVec.ofNat 8 m } : State).afterRun f := by
        rw [State.budget_repv rfl, hrun]; rfl
      rw [if_pos rfl, hcost]
      omega
    | false =>
      have hcost : State.budget f { s with runLeft := BitVec.ofNat 8 m, seq := .lit } =
          m + ({ s with runLeft := BitVec.ofNat 8 m } : State).afterRun f := by
        rw [State.budget_lit rfl, hrun]; rfl
      rw [if_neg nofun, hcost]
      omega

/-- A pixel costs its share (41_color_grader.md R149, R150). -/
theorem State.Inv.advanceGrade_budget (hi : s.Inv) (hs : s.seq = .grade) (f : Nat) :
    s.advanceGrade.budget f + f ≤ s.budget f := by
  have hc := (State.seqInv_grade hs).1 hi.sequencer
  have hcnt := hi.cnt_succ (State.busy_of_seq hs nofun nofun) hc
  have hshare : s.budget f = f * (s.pixels - (s.cnt.toNat + 1)) + f := by
    have hrem : s.remaining = s.pixels - (s.cnt.toNat + 1) + 1 := by rw [State.remaining]; omega
    rw [State.budget_grade hs, hrem, Nat.mul_succ]
  rcases s.advanceGrade_cases with ⟨_, ht⟩ | ⟨_, ht⟩ <;> rw [ht]
  · rw [State.budget_idle rfl, hshare]
    omega
  · rw [State.budget_grade (s := { s with cnt := s.cnt + 1 }) hs, hshare, State.remaining, hcnt]
    rfl

/-- Every turn of a busy block that does not hold pays its cost (40_plane_decoder.md R117). -/
theorem blockStep_budget (hi : s.Inv) (hb : s.busy = true) (hh : s.holding = false)
    (ht : blockStep s = .next t) (f : Nat) : t.budget f + s.turnCost f ≤ s.budget f := by
  have cost : ∀ {q}, s.seq = q → s.turnCost f = if q.readsInput then 1 else f := fun hs => by
    rw [State.turnCost, hs]
  rcases blockStep_cases ht with ⟨hw, rfl⟩ | ⟨hr, _, _, rfl⟩ | ⟨q, hs, hq, rfl⟩ | ⟨q, hs, hq, rfl⟩ |
    ⟨b, q, hs, hq, _, _, rfl⟩ | ⟨b, q, hs, hq, rfl⟩ | ⟨b, q, hs, hq, _, _⟩ | ⟨b, q, hs, hq, rfl⟩ |
    ⟨hs, _, _⟩ | ⟨hs, hc, rfl⟩
  · rcases hw with hs | hs | ⟨hr, hq, he⟩
    · exact absurd hs (State.seq_ne_of_busy hb).1
    · exact absurd hs (State.seq_ne_of_busy hb).2
    · simp [State.holding, hr, hq, he] at hh
  · rw [State.budget_error rfl, State.turnCost, if_pos hr, Nat.zero_add]
    exact hi.budget_pos hr
  · have hm : s.mode = .frame := by
      have hq := hi.sequencer
      rw [State.seqInv, hs] at hq
      exact hq.1
    rw [State.budget_hdr rfl, State.budget_marker hs, cost hs]
    have hneed : s.pixels + 2 * s.pixels = 3 * s.pixels := by omega
    have hall : State.remaining { s.consumed q with curPlane := .red, cnt := 0, seq := .hdr } +
        State.laterNeed { s.consumed q with curPlane := .red, cnt := 0, seq := .hdr } = 3 * s.pixels := by
      rw [← hneed]
      simp [State.remaining, State.laterNeed, State.pixels, hm]
    rw [hall, Nat.add_comm]
    rfl
  · rw [State.budget_idle rfl, State.budget_marker hs, cost hs, Nat.zero_add]
    exact Nat.le_add_right _ _
  · rw [State.budget_error rfl, State.budget_marker hs, cost hs, Nat.zero_add]
    exact Nat.le_add_right _ _
  · rw [cost hs]
    exact (hi.consumed hq).startRun_budget hs b f
  · rw [blockStep_lit hs hq] at ht
    have h := (hi.consumed hq).produceSample_budget (f := f) (.inl hs) ht
    simp only [State.consumed_seq, hs, if_true] at h
    rw [cost hs]
    exact h
  · have hfill : State.budget f { s.consumed q with runVal := b, seq := .fill } =
        f * s.runLeft.toNat + s.afterRun f := State.budget_fill rfl
    rw [hfill, State.budget_repv hs, cost hs]
    simp only [Seq.readsInput, if_true]
    omega
  · rw [blockStep_fill hs] at ht
    have h := hi.produceSample_budget (f := f) (.inr hs) ht
    rw [if_neg (by simp [hs])] at h
    rw [cost hs]
    exact h
  · rw [cost hs]
    exact (hi.writePixel _ hc).advanceGrade_budget hs f

/-- A hold keeps everything, so no turn of a busy block makes the budget larger. -/
theorem blockStep_budget_le (hi : s.Inv) (hb : s.busy = true) (ht : blockStep s = .next t) (f : Nat) :
    t.budget f ≤ s.budget f := by
  by_cases hh : s.holding = true
  · simp only [State.holding, Bool.and_eq_true, List.isEmpty_iff, Bool.not_eq_true'] at hh
    obtain ⟨⟨hr, hq⟩, he⟩ := hh
    rw [blockStep_hold hr hq he] at ht
    rw [Host.Outcome.next.inj ht]
  · have := blockStep_budget hi hb (by simpa using hh) ht f
    omega

/-- Only the STATEs that read input take a byte (40_plane_decoder.md R102). -/
theorem readsInput_of_blockStep_takes {b : Byte} (ht : blockStep s = .next t) (hq : s.ififo = b :: t.ififo) :
    s.seq.readsInput = true := by
  have hne : t.ififo ≠ s.ififo := fun h => by simp [← h] at hq
  rcases Seq.eq_cases s.seq with (hs | hs | hs | hs) | (hs | hs | hs | hs)
  · rw [blockStep_idle hs] at ht
    exact absurd (congrArg State.ififo (Host.Outcome.next.inj ht).symm) hne
  · rw [blockStep_error hs] at ht
    exact absurd (congrArg State.ififo (Host.Outcome.next.inj ht).symm) hne
  · rw [blockStep_fill hs] at ht
    rcases s.produceSample_cases s.runVal with ⟨_, hp⟩ | ⟨_, hp⟩ <;> rw [hp] at ht <;> cases ht
    obtain ⟨_, _, _, _, _, _, h, _⟩ := State.advanceRun_keeps { s with fb := Memory.write s.fb s.writeIndex s.runVal }
    exact absurd h hne
  · rw [blockStep_grade hs] at ht
    split at ht <;> cases ht
    refine absurd ?_ hne
    rcases State.advanceGrade_cases
      { s with fb := Memory.writePixel s.fb s.cnt.toNat (gradePixel s.gradeReg (s.pixelAt s.cnt.toNat)) }
      with ⟨_, h⟩ | ⟨_, h⟩ <;> rw [h]
    rfl
  all_goals rw [hs]; rfl

/-- A command consumes the first bytes of its stream, counts each, and takes no more than its budget
(00_scope.md R13; 40_plane_decoder.md R117). -/
theorem State.BusyRun.consumes (h : State.BusyRun t s pushed) :
    ∃ used, s.ififo ++ pushed = used ++ t.ififo ∧ t.inCount = s.inCount + BitVec.ofNat 32 used.length ∧
      used.length ≤ s.budget 0 := by
  induction h with
  | ended => exact ⟨[], by simp, by simp, Nat.zero_le _⟩
  | host _ _ hu _ ih =>
    obtain ⟨used, hq, hc, hle⟩ := ih
    exact ⟨used, by rw [← hq, hu.ififo, List.append_assoc], by rw [hc, hu.inCount], hu.budget 0 ▸ hle⟩
  | @block s u pushed hi hb hu _ ih =>
    obtain ⟨used, hq, hc, hle⟩ := ih
    have hmono := blockStep_budget_le hi hb hu 0
    obtain ⟨_, _, _, _, _, _, ⟨hsame, hn⟩ | ⟨b, htake, hn⟩⟩ := blockStep_keeps hu
    · exact ⟨used, by rw [← hsame, hq], by rw [hc, hn], hle.trans hmono⟩
    · have hr := readsInput_of_blockStep_takes hu htake
      have hpay := blockStep_budget hi hb (by simp [State.holding, htake]) hu 0
      rw [State.turnCost, if_pos hr] at hpay
      refine ⟨b :: used, by rw [htake, List.cons_append, hq, List.cons_append], ?_, by rw [List.length_cons]; omega⟩
      rw [hc, hn, List.length_cons, BitVec.ofNat_add, BitVec.add_assoc, BitVec.add_comm (1 : BitVec 32)]
      rfl

end

/-! ### A command whose input does not run out ends -/

/-- P says of a busy block that it does not hold, and the turns of its command keep P. -/
structure NeverHolds (P : State → Prop) : Prop where
  holding : ∀ {s : State}, P s → s.Inv → s.holding = false
  host : ∀ {s t : State} {pushed : List Byte}, P s → s.HostMoves t pushed → P t
  block : ∀ {s t : State}, P s → s.Inv → blockStep s = .next t → t.busy = true → P t

/-- After EOS no step holds, and EOS stays set (00_scope.md R13; 20_memory.md R69). -/
theorem neverHolds_of_eos : NeverHolds fun s => s.eos = true where
  holding := fun he _ => by simp [State.holding, he]
  host := fun he h => (h.eos he).1
  block := fun he _ ht _ => by
    obtain ⟨_, _, _, _, heos, _⟩ := blockStep_keeps ht
    exact heos.trans he

/-- A command that never holds ends within its budget of block turns: a block turn pays its cost, and a host turn
shortens the schedule (40_plane_decoder.md R117; 70_reset_and_hazards.md R240). -/
theorem NeverHolds.exists_runBusy {P : State → Prop} (hP : NeverHolds P) {s : State} (hi : s.Inv) (hn : s.noSreset)
    (hs : s.busy = true → P s) :
    ∃ k t, blockTurns k s.sched ≤ s.budget 1 ∧ runBusy k s = some t ∧ t.busy = false := by
  induction hm : s.budget 1 + s.sched.length using Nat.strong_induction_on generalizing s with
  | _ m ih =>
    cases hb : s.busy with
    | false => exact ⟨0, s, Nat.zero_le _, rfl, hb⟩
    | true =>
      obtain ⟨t, ht⟩ := stepNeverStops s hi
      have hit := stepKeepsInvariant s t hi ht
      have hturn := State.busyTurn_of_step hb hn ht
      have hlen := hturn.sched_suffix.length_le
      have hnt := hturn.noSreset hn
      cases hturn with
      | @block u _ hu htu _ =>
        have hPu := hP.host (hs hb) hu.hostMoves
        have hiu : u.Inv := by obtain ⟨rest, rfl⟩ := hu.exists_sched; exact hi.withSched rest
        have hpay := blockStep_budget hiu (hu.hostMoves.busy.trans hb) (hP.holding hPu hiu) htu 1
        rw [State.turnCost_one, hu.hostMoves.budget] at hpay
        obtain ⟨k, e, hk, hrun, he⟩ := ih _ (by omega) hit hnt (hP.block hPu hiu htu) rfl
        have hsched : t.sched = u.sched := by
          obtain ⟨_, _, _, _, _, h, _⟩ := blockStep_keeps htu
          exact h
        refine ⟨k + 1, e, ?_, runBusy_succ_eq_some.2 ⟨hb, t, ht, hrun⟩, he⟩
        rw [blockTurns_of_blockTurn hu, ← hsched]
        omega
      | host hsched hu =>
        have hbud := hu.budget 1
        obtain ⟨k, e, hk, hrun, he⟩ := ih _ (by rw [← hm, hsched, hbud, List.length_cons]; omega) hit hnt
          (fun _ => hP.host (hs hb) hu) rfl
        refine ⟨k + 1, e, ?_, runBusy_succ_eq_some.2 ⟨hb, t, ht, hrun⟩, he⟩
        rw [hsched, blockTurns_host]
        omega

section
variable {s t : State}

/-- The counters of a sample reach IDLE only with DONE (40_plane_decoder.md R109, R110). -/
theorem State.advanceRun_done (hs : s.seq ≠ .idle) (h : s.advanceRun.seq = .idle) : s.advanceRun.done = true := by
  rcases s.advanceRun_cases with ⟨_, ht⟩ | ⟨_, ht⟩ <;> rw [ht] at h ⊢
  · rcases s.countSample.planeEnd_cases with ⟨_, hp⟩ | ⟨_, _, hp⟩ | ⟨_, _, _, _, hp⟩ | ⟨_, _, _, hp⟩ <;> rw [hp] at h ⊢
    · cases h
    · rfl
    · cases h
    · rfl
  · exact absurd h hs

/-- A block turn reaches IDLE only with DONE: no command fails silently (70_reset_and_hazards.md R240). -/
theorem blockStep_done (ht : blockStep s = .next t) (hs : s.seq ≠ .idle) (h : t.seq = .idle) : t.done = true := by
  rcases blockStep_cases ht with ⟨_, rfl⟩ | ⟨_, _, _, rfl⟩ | ⟨q, _, _, rfl⟩ | ⟨q, _, _, rfl⟩ |
    ⟨b, q, _, _, _, _, rfl⟩ | ⟨b, q, _, _, rfl⟩ | ⟨b, q, _, _, _, rfl⟩ | ⟨b, q, _, _, rfl⟩ | ⟨_, _, rfl⟩ |
    ⟨_, _, rfl⟩
  · exact absurd h hs
  · cases h
  · cases h
  · rfl
  · cases h
  · rcases State.startRun_cases (if b.getLsbD 7 then .repv else .lit) (declaredCount b) b (s.consumed q)
      with ⟨_, _, hr⟩ | ⟨_, hr⟩ <;> rw [hr] at h
    · cases h
    · split at h <;> cases h
  · exact State.advanceRun_done hs h
  · cases h
  · exact State.advanceRun_done hs h
  · obtain ⟨_, _, _, hd⟩ := State.advanceGrade_keeps
      { s with fb := Memory.writePixel s.fb s.cnt.toNat (gradePixel s.gradeReg (s.pixelAt s.cnt.toNat)) }
    rcases State.advanceGrade_cases
      { s with fb := Memory.writePixel s.fb s.cnt.toNat (gradePixel s.gradeReg (s.pixelAt s.cnt.toNat)) }
      with ⟨_, hg⟩ | ⟨_, hg⟩ <;> rw [hg] at h ⊢
    · rfl
    · exact absurd h hs

theorem State.BusyRun.commandEnded {pushed : List Byte} (h : State.BusyRun t s pushed) (hb : s.busy = true) :
    t.commandEnded := by
  induction h with
  | ended hb' => exact absurd (hb'.symm.trans hb) nofun
  | host _ _ hu _ ih => exact ih (hu.busy.trans hb)
  | @block s u _ _ _ hu hr ih =>
    cases hbu : u.busy with
    | true => exact ih hbu
    | false =>
      obtain ⟨rfl, _⟩ := hr.of_not_busy hbu
      exact (u.busy_eq_false_iff.1 hbu).imp_left fun hidle =>
        ⟨hidle, blockStep_done hu (State.seq_ne_of_busy hb).1 hidle⟩

/-- A command takes 9N + 1 block turns at most (40_plane_decoder.md R117). -/
theorem State.Inv.budget_one_le (hi : s.Inv) : s.budget 1 ≤ 9 * s.pixels + 1 := by
  have hq := hi.sequencer
  have hlater : s.laterNeed ≤ 2 * s.pixels := by unfold State.laterNeed; split <;> omega
  have hrem : s.remaining = s.pixels - s.cnt.toNat := rfl
  rcases Seq.eq_cases s.seq with (hs | hs | hs | hs) | (hs | hs | hs | hs)
  · rw [State.budget_idle hs]; omega
  · rw [State.budget_error hs]; omega
  · have := (State.seqInv_repeat (.inr hs)).1 hq
    rw [State.budget_fill hs, State.afterRun]; omega
  · rw [State.budget_grade hs]; omega
  · rw [State.budget_marker hs]; omega
  · rw [State.budget_hdr hs]; omega
  · have := (State.seqInv_lit hs).1 hq
    rw [State.budget_lit hs, State.afterRun]; omega
  · have := (State.seqInv_repeat (.inl hs)).1 hq
    rw [State.budget_repv hs, State.afterRun]; omega

end

/-- Settles O39: after EOS no step holds, so the command ends within its budget of block turns. -/
theorem everyCommandEnds : Obligations.EveryCommandEnds := by
  intro s hi hb he hn
  obtain ⟨k, t, hk, hrun, ht⟩ := neverHolds_of_eos.exists_runBusy hi hn fun _ => he
  exact ⟨k, t, hk.trans hi.budget_one_le, runSteps_of_runBusy hrun,
    (State.busyRun_of_runBusy hi hn hrun ht).commandEnded hb⟩

/-! ### A plane in progress, and what its result will be -/

/-- The first n samples of plane c, as FB holds them (10_state.md R31). -/
def State.samplesIn (s : State) (c : Plane) (n : Nat) : List Byte :=
  (List.range n).map fun i => s.fbByte (sampleIndex c i)

/-- The samples the plane in progress has produced. -/
def State.produced (s : State) : List Byte := s.samplesIn s.curPlane s.cnt.toNat

/-- Do the block's steps in this STATE decode a plane? (40_plane_decoder.md R102.) -/
def Seq.inPlane : Seq → Bool
  | .hdr | .lit | .repv | .fill => true
  | .idle | .marker | .grade | .error => false

/-- What the plane in progress comes to if `input` is all that the block reads from here on: decodePlane, resumed where
STATE stands. -/
def State.planeResult (s : State) (input : List Byte) : PlaneResult :=
  match s.seq with
  | .lit => resumeLiteral s.params.overshoot s.pixels s.runLeft.toNat s.produced input
  | .repv => resumeRepeat s.params.overshoot s.pixels s.runLeft.toNat s.produced input
  | .fill =>
    resumePlane s.params.overshoot s.pixels (s.produced ++ List.replicate s.runLeft.toNat s.runVal) input
  | _ => resumePlane s.params.overshoot s.pixels s.produced input

/-- t decodes the plane s decodes, and has the bytes of s in the other planes and where the command may not write. -/
structure State.SamePlane (s t : State) : Prop where
  params : t.params = s.params
  width : t.width = s.width
  height : t.height = s.height
  mode : t.mode = s.mode
  curPlane : t.curPlane = s.curPlane
  endFlag : t.endFlag = s.endFlag
  frameCount : t.frameCount = s.frameCount
  otherPlanes : ∀ c, c ≠ s.curPlane → ∀ i, t.fbByte (sampleIndex c i) = s.fbByte (sampleIndex c i)
  outside : ∀ j, ¬ s.mayWrite j → t.fbByte j = s.fbByte j

/-- What a block turn does to a plane in progress, whatever bytes `more` are still to come. -/
inductive State.PlaneTurn (s : State) : State → Prop where
  /-- The plane goes on, to the same result. -/
  | goesOn {t : State} (hs : t.seq.inPlane = true) (hp : s.SamePlane t)
      (hr : ∀ more, s.planeResult (s.ififo ++ more) = t.planeResult (t.ififo ++ more)) : State.PlaneTurn s t
  /-- The last sample is produced, and PlaneEnd runs. -/
  | completes {v : State} (hp : s.SamePlane v) (hc : v.cnt.toNat = s.pixels)
      (hr : ∀ more, s.planeResult (s.ififo ++ more) = .ok v.produced (v.ififo ++ more)) :
      State.PlaneTurn s v.planeEnd
  /-- The plane fails in u, which has read its bytes. -/
  | fails {u : State} {code : ErrCode} {byte : Byte} (hp : s.SamePlane u)
      (hr : ∀ more, (s.eos = true → more = []) →
        s.planeResult (s.ififo ++ more) = .err code byte u.produced (u.ififo ++ more)) :
      State.PlaneTurn s (u.blockError code byte)

section
variable {s t : State}

theorem State.SamePlane.pixels (h : s.SamePlane t) : t.pixels = s.pixels := by
  rw [State.pixels, h.width, h.height, State.pixels]

/-- What the command may write depends on the plane alone. -/
theorem State.SamePlane.mayWrite_iff (h : s.SamePlane t) (j : Nat) : t.mayWrite j ↔ s.mayWrite j := by
  rw [State.mayWrite, h.mode, h.pixels, h.curPlane, State.mayWrite]

theorem State.samePlane_refl (s : State) : s.SamePlane s :=
  ⟨rfl, rfl, rfl, rfl, rfl, rfl, rfl, fun _ _ _ => rfl, fun _ _ => rfl⟩

/-- The state after bytes were read decodes the same plane. -/
theorem State.samePlane_consumed (s : State) (q : List Byte) : s.SamePlane (s.consumed q) := { s.samePlane_refl with }

theorem State.SamePlane.trans {u : State} (h : s.SamePlane u) (h' : u.SamePlane t) : s.SamePlane t where
  params := h'.params.trans h.params
  width := h'.width.trans h.width
  height := h'.height.trans h.height
  mode := h'.mode.trans h.mode
  curPlane := h'.curPlane.trans h.curPlane
  endFlag := h'.endFlag.trans h.endFlag
  frameCount := h'.frameCount.trans h.frameCount
  otherPlanes := fun c hc i => (h'.otherPlanes c (h.curPlane ▸ hc) i).trans (h.otherPlanes c hc i)
  outside := fun j hj => (h'.outside j (mt (h.mayWrite_iff j).1 hj)).trans (h.outside j hj)

@[simp] theorem State.samplesIn_length (s : State) (c : Plane) (n : Nat) : (s.samplesIn c n).length = n := by
  simp [State.samplesIn]

@[simp] theorem State.produced_length (s : State) : s.produced.length = s.cnt.toNat := s.samplesIn_length _ _

theorem State.samplesIn_congr {c : Plane} {n : Nat}
    (h : ∀ i, i < n → t.fbByte (sampleIndex c i) = s.fbByte (sampleIndex c i)) :
    t.samplesIn c n = s.samplesIn c n :=
  List.map_congr_left fun i hi => h i (List.mem_range.1 hi)

theorem State.getElem?_samplesIn {c : Plane} {n i : Nat} (h : i < n) :
    (s.samplesIn c n)[i]? = some (s.fbByte (sampleIndex c i)) := by
  simp [State.samplesIn, h]

theorem Plane.index_inj {c d : Plane} (h : c.index = d.index) : c = d := by
  cases c <;> cases d <;> simp [Plane.index] at h ⊢

/-- The samples of two planes stand in different bytes (40_plane_decoder.md R114). -/
theorem sampleIndex_inj {c d : Plane} {i j : Nat} (h : sampleIndex c i = sampleIndex d j) : c = d ∧ i = j := by
  have hlt : ∀ p : Plane, p.index < 3 := fun p => by cases p <;> decide
  have hc := hlt c
  have hd := hlt d
  simp only [sampleIndex] at h
  exact ⟨Plane.index_inj (by omega), by omega⟩

theorem State.fbByte_withSample_sample (s : State) (v : Byte) (c : Plane) (i : Nat) :
    (s.withSample v).fbByte (sampleIndex c i) =
      if c = s.curPlane ∧ i = s.cnt.toNat then v else s.fbByte (sampleIndex c i) := by
  have hiff : sampleIndex c i = sampleIndex s.curPlane s.cnt.toNat ↔ c = s.curPlane ∧ i = s.cnt.toNat :=
    ⟨sampleIndex_inj, fun ⟨hc, hi⟩ => by rw [hc, hi]⟩
  rw [← if_congr hiff rfl rfl]
  exact s.fbByte_withSample v _

theorem State.mayWrite_writeIndex (h : s.cnt.toNat < s.pixels) : s.mayWrite s.writeIndex := by
  unfold State.mayWrite
  cases s.mode with
  | plane => exact ⟨_, h, rfl⟩
  | frame => exact sampleIndex_lt h

/-- A sample stays in the plane (40_plane_decoder.md R114, R115). -/
theorem State.samePlane_withSample (v : Byte) (h : s.cnt.toNat < s.pixels) : s.SamePlane (s.withSample v) :=
  { s.samePlane_refl with
    otherPlanes := fun c hc i => by rw [s.fbByte_withSample_sample, if_neg fun h => hc h.1]
    outside := fun j hj => by
      have hne : j ≠ s.writeIndex := fun hj' => hj (hj' ▸ State.mayWrite_writeIndex h)
      exact (s.fbByte_withSample v j).trans (if_neg hne) }

/-- A sample is the next one of its plane (40_plane_decoder.md R107, R108). -/
theorem State.produced_withSample {v : Byte} (h : (s.withSample v).cnt.toNat = s.cnt.toNat + 1) :
    (s.withSample v).produced = s.produced ++ [v] := by
  have hbefore : (s.withSample v).samplesIn s.curPlane s.cnt.toNat = s.produced :=
    State.samplesIn_congr fun i hi => by rw [s.fbByte_withSample_sample, if_neg (by omega)]
  have hlast : (s.withSample v).fbByte (sampleIndex s.curPlane s.cnt.toNat) = v := by
    rw [s.fbByte_withSample_sample, if_pos ⟨rfl, rfl⟩]
  have hsplit : (s.withSample v).produced = (s.withSample v).samplesIn s.curPlane (s.cnt.toNat + 1) := by
    rw [← h]; rfl
  rw [hsplit, State.samplesIn, List.range_succ, List.map_append, List.map_singleton, hlast]
  exact congrArg (· ++ [v]) hbefore

/-! ### The result in each STATE -/

theorem State.planeResult_hdr (hs : s.seq = .hdr) (input : List Byte) :
    s.planeResult input = resumePlane s.params.overshoot s.pixels s.produced input := by
  rw [State.planeResult, hs]

theorem State.planeResult_lit (hs : s.seq = .lit) (input : List Byte) :
    s.planeResult input = resumeLiteral s.params.overshoot s.pixels s.runLeft.toNat s.produced input := by
  rw [State.planeResult, hs]

theorem State.planeResult_repv (hs : s.seq = .repv) (input : List Byte) :
    s.planeResult input = resumeRepeat s.params.overshoot s.pixels s.runLeft.toNat s.produced input := by
  rw [State.planeResult, hs]

theorem State.planeResult_fill (hs : s.seq = .fill) (input : List Byte) :
    s.planeResult input =
      resumePlane s.params.overshoot s.pixels (s.produced ++ List.replicate s.runLeft.toNat s.runVal) input := by
  rw [State.planeResult, hs]

/-- A plane that needs a byte and gets none is truncated (40_plane_decoder.md R111). -/
theorem State.Inv.planeResult_nil (hi : s.Inv) (hp : s.seq.inPlane = true) (hr : s.seq.readsInput = true) :
    s.planeResult [] = .err .truncated 0x00#8 s.produced [] := by
  have hq := hi.sequencer
  cases hs : s.seq <;> simp only [hs, Seq.inPlane, Seq.readsInput, Bool.false_eq_true] at hp hr
  case hdr =>
    rw [State.planeResult_hdr hs]
    exact resumePlane_nil (by rw [State.produced_length]; exact (State.seqInv_hdr hs).1 hq)
  case lit =>
    rw [State.planeResult_lit hs]
    exact resumeLiteral_nil ((State.seqInv_lit hs).1 hq).1
  case repv => rw [State.planeResult_repv hs]; rfl

/-- The host's side of a turn leaves the plane's result to the bytes. -/
theorem State.HostMoves.planeResult {pushed : List Byte} (h : s.HostMoves t pushed) (input : List Byte) :
    t.planeResult input = s.planeResult input := by
  rw [h.fields]; rfl

/-! ### The block's turn, STATE by STATE -/

/-- A sample of a run, on w, which is s with its bytes read (40_plane_decoder.md R107 to R110). -/
theorem State.planeTurn_of_sample {w : State} {v : Byte} (hw : w.Inv) (hs : w.seq = .lit ∨ w.seq = .fill)
    (hsw : s.SamePlane w) (ht : w.produceSample v = .next t)
    (hgo : ∀ more, 1 < w.runLeft.toNat →
      s.planeResult (s.ififo ++ more) = (w.withSample v).planeResult (w.ififo ++ more))
    (hlast : ∀ more, w.runLeft.toNat = 1 → s.planeResult (s.ififo ++ more) =
      resumePlane s.params.overshoot s.pixels (w.produced ++ [v]) (w.ififo ++ more)) : s.PlaneTurn t := by
  obtain ⟨hc, hr, hfit⟩ := hw.withSample_counters hs v
  have hsame := hsw.trans (w.samePlane_withSample v (hw.cnt_lt_pixels (by rcases hs with hs | hs <;> simp [hs])))
  have hprod := State.produced_withSample hc
  rcases hw.produceSample_cases hs ht with ⟨h1, _, rfl⟩ | ⟨h1, rfl⟩
  · by_cases hlt : (w.withSample v).cnt.toNat < (w.withSample v).pixels
    · rw [State.planeEnd_of_lt hlt]
      refine .goesOn rfl { hsame with } fun more => ?_
      rw [hlast more h1, State.planeResult_hdr rfl, ← hprod, ← hsw.params, ← hsw.pixels]
      rfl
    · have hfull : (w.withSample v).cnt.toNat = s.pixels := by
        have := hsame.pixels
        have := hsw.pixels
        omega
      refine .completes hsame hfull fun more => ?_
      rw [hlast more h1, ← hprod]
      exact resumePlane_done (by rw [State.produced_length]; omega) _
  · refine .goesOn ?_ hsame fun more => hgo more h1
    show w.seq.inPlane = true
    rcases hs with hs | hs <;> rw [hs] <;> rfl

theorem planeTurn_lit (hi : s.Inv) {b : Byte} {q : List Byte} (hs : s.seq = .lit) (hq : s.ififo = b :: q)
    (ht : blockStep s = .next t) : s.PlaneTurn t := by
  rw [blockStep_lit hs hq] at ht
  have hw := hi.consumed hq
  obtain ⟨hc, hr, _⟩ := hw.withSample_counters (.inl hs) b
  have hprod : (State.withSample b (s.consumed q)).produced = s.produced ++ [b] := State.produced_withSample hc
  have hrun : s.runLeft.toNat = (State.withSample b (s.consumed q)).runLeft.toNat + 1 := hr.symm
  have hnext : ∀ more, s.planeResult (s.ififo ++ more) = resumeLiteral s.params.overshoot s.pixels
      (State.withSample b (s.consumed q)).runLeft.toNat (s.produced ++ [b]) (q ++ more) := fun more => by
    rw [State.planeResult_lit hs, hq, hrun, List.cons_append, resumeLiteral_cons]
  refine State.planeTurn_of_sample hw (.inl hs) (s.samePlane_consumed q) ht (fun more _ => ?_) fun more h1 => ?_
  · rw [hnext, State.planeResult_lit (s := State.withSample b (s.consumed q)) hs, hprod]
    rfl
  · have h0 : (State.withSample b (s.consumed q)).runLeft.toNat = 0 := by
      have h1 : s.runLeft.toNat = 1 := h1
      omega
    rw [hnext, h0, resumeLiteral_zero]
    rfl

theorem planeTurn_fill (hi : s.Inv) (hs : s.seq = .fill) (ht : blockStep s = .next t) : s.PlaneTurn t := by
  rw [blockStep_fill hs] at ht
  obtain ⟨hc, hr, _⟩ := hi.withSample_counters (.inr hs) s.runVal
  refine State.planeTurn_of_sample hi (.inr hs) s.samePlane_refl ht (fun more _ => ?_) fun more h1 => ?_
  · rw [State.planeResult_fill hs, State.planeResult_fill (s := s.withSample s.runVal) hs, State.produced_withSample hc,
      ← hr, List.replicate_succ, List.append_assoc]
    rfl
  · rw [State.planeResult_fill hs, h1]
    rfl

/-- The value byte gives the run its samples (40_plane_decoder.md R108). -/
theorem planeTurn_repv {b : Byte} {q : List Byte} (hs : s.seq = .repv) (hq : s.ififo = b :: q)
    (ht : blockStep s = .next t) : s.PlaneTurn t := by
  rw [blockStep_repv hs hq] at ht
  obtain rfl := Host.Outcome.next.inj ht
  refine .goesOn rfl { s.samePlane_consumed q with } fun more => ?_
  rw [State.planeResult_repv hs, hq, State.planeResult_fill rfl]
  rfl

/-- The length byte starts its run, or overshoots (40_plane_decoder.md R106). -/
theorem planeTurn_hdr (hi : s.Inv) {b : Byte} {q : List Byte} (hs : s.seq = .hdr) (hq : s.ififo = b :: q)
    (ht : blockStep s = .next t) : s.PlaneTurn t := by
  rw [blockStep_hdr hs hq] at ht
  obtain rfl := Host.Outcome.next.inj ht
  have hc : s.produced.length < s.pixels := by
    rw [State.produced_length]; exact (State.seqInv_hdr hs).1 hi.sequencer
  have hrem : s.remaining = s.pixels - s.produced.length := by rw [State.produced_length]; rfl
  have hres : ∀ more, s.planeResult (s.ififo ++ more) =
      resumePlane s.params.overshoot s.pixels s.produced (b :: (q ++ more)) := fun more => by
    rw [State.planeResult_hdr hs, hq, List.cons_append]
  rcases State.startRun_cases (if b.getLsbD 7 then .repv else .lit) (declaredCount b) b (s.consumed q)
    with ⟨hlt, hf, he⟩ | ⟨hfit, he⟩ <;> rw [he]
  · refine .fails (s.samePlane_consumed q) fun more _ => ?_
    rw [hres]
    exact resumePlane_overshoot (hrem ▸ hlt) hf hc _
  · obtain ⟨_, hmax, _⟩ := declaredCount_bounds b
    have hrun : (BitVec.ofNat 8 (min (declaredCount b) s.remaining)).toNat =
        min (declaredCount b) (s.pixels - s.produced.length) := by
      rw [hrem, BitVec.toNat_ofNat]; omega
    have hpacket : ∀ more, s.planeResult (s.ififo ++ more) =
        resumePacket s.params.overshoot s.pixels b s.produced (q ++ more) := fun more => by
      rw [hres]
      exact resumePlane_packet (hrem ▸ hfit) hc _
    cases hk : b.getLsbD 7 with
    | true =>
      refine .goesOn rfl { s.samePlane_consumed q with } fun more => ?_
      rw [hpacket, resumePacket, if_pos hk, ← hrun, if_pos rfl, State.planeResult_repv rfl]
      rfl
    | false =>
      refine .goesOn rfl { s.samePlane_consumed q with } fun more => ?_
      rw [hpacket, resumePacket, if_neg (Bool.eq_false_iff.1 hk), ← hrun, if_neg nofun, State.planeResult_lit rfl]
      rfl

/-- A block turn of a plane in progress: it holds, reaches the end of the stream, or takes STATE's step. -/
theorem planeTurn_of_blockStep (hi : s.Inv) (hp : s.seq.inPlane = true) (ht : blockStep s = .next t) : s.PlaneTurn t := by
  by_cases hn : s.seq.readsInput = true ∧ s.ififo = []
  · obtain ⟨hr, hq⟩ := hn
    cases he : s.eos with
    | false =>
      rw [blockStep_hold hr hq he] at ht
      obtain rfl := Host.Outcome.next.inj ht
      exact .goesOn hp s.samePlane_refl fun _ => rfl
    | true =>
      rw [blockStep_without_byte hr hq, if_pos he] at ht
      obtain rfl := Host.Outcome.next.inj ht
      refine .fails s.samePlane_refl fun more hmore => ?_
      rw [hmore he, List.append_nil, hq]
      exact hi.planeResult_nil hp hr
  · have hbyte : s.seq.readsInput = true → ∃ b q, s.ififo = b :: q := fun hr =>
      List.exists_cons_of_ne_nil fun hq => hn ⟨hr, hq⟩
    cases hs : s.seq <;> simp only [hs, Seq.inPlane, Bool.false_eq_true] at hp
    case hdr =>
      obtain ⟨b, q, hq⟩ := hbyte (by rw [hs]; rfl)
      exact planeTurn_hdr hi hs hq ht
    case lit =>
      obtain ⟨b, q, hq⟩ := hbyte (by rw [hs]; rfl)
      exact planeTurn_lit hi hs hq ht
    case repv =>
      obtain ⟨b, q, hq⟩ := hbyte (by rw [hs]; rfl)
      exact planeTurn_repv hs hq ht
    case fill => exact planeTurn_fill hi hs ht

end

/-! ### A DECODE_PLANE ends as the functional form says -/

/-- t is how a decode of n samples of plane c ends with the result r (40_plane_decoder.md R116). -/
def State.EndsPlane (t : State) (n : Nat) (c : Plane) : PlaneResult → Prop
  | .ok samples rest =>
    t.seq = .idle ∧ t.done = true ∧ t.cnt.toNat = n ∧ t.ififo = rest ∧ samples.length = n ∧
    ∀ i, i < n → some (t.fbByte (3 * i + c.index)) = samples[i]?
  | .err code byte out rest =>
    t.seq = .error ∧ t.done = false ∧ t.errcode = code ∧ t.errByte = byte ∧ t.cnt.toNat = out.length ∧ t.ififo = rest

section
variable {s t u v : State} {pushed : List Byte}

theorem State.endsAsDecodePlane_iff (stream : List Byte) :
    s.EndsAsDecodePlane t stream ↔
      t.EndsPlane s.pixels s.curPlane (decodePlane s.params.overshoot s.pixels stream) := by
  rw [State.EndsAsDecodePlane]
  cases decodePlane s.params.overshoot s.pixels stream <;> rfl

/-- A plane's start has the whole plane to come (40_plane_decoder.md R100, R109). -/
theorem State.planeResult_start (hs : s.seq = .hdr) (hc : s.cnt = 0) (input : List Byte) :
    s.planeResult input = decodePlane s.params.overshoot s.pixels input := by
  have hnone : s.produced = [] := by rw [State.produced, hc]; rfl
  rw [State.planeResult_hdr hs, hnone]
  rfl

theorem State.busy_of_inPlane (h : s.seq.inPlane = true) : s.busy = true := by
  cases hs : s.seq <;> simp only [hs, Seq.inPlane, Bool.false_eq_true] at h <;> exact State.busy_of_seq hs nofun nofun

theorem State.HostMoves.mayWrite_iff (h : s.HostMoves t pushed) (j : Nat) : t.mayWrite j ↔ s.mayWrite j := by
  rw [h.fields]; rfl

/-- The last sample of a DECODE_PLANE ends it (40_plane_decoder.md R109). -/
theorem State.SamePlane.endsPlane (h : s.SamePlane v) (hm : s.mode = .plane) (hc : v.cnt.toNat = s.pixels) :
    v.planeEnd = v.complete ∧ v.complete.EndsPlane s.pixels s.curPlane (.ok v.produced v.ififo) := by
  refine ⟨State.planeEnd_plane (by rw [h.pixels, hc]) (h.mode.trans hm), rfl, rfl, hc, rfl, ?_, fun i hi => ?_⟩
  · rw [State.produced_length, hc]
  · rw [State.produced, hc, h.curPlane, State.getElem?_samplesIn hi]
    rfl

/-- A run of a DECODE_PLANE ends with its plane's result, and changes no byte outside the plane
(40_plane_decoder.md R116). -/
theorem State.BusyRun.endsPlane (h : State.BusyRun t s pushed) (hp : s.seq.inPlane = true) (hm : s.mode = .plane) :
    t.EndsPlane s.pixels s.curPlane (s.planeResult (s.ififo ++ pushed)) ∧
      ∀ j, ¬ s.mayWrite j → t.fbByte j = s.fbByte j := by
  induction h with
  | ended hb => exact absurd (hb.symm.trans (State.busy_of_inPlane hp)) nofun
  | host _ _ hu _ ih =>
    obtain ⟨hend, hout⟩ := ih (hu.seq ▸ hp) (hu.mode.trans hm)
    rw [hu.pixels, hu.curPlane, hu.planeResult, hu.ififo, List.append_assoc] at hend
    exact ⟨hend, fun j hj => (hout j (mt (hu.mayWrite_iff j).1 hj)).trans (State.fbByte_congr hu.fb j)⟩
  | @block s _ _ hi _ hu hr ih =>
    have hiu := hi.blockStep hu
    cases planeTurn_of_blockStep hi hp hu with
    | goesOn hpu hsame hres =>
      obtain ⟨hend, hout⟩ := ih hpu (hsame.mode.trans hm)
      rw [hsame.pixels, hsame.curPlane, ← hres] at hend
      exact ⟨hend, fun j hj => (hout j (mt (hsame.mayWrite_iff j).1 hj)).trans (hsame.outside j hj)⟩
    | completes hsame hc hres =>
      obtain ⟨heq, hend⟩ := hsame.endsPlane hm hc
      rw [heq] at hr
      obtain ⟨rfl, rfl⟩ := hr.of_not_busy rfl
      rw [hres, List.append_nil]
      exact ⟨hend, hsame.outside⟩
    | @fails u code byte hsame hres =>
      obtain ⟨rfl, rfl⟩ := hr.of_not_busy rfl
      rw [hres [] fun _ => rfl, List.append_nil]
      exact ⟨⟨rfl, (hiu.flags nofun).1, rfl, rfl, u.produced_length.symm, rfl⟩, fun j hj =>
        ((u.failsWith_blockError code byte).2 j (mt (hsame.mayWrite_iff j).1 hj)).trans (hsame.outside j hj)⟩

/-- A run of a DECODE_PLANE from its start. -/
theorem State.BusyRun.endsAsDecodePlane (h : State.BusyRun t s pushed) (hs : s.seq = .hdr) (hm : s.mode = .plane)
    (hc : s.cnt = 0) : (∀ j, ¬ s.mayWrite j → t.fbByte j = s.fbByte j) ∧ s.EndsAsDecodePlane t (s.ififo ++ pushed) := by
  obtain ⟨hend, hout⟩ := h.endsPlane (by rw [hs]; rfl) hm
  refine ⟨hout, (State.endsAsDecodePlane_iff _).2 ?_⟩
  rw [← State.planeResult_start hs hc]
  exact hend

/-- The budget of a whole DECODE_PLANE. -/
theorem State.budget_planeStart (hs : s.seq = .hdr) (hm : s.mode = .plane) (hc : s.cnt = 0) (f : Nat) :
    s.budget f = (f + 2) * s.pixels := by
  rw [State.budget_hdr hs, State.remaining, hc, State.laterNeed, hm]
  rfl

end

/-- Settles O36: after EOS no step holds and no push is taken, so the run ends on the bytes in IFIFO. -/
theorem planeStepsComputeDecodePlane : Obligations.PlaneStepsComputeDecodePlane := by
  intro s hi hs hm hc he hn
  obtain ⟨k, t, hk, hrun, ht⟩ := neverHolds_of_eos.exists_runBusy hi hn fun _ => he
  have hbusy := State.busyRun_of_runBusy hi hn hrun ht
  rw [hbusy.pushed_of_eos he] at hbusy
  obtain ⟨used, hq, hcount, hle⟩ := hbusy.consumes
  obtain ⟨hout, hend⟩ := hbusy.endsAsDecodePlane hs hm hc
  rw [State.budget_planeStart hs hm hc] at hk hle
  rw [List.append_nil] at hq hend
  exact ⟨k, t, hk, runSteps_of_runBusy hrun, ⟨used, hq, hle, hcount⟩, hout, hend⟩

/-- A plane whose bytes are all in IFIFO never waits for one: without them its result would be an error. -/
theorem neverHolds_of_planeResult_ok :
    NeverHolds fun s => s.seq.inPlane = true ∧ s.mode = .plane ∧
      ∀ more, ∃ samples rest, s.planeResult (s.ififo ++ more) = .ok samples rest where
  holding := by
    rintro s ⟨hp, _, hres⟩ hi
    by_contra hh
    simp only [State.holding, Bool.not_eq_false, Bool.and_eq_true, List.isEmpty_iff] at hh
    obtain ⟨⟨hr, hq⟩, _⟩ := hh
    obtain ⟨_, _, hok⟩ := hres []
    rw [hq, List.append_nil, hi.planeResult_nil hp hr] at hok
    cases hok
  host := by
    rintro s t pushed ⟨hp, hm, hres⟩ h
    refine ⟨h.seq ▸ hp, h.mode.trans hm, fun more => ?_⟩
    obtain ⟨samples, rest, hok⟩ := hres (pushed ++ more)
    exact ⟨samples, rest, by rw [h.planeResult, h.ififo, List.append_assoc, hok]⟩
  block := by
    rintro s t ⟨hp, hm, hres⟩ hi ht hb
    cases planeTurn_of_blockStep hi hp ht with
    | goesOn hpt hsame hkeep =>
      refine ⟨hpt, hsame.mode.trans hm, fun more => ?_⟩
      obtain ⟨samples, rest, hok⟩ := hres more
      exact ⟨samples, rest, (hkeep more).symm.trans hok⟩
    | completes hsame hc _ => rw [(hsame.endsPlane hm hc).1] at hb; cases hb
    | fails => cases hb

/-- Settles O38: the encoding's bytes are all in IFIFO, so no step holds, and the run ends as `decodePlane` says of
them, which is O9. -/
theorem conformingPlaneRoundTrip : Obligations.ConformingPlaneRoundTrip := by
  intro s ps rest hi hs hm hc hn hps hlen hq
  have hdecode : ∀ more, decodePlane s.params.overshoot s.pixels (planeBytes ps ++ more) = .ok (planeSamples ps) more :=
    fun more => hlen ▸ conformingPlaneDecodes s.params.overshoot ps more hps
  have hready : s.seq.inPlane = true ∧ s.mode = .plane ∧
      ∀ more, ∃ samples rest, s.planeResult (s.ififo ++ more) = .ok samples rest :=
    ⟨by rw [hs]; rfl, hm, fun more => ⟨planeSamples ps, rest ++ more, by
      rw [State.planeResult_start hs hc, hq, List.append_assoc, hdecode]⟩⟩
  obtain ⟨k, t, hk, hrun, ht⟩ := neverHolds_of_planeResult_ok.exists_runBusy hi hn fun _ => hready
  have hbusy := State.busyRun_of_runBusy hi hn hrun ht
  obtain ⟨used, hused, hcount, _⟩ := hbusy.consumes
  obtain ⟨_, hend⟩ := hbusy.endsAsDecodePlane hs hm hc
  rw [State.endsAsDecodePlane_iff, hq, List.append_assoc, hdecode] at hend
  obtain ⟨hidle, hdone, _, hrest, _, hfb⟩ := hend
  rw [hq, List.append_assoc, hrest] at hused
  rw [← List.append_cancel_right hused] at hcount
  rw [State.budget_planeStart hs hm hc] at hk
  exact ⟨k, t, hk, runSteps_of_runBusy hrun, hidle, hdone, hrest, hcount, hfb⟩

/-! ### A DECODE_FRAME ends as the functional form says -/

/-- A frame's result from plane c's: with its samples the frame goes on, with its error it ends. -/
def PlaneResult.andThen (c : Plane) (next : List Byte → List Byte → FrameResult) : PlaneResult → FrameResult
  | .ok samples rest => next samples rest
  | .err code byte out rest => .err code byte c out rest

/-- The frame's result once red and green are decoded, from blue's. -/
def frameOfBlue (red green : List Byte) (r : PlaneResult) : FrameResult :=
  r.andThen .blue fun blue rest => .ok red green blue rest

/-- The frame's result once red is decoded, from green's. -/
def frameOfGreen (policy : OvershootPolicy) (n : Nat) (red : List Byte) (r : PlaneResult) : FrameResult :=
  r.andThen .green fun green input => frameOfBlue red green (decodePlane policy n input)

/-- The frame's result from red's. -/
def frameOfRed (policy : OvershootPolicy) (n : Nat) (r : PlaneResult) : FrameResult :=
  r.andThen .red fun red input => frameOfGreen policy n red (decodePlane policy n input)

/-- The frame's result from that of the plane in progress; the planes before it are in FB. -/
def State.frameResult (s : State) (r : PlaneResult) : FrameResult :=
  match s.curPlane with
  | .red => frameOfRed s.params.overshoot s.pixels r
  | .green => frameOfGreen s.params.overshoot s.pixels (s.samplesIn .red s.pixels) r
  | .blue => frameOfBlue (s.samplesIn .red s.pixels) (s.samplesIn .green s.pixels) r

/-- t is how a DECODE_FRAME of n pixels that started with FRAME_COUNT and FB as given ends with the result r
(40_plane_decoder.md R116). -/
def State.EndsFrame (t : State) (n : Nat) (frameCount : Word) (fb : Memory) : FrameResult → Prop
  | .ok red green blue rest =>
    t.seq = .idle ∧ t.done = true ∧ t.endFlag = false ∧ t.frameCount = frameCount + 1 ∧ t.ififo = rest ∧
    t.curPlane = .blue ∧ t.cnt.toNat = n ∧
    ∀ i, i < n →
      some (t.fbByte (3 * i)) = red[i]? ∧ some (t.fbByte (3 * i + 1)) = green[i]? ∧
      some (t.fbByte (3 * i + 2)) = blue[i]?
  | .endOfFrames rest =>
    t.seq = .idle ∧ t.done = true ∧ t.endFlag = true ∧ t.frameCount = frameCount ∧ t.ififo = rest ∧ t.fb = fb
  | .err code byte plane out rest =>
    t.seq = .error ∧ t.done = false ∧ t.errcode = code ∧ t.errByte = byte ∧ t.curPlane = plane ∧
    t.cnt.toNat = out.length ∧ t.frameCount = frameCount ∧ t.ififo = rest

section
variable {policy : OvershootPolicy} {n : Nat}

theorem decodeFrame_markK (input : List Byte) :
    decodeFrame policy n (0x4B#8 :: input) = frameOfRed policy n (decodePlane policy n input) := by
  have hk : decodeMarker 0x4B#8 = .ok .markK := rfl
  simp only [decodeFrame, hk]
  cases decodePlane policy n input with
  | err => rfl
  | ok red input =>
    simp only [frameOfRed, PlaneResult.andThen]
    cases decodePlane policy n input with
    | err => rfl
    | ok green input =>
      simp only [frameOfGreen, PlaneResult.andThen]
      cases decodePlane policy n input <;> rfl

theorem decodeFrame_markE (input : List Byte) : decodeFrame policy n (0x45#8 :: input) = .endOfFrames input := rfl

theorem decodeFrame_other {b : Byte} (hk : b ≠ 0x4B#8) (he : b ≠ 0x45#8) (input : List Byte) :
    decodeFrame policy n (b :: input) = .err .format b .red [] input := by
  have hb : decodeMarker b = .error (.reservedMarker b) := by rw [decodeMarker, if_neg hk, if_neg he]
  simp only [decodeFrame, hb]

end

section
variable {s t u v : State} {pushed : List Byte}

theorem State.endsAsDecodeFrame_iff (stream : List Byte) :
    s.EndsAsDecodeFrame t stream ↔
      t.EndsFrame s.pixels s.frameCount s.fb (decodeFrame s.params.overshoot s.pixels stream) := by
  rw [State.EndsAsDecodeFrame]
  cases decodeFrame s.params.overshoot s.pixels stream <;> rfl

theorem State.frameResult_err (s : State) (code : ErrCode) (byte : Byte) (out rest : List Byte) :
    s.frameResult (.err code byte out rest) = .err code byte s.curPlane out rest := by
  unfold State.frameResult
  cases s.curPlane <;> rfl

/-- While a plane goes on, the frame's result comes from the plane's in the same way. -/
theorem State.SamePlane.frameResult (h : s.SamePlane t) (r : PlaneResult) : t.frameResult r = s.frameResult r := by
  have hsamples : ∀ c, c ≠ s.curPlane → t.samplesIn c s.pixels = s.samplesIn c s.pixels := fun c hc =>
    State.samplesIn_congr fun i _ => h.otherPlanes c hc i
  unfold State.frameResult
  rw [h.curPlane, h.params, h.pixels]
  cases hc : s.curPlane with
  | red => rfl
  | green => simp only [hsamples .red (by rw [hc]; decide)]
  | blue => simp only [hsamples .red (by rw [hc]; decide), hsamples .green (by rw [hc]; decide)]

theorem State.HostMoves.frameResult (h : s.HostMoves t pushed) (r : PlaneResult) : t.frameResult r = s.frameResult r := by
  rw [h.fields]; rfl

/-- After a frame's plane with another to come, the frame's result comes from that plane's decodePlane
(40_plane_decoder.md R109). -/
theorem State.frameResult_next {c : Plane} (hn : v.curPlane.next? = some c) (hc : v.cnt.toNat = v.pixels)
    (rest : List Byte) :
    v.frameResult (.ok v.produced rest) =
      State.frameResult { v with curPlane := c, cnt := 0, seq := .hdr }
        (State.planeResult { v with curPlane := c, cnt := 0, seq := .hdr } rest) := by
  rw [State.planeResult_start (s := { v with curPlane := c, cnt := 0, seq := .hdr }) rfl rfl, State.produced, hc]
  unfold State.frameResult
  cases hp : v.curPlane <;> rw [hp] at hn <;> cases hn <;> rfl

/-- The last sample of blue ends the frame (40_plane_decoder.md R109, R110). -/
theorem State.endsFrame_frameEnd (hb : v.curPlane = .blue) (hc : v.cnt.toNat = v.pixels) (he : v.endFlag = false)
    (fb : Memory) :
    v.frameEnd.EndsFrame v.pixels v.frameCount fb (v.frameResult (.ok v.produced v.ififo)) := by
  have hres : v.frameResult (.ok v.produced v.ififo) = .ok (v.samplesIn .red v.pixels) (v.samplesIn .green v.pixels)
      (v.samplesIn .blue v.pixels) v.ififo := by
    rw [State.produced, hc, State.frameResult, hb]
    rfl
  rw [hres]
  have hsample : ∀ c i, i < v.pixels → some (v.fbByte (sampleIndex c i)) = (v.samplesIn c v.pixels)[i]? :=
    fun _ _ hi => (State.getElem?_samplesIn hi).symm
  exact ⟨rfl, rfl, he, rfl, rfl, hb, hc, fun i hi => ⟨hsample .red i hi, hsample .green i hi, hsample .blue i hi⟩⟩

/-- A run of a DECODE_FRAME inside a plane ends with the frame's result. -/
theorem State.BusyRun.endsFrame_of_inPlane (h : State.BusyRun t s pushed) (hp : s.seq.inPlane = true)
    (hm : s.mode = .frame) (fb : Memory) :
    t.EndsFrame s.pixels s.frameCount fb (s.frameResult (s.planeResult (s.ififo ++ pushed))) := by
  induction h with
  | ended hb => exact absurd (hb.symm.trans (State.busy_of_inPlane hp)) nofun
  | host _ _ hu _ ih =>
    have hend := ih (hu.seq ▸ hp) (hu.mode.trans hm)
    rw [hu.pixels, hu.frameCount, hu.frameResult, hu.planeResult, hu.ififo, List.append_assoc] at hend
    exact hend
  | @block s u pushed hi hb hu hr ih =>
    have hiu := hi.blockStep hu
    cases planeTurn_of_blockStep hi hp hu with
    | goesOn hpu hsame hres =>
      have hend := ih hpu (hsame.mode.trans hm)
      rw [hsame.pixels, hsame.frameCount, hsame.frameResult, ← hres] at hend
      exact hend
    | @completes v hsame hc hres =>
      have hvm : v.mode = .frame := hsame.mode.trans hm
      have hfull : v.cnt.toNat = v.pixels := hc.trans hsame.pixels.symm
      rw [hres, ← hsame.frameResult, ← hsame.pixels, ← hsame.frameCount]
      cases hn : v.curPlane.next? with
      | some c =>
        rw [State.planeEnd_next hfull.ge hvm hn] at ih
        rw [State.frameResult_next hn hfull]
        exact ih rfl hvm
      | none =>
        have hblue : v.curPlane = .blue := by cases hvc : v.curPlane <;> rw [hvc] at hn <;> cases hn
        have hidle : v.planeEnd = v.frameEnd := State.planeEnd_last hfull.ge hvm hn
        have hflag : v.endFlag = false := hsame.endFlag.trans (hi.flags (State.seq_ne_of_busy hb).1).2
        rw [hidle] at hr
        obtain ⟨rfl, rfl⟩ := hr.of_not_busy rfl
        rw [List.append_nil]
        exact State.endsFrame_frameEnd hblue hfull hflag fb
    | @fails u code byte hsame hres =>
      obtain ⟨rfl, rfl⟩ := hr.of_not_busy rfl
      rw [hres [] fun _ => rfl, List.append_nil, State.frameResult_err]
      exact ⟨rfl, (hiu.flags nofun).1, rfl, rfl, hsame.curPlane, u.produced_length.symm, hsame.frameCount, rfl⟩

/-- A DECODE_FRAME that waits for its marker is at the start of red (10_state.md R24, R25). -/
theorem State.Inv.marker (hi : s.Inv) (hs : s.seq = .marker) : s.mode = .frame ∧ s.curPlane = .red ∧ s.cnt = 0 := by
  have hq := hi.sequencer
  rw [State.seqInv, hs] at hq
  exact hq

/-- A run of a DECODE_FRAME from its start (40_plane_decoder.md R103 to R105, R112, R116). -/
theorem State.BusyRun.endsFrame (h : State.BusyRun t s pushed) (hs : s.seq = .marker) :
    t.EndsFrame s.pixels s.frameCount s.fb (decodeFrame s.params.overshoot s.pixels (s.ififo ++ pushed)) := by
  induction h with
  | ended hb => exact absurd (hb.symm.trans (State.busy_of_seq hs nofun nofun)) nofun
  | host _ _ hu _ ih =>
    have hend := ih (hu.seq.trans hs)
    rw [hu.pixels, hu.frameCount, hu.fb, hu.params, hu.ififo, List.append_assoc] at hend
    exact hend
  | @block s u pushed hi hb hu hr ih =>
    obtain ⟨hm, hc, hcnt⟩ := hi.marker hs
    have hiu := hi.blockStep hu
    cases hq : s.ififo with
    | nil =>
      have hread : s.seq.readsInput = true := by rw [hs]; rfl
      rw [blockStep_without_byte hread hq] at hu
      obtain rfl := Host.Outcome.next.inj hu
      cases he : s.eos with
      | false =>
        simp only [he, Bool.false_eq_true, if_false, hq] at ih
        exact ih hs
      | true =>
        rw [if_pos he] at hr hiu
        obtain ⟨rfl, rfl⟩ := hr.of_not_busy rfl
        exact ⟨rfl, (hiu.flags nofun).1, rfl, rfl, hc, congrArg BitVec.toNat hcnt, rfl, hq⟩
    | cons b q =>
      rw [blockStep_marker hs hq] at hu
      obtain rfl := Host.Outcome.next.inj hu
      by_cases hk : b = 0x4B#8
      · subst hk
        rw [if_pos rfl] at hr
        have hend := hr.endsFrame_of_inPlane rfl hm s.fb
        rw [State.planeResult_start rfl rfl] at hend
        rw [List.cons_append, decodeFrame_markK]
        exact hend
      by_cases he : b = 0x45#8
      · subst he
        rw [if_neg hk, if_pos rfl] at hr
        obtain ⟨rfl, rfl⟩ := hr.of_not_busy rfl
        rw [List.append_nil, decodeFrame_markE]
        exact ⟨rfl, rfl, rfl, rfl, rfl, rfl⟩
      · rw [if_neg hk, if_neg he] at hr hiu
        obtain ⟨rfl, rfl⟩ := hr.of_not_busy rfl
        rw [List.append_nil, decodeFrame_other hk he]
        exact ⟨rfl, (hiu.flags nofun).1, rfl, rfl, hc, congrArg BitVec.toNat hcnt, rfl, rfl⟩

/-- A run changes no byte from 3N on (40_plane_decoder.md R115). -/
theorem State.BusyRun.fbByte_of_ge (h : State.BusyRun t s pushed) {j : Nat} (hj : 3 * s.pixels ≤ j) :
    t.fbByte j = s.fbByte j := by
  induction h with
  | ended => rfl
  | host _ _ hu _ ih => exact (ih (hu.pixels ▸ hj)).trans (State.fbByte_congr hu.fb j)
  | @block s u _ hi _ hu _ ih =>
    obtain ⟨_, hw, hh, _⟩ := blockStep_keeps hu
    have hn : u.pixels = s.pixels := by rw [State.pixels, hw, hh, State.pixels]
    exact (ih (hn ▸ hj)).trans (blockStep_fbByte_of_ge hi.cnt_lt_pixels hu hj)

end

/-- Settles O37: after EOS no step holds and no push is taken, so the run ends on the bytes in IFIFO. -/
theorem frameStepsComputeDecodeFrame : Obligations.FrameStepsComputeDecodeFrame := by
  intro s hi hs he hn
  obtain ⟨k, t, hk, hrun, ht⟩ := neverHolds_of_eos.exists_runBusy hi hn fun _ => he
  have hbusy := State.busyRun_of_runBusy hi hn hrun ht
  rw [hbusy.pushed_of_eos he] at hbusy
  obtain ⟨used, hq, hcount, hle⟩ := hbusy.consumes
  have hend := hbusy.endsFrame hs
  rw [State.budget_marker hs] at hk hle
  rw [List.append_nil] at hq hend
  exact ⟨k, t, by omega, runSteps_of_runBusy hrun, ⟨used, hq, by omega, hcount⟩, fun _ hj => hbusy.fbByte_of_ge hj,
    (State.endsAsDecodeFrame_iff _).2 hend⟩

/-- Settles O60: a run's stream is the bytes in IFIFO at its start and those pushed and not dropped since. -/
theorem decodeTakesPushedBytes : Obligations.DecodeTakesPushedBytes := by
  intro s t k hi hn hrun ht
  have hbusy := State.busyRun_of_runBusy hi hn hrun ht
  obtain ⟨used, hq, hcount, _⟩ := hbusy.consumes
  exact ⟨⟨used, hq, hcount⟩, fun hs hm hc => hbusy.endsAsDecodePlane hs hm hc,
    fun hs => ⟨fun _ hj => hbusy.fbByte_of_ge hj, (State.endsAsDecodeFrame_iff _).2 (hbusy.endsFrame hs)⟩⟩

end Sys2Proof.Machine
end

section
/-! PROOF. The family 41_color_grader.md: the stages are the exact formulas, what the pipeline does to neutral and grey
pixels, and that a GRADE command, with the host's turns between its steps, grades every pixel once. -/

namespace Sys2Proof.Machine

/-! ### Brightness and contrast -/

/-- The brightness stage is the exact rational, floored and clamped (41_color_grader.md R143). -/
theorem brightStage_toNat (v b : Byte) :
    ((brightStage v b).toNat : Int) = min 255 (max 0 ⌊(v.toNat : ℚ) * (((b.toNat : ℚ) + 10) / 60)⌋) := by
  have hquot : (v.toNat : ℚ) * (((b.toNat : ℚ) + 10) / 60) =
      ((v.toNat * (b.toNat + 10) : ℤ) : ℚ) / (60 : ℕ) := by push_cast; ring
  rw [brightStage, clamp8_toNat, hquot, Rat.floor_intCast_div_natCast]
  rfl

/-- The contrast stage is the exact rational, floored and clamped (41_color_grader.md R144). -/
theorem contrastStage_toNat (v c : Byte) :
    ((contrastStage v c).toNat : Int) =
      min 255 (max 0 ⌊(c.toNat : ℚ) / 50 * ((v.toNat : ℚ) - 128) + 128⌋) := by
  have hquot : (c.toNat : ℚ) / 50 * ((v.toNat : ℚ) - 128) + 128 =
      ((c.toNat * (v.toNat - 128) : ℤ) : ℚ) / (50 : ℕ) + (128 : ℤ) := by push_cast; ring
  rw [contrastStage, clamp8_toNat, hquot, Int.floor_add_intCast, Rat.floor_intCast_div_natCast]
  rfl

/-- A larger sample is no darker after the brightness stage. -/
theorem brightStage_mono {u v : Byte} (h : u.toNat ≤ v.toNat) (b : Byte) :
    (brightStage u b).toNat ≤ (brightStage v b).toNat := by
  have hmul : (u.toNat : Int) * (b.toNat + 10) ≤ v.toNat * (b.toNat + 10) :=
    Int.mul_le_mul_of_nonneg_right (by omega) (by omega)
  exact clamp8_mono (Int.ediv_le_ediv (by decide) hmul)

/-- A larger sample is no darker after the contrast stage. -/
theorem contrastStage_mono {u v : Byte} (h : u.toNat ≤ v.toNat) (c : Byte) :
    (contrastStage u c).toNat ≤ (contrastStage v c).toNat := by
  have hmul : (c.toNat : Int) * (u.toNat - 128) ≤ c.toNat * (v.toNat - 128) :=
    Int.mul_le_mul_of_nonneg_left (by omega) (by omega)
  exact clamp8_mono (Int.add_le_add_right (Int.ediv_le_ediv (by decide) hmul) 128)

/-! ### The integer form of saturation is exact -/

/-- The integer root t of M div 1000 is the floor of the real root of M / 1000: the remainder of the division decides
neither bound (41_color_grader.md R146). -/
theorem isqrt_le_sqrt_lt_succ (m : Nat) :
    (isqrt (m / 1000) : ℝ) ≤ √(m / 1000) ∧ √(m / 1000 : ℝ) < isqrt (m / 1000) + 1 := by
  obtain ⟨hle, hlt⟩ := isqrt_spec (m / 1000)
  have hle' : 1000 * (isqrt (m / 1000) * isqrt (m / 1000)) ≤ m := by omega
  have hlt' : m < 1000 * ((isqrt (m / 1000) + 1) * (isqrt (m / 1000) + 1)) := by omega
  rify at hle' hlt'
  exact ⟨Real.le_sqrt_of_sq_le (by linarith), (Real.sqrt_lt' (by positivity)).2 (by linarith)⟩

/-- t is the real root itself exactly when 1000 t² = M. -/
theorem isqrt_eq_sqrt_iff (m : Nat) :
    1000 * isqrt (m / 1000) * isqrt (m / 1000) = m ↔ (isqrt (m / 1000) : ℝ) = √(m / 1000) := by
  rw [eq_comm (b := √_), Real.sqrt_eq_iff_mul_self_eq (by positivity) (by positivity), ← @Nat.cast_inj ℝ]
  push_cast
  constructor <;> intro h <;> linarith

/-- `fkP` is the floor of k times the real pivot (41_color_grader.md R146): for a negative k it is the negated ceiling
of the root, which is t or t + 1. -/
theorem floorKP_eq_floor (k : Int) (q : Nat) : floorKP k q = ⌊(k : ℝ) * √(q / 1000)⌋ := by
  have habs : √((k.natAbs * k.natAbs * q : ℕ) / 1000 : ℝ) = |(k : ℝ)| * √(q / 1000) := by
    rw [← Real.sqrt_mul_self (abs_nonneg (k : ℝ)), ← Real.sqrt_mul (by positivity)]
    push_cast [Nat.cast_natAbs]
    congr 1
    ring
  obtain ⟨hle, hlt⟩ := isqrt_le_sqrt_lt_succ (k.natAbs * k.natAbs * q)
  have heq := isqrt_eq_sqrt_iff (k.natAbs * k.natAbs * q)
  simp only [floorKP]
  generalize isqrt (k.natAbs * k.natAbs * q / 1000) = t at hle hlt heq ⊢
  rw [habs] at hle hlt heq
  symm
  by_cases hk : 0 ≤ k
  · rw [if_pos hk, Int.floor_eq_iff]
    rw [abs_of_nonneg (by exact_mod_cast hk)] at hle hlt
    exact ⟨by exact_mod_cast hle, by exact_mod_cast hlt⟩
  · rw [abs_of_neg (by exact_mod_cast not_le.1 hk), neg_mul] at hle hlt heq
    rw [if_neg hk]
    split
    next hsq =>
      have hroot := heq.1 hsq
      rw [Int.floor_eq_iff]
      push_cast
      constructor <;> linarith
    next hsq =>
      have hroot : (t : ℝ) < -(k * √(q / 1000)) := lt_of_le_of_ne hle (mt heq.2 hsq)
      rw [Int.floor_eq_iff]
      push_cast
      constructor <;> linarith

/-- `Q` is 1000 times the radicand of the pivot (41_color_grader.md R145). -/
theorem pivotQ_cast (r g b : Byte) :
    (r.toNat : ℝ) ^ 2 * 0.299 + (g.toNat : ℝ) ^ 2 * 0.587 + (b.toNat : ℝ) ^ 2 * 0.114 = pivotQ r g b / 1000 := by
  rw [pivotQ]
  push_cast
  ring

/-- The saturation stage is the real formula about the pivot P = √(Q / 1000), floored and clamped: the quotient by 50
may be floored after floor(k * P) has been (41_color_grader.md R146). -/
theorem saturStage_toNat (v s : Byte) (q : Nat) :
    ((saturStage v q s).toNat : Int) =
      min 255 (max 0 ⌊√(q / 1000) + ((v.toNat : ℝ) - √(q / 1000)) * ((s.toNat : ℝ) / 50)⌋) := by
  have hquot : √(q / 1000) + ((v.toNat : ℝ) - √(q / 1000)) * ((s.toNat : ℝ) / 50) =
      (((s.toNat * v.toNat : ℤ) : ℝ) + ((50 - s.toNat : ℤ) : ℝ) * √(q / 1000)) / (50 : ℕ) := by
    push_cast; ring
  rw [saturStage, clamp8_toNat, floorKP_eq_floor, hquot, Int.floor_div_natCast, Int.floor_intCast_add]
  rfl

/-! ### The stages at their neutral and extreme parameters -/

/-- Brightness 50 has the factor 60 / 60. -/
@[simp] theorem brightStage_neutral (v : Byte) : brightStage v 50#8 = v := by
  have hexact : (v.toNat : Int) * (50 + 10) / 60 = v.toNat := by omega
  exact (congrArg clamp8 hexact).trans (clamp8_byte v)

/-- Contrast 50 has the factor 50 / 50. -/
@[simp] theorem contrastStage_neutral (v : Byte) : contrastStage v 50#8 = v := by
  have hexact : 50 * ((v.toNat : Int) - 128) / 50 + 128 = v.toNat := by omega
  exact (congrArg clamp8 hexact).trans (clamp8_byte v)

/-- Saturation 50 has the factor 50 / 50, and the pivot drops out. -/
@[simp] theorem saturStage_neutral (v : Byte) (q : Nat) : saturStage v q 50#8 = v := by
  have hpivot : floorKP (50 - ((50#8).toNat : Int)) q = 0 := floorKP_zero q
  have hexact : (50 * (v.toNat : Int) + 0) / 50 = v.toNat := by omega
  rw [saturStage, hpivot]
  exact (congrArg clamp8 hexact).trans (clamp8_byte v)

/-- Contrast 0 leaves nothing of the sample (41_color_grader.md R144). -/
@[simp] theorem contrastStage_zero (v : Byte) : contrastStage v 0#8 = 128#8 := by
  have hmid : 0 * ((v.toNat : Int) - 128) / 50 + 128 = (128#8).toNat := by rw [Int.zero_mul]; rfl
  exact (congrArg clamp8 hmid).trans (clamp8_byte 128#8)

/-- The pivot weights add up to 1, so a grey pixel's pivot is its value (41_color_grader.md R145). -/
theorem pivotQ_grey (v : Byte) : pivotQ v v v = 1000 * (v.toNat * v.toNat) := by
  rw [pivotQ]; ring

/-- floor(k * P) for a pivot that is the integer n (41_color_grader.md R146). -/
theorem floorKP_square (k : Int) (n : Nat) : floorKP k (1000 * (n * n)) = k * n := by
  have hroot : √((1000 * (n * n) : ℕ) / 1000 : ℝ) = n := by
    rw [Nat.cast_mul, Nat.cast_mul, Nat.cast_ofNat, mul_div_cancel_left₀ _ (by norm_num),
      Real.sqrt_mul_self n.cast_nonneg]
  rw [floorKP_eq_floor, hroot, ← Int.cast_natCast, ← Int.cast_mul, Int.floor_intCast]

/-- Saturation leaves the channels of a grey pixel alone: they are the pivot itself (41_color_grader.md R146). -/
@[simp] theorem saturStage_grey (v s : Byte) : saturStage v (pivotQ v v v) s = v := by
  have hexact : ((s.toNat : Int) * v.toNat + (50 - (s.toNat : Int)) * v.toNat) / 50 = v.toNat := by
    rw [← Int.add_mul, show (s.toNat : Int) + (50 - s.toNat) = 50 by omega]; omega
  rw [saturStage, pivotQ_grey, floorKP_square, hexact, clamp8_byte]

/-- The pipeline with contrast and saturation 50 is the brightness stage on each channel (41_color_grader.md R147). -/
theorem gradePixel_of_neutral_tail {w : Word} (hc : contrastField w = 50#8) (hs : saturField w = 50#8) (p : Pixel) :
    gradePixel w p =
      { r := brightStage p.r (brightField w), g := brightStage p.g (brightField w),
        b := brightStage p.b (brightField w) } := by
  simp [gradePixel, saturatePixel, toneStages, hc, hs]

/-! ### The GRADE register -/

/-- A GRADE write stores the low 24 bits when the three fields are in range (41_color_grader.md R140). -/
theorem gradeStored_eq (w : Word) :
    gradeStored w =
      if w.toNat % 256 ≤ 100 ∧ w.toNat / 256 % 256 ≤ 100 ∧ w.toNat / 65536 % 256 ≤ 100 then
        BitVec.ofNat 32 (w.toNat % 16777216)
      else 0x00323232#32 := by
  obtain ⟨hb, hc, hs⟩ := gradeFields_toNat w
  rw [gradeStored, gradeFields_append, hb, hc, hs]

/-! ### The step that grades one pixel -/

section
variable {s : State}

/-- The bytes of FB after pixel i became p. -/
theorem State.fbByte_writePixel (s : State) (i : Nat) (p : Pixel) (j : Nat) :
    ({ s with fb := Memory.writePixel s.fb i p } : State).fbByte j =
      if j = 3 * i + 2 then p.b else if j = 3 * i + 1 then p.g else if j = 3 * i then p.r else s.fbByte j := by
  simp only [State.fbByte, Memory.writePixel, Memory.read?_write, sampleIndex, Plane.index, Nat.add_zero]
  repeat' split
  all_goals rfl

theorem State.fbByte_writePixel_outside (s : State) {i j : Nat} (p : Pixel) (h : j < 3 * i ∨ 3 * i + 3 ≤ j) :
    ({ s with fb := Memory.writePixel s.fb i p } : State).fbByte j = s.fbByte j := by
  rw [State.fbByte_writePixel, if_neg (by omega), if_neg (by omega), if_neg (by omega)]

/-- The pixels of FB after pixel i became p. -/
theorem State.pixelAt_writePixel (s : State) (i : Nat) (p : Pixel) (k : Nat) :
    ({ s with fb := Memory.writePixel s.fb i p } : State).pixelAt k = if k = i then p else s.pixelAt k := by
  by_cases h : k = i
  · subst h
    simp [State.pixelAt, State.fbByte_writePixel]
  · rw [if_neg h]
    simp only [State.pixelAt]
    congr 1 <;> exact s.fbByte_writePixel_outside p (by omega)

/-- s after pixel CNT was graded and counted (41_color_grader.md R149). -/
def State.withGradedPixel (s : State) : State :=
  { s with fb := Memory.writePixel s.fb s.cnt.toNat (gradePixel s.gradeReg (s.pixelAt s.cnt.toNat)), cnt := s.cnt + 1 }

theorem State.pixelAt_withGradedPixel (s : State) (k : Nat) :
    s.withGradedPixel.pixelAt k = if k = s.cnt.toNat then gradePixel s.gradeReg (s.pixelAt k) else s.pixelAt k := by
  refine (s.pixelAt_writePixel s.cnt.toNat _ k).trans ?_
  split
  next h => rw [h]
  next => rfl

/-- A grading step inside the buffer grades its pixel, and GradeEnd runs after the last one (41_color_grader.md R149,
R150). -/
theorem blockStep_grade_of_lt (hs : s.seq = .grade) (hc : s.cnt.toNat < s.params.maxPixels) :
    blockStep s =
      .next (if (s.cnt + 1).toNat = s.pixels then s.withGradedPixel.complete else s.withGradedPixel) := by
  rw [blockStep_grade hs, if_pos hc]
  rfl

end

/-! ### The obligations about the stages and single steps -/

/-- Settles O27: the step writes the graded pixel's three bytes, and ends the command when CNT becomes N. -/
theorem gradeStepGradesOnePixel : Obligations.GradeStepGradesOnePixel := by
  intro s u hu hs hc
  have hstep := (step_of_blockTurn hu).trans (blockStep_grade_of_lt hs hc)
  have hpixel := (u.pixelAt_withGradedPixel u.cnt.toNat).trans (if_pos rfl)
  have hbytes : ∀ j, j < 3 * u.cnt.toNat ∨ 3 * u.cnt.toNat + 3 ≤ j → u.withGradedPixel.fbByte j = u.fbByte j :=
    fun j hj => u.fbByte_writePixel_outside _ hj
  refine ⟨rfl, ?_⟩
  by_cases hend : (u.cnt + 1).toNat = u.pixels
  · rw [if_pos hend] at hstep
    exact ⟨_, hstep, hpixel, hbytes, fun _ => rfl, fun h => absurd hend h⟩
  · rw [if_neg hend] at hstep
    exact ⟨_, hstep, hpixel, hbytes, fun h => absurd h hend, fun _ => rfl⟩

/-- Settles O28: the integer quotient is the floor of the rational one. -/
theorem brightnessIsExact : Obligations.BrightnessIsExact := brightStage_toNat

/-- Settles O29: 128 is added to the floor of the rational quotient, which is the integer quotient. -/
theorem contrastIsExact : Obligations.ContrastIsExact := contrastStage_toNat

/-- Settles O30: the stage is exact about the root of Q / 1000, which is the pivot. -/
theorem saturationIsExact : Obligations.SaturationIsExact := by
  intro r g b v s
  dsimp only
  rw [pivotQ_cast]
  exact saturStage_toNat v s (pivotQ r g b)

/-- Settles O31: each stage is neutral at 50. -/
theorem neutralGradingIsIdentity : Obligations.NeutralGradingIsIdentity := by
  intro p
  have hb : brightField 0x00323232#32 = 50#8 := by decide
  rw [gradePixel_of_neutral_tail (by decide) (by decide), hb]
  simp only [brightStage_neutral]

/-- Settles O33: contrast 0 makes the pixel grey, and saturation leaves a grey pixel alone. -/
theorem zeroContrastGivesGrey : Obligations.ZeroContrastGivesGrey := by
  intro w p hc
  simp [gradePixel, saturatePixel, toneStages, hc]

/-- Settles O34: product, quotient and clamp each keep the order. -/
theorem tonesAreMonotone : Obligations.TonesAreMonotone :=
  fun _ _ x h => ⟨brightStage_mono h x, contrastStage_mono h x⟩

/-- Settles O51: a busy block refuses the write, and an idle or failed one stores what `gradeStored_eq` says. -/
theorem gradeRegisterWrite : Obligations.GradeRegisterWrite := by
  intro s u w h
  have hstep : step s = writeReg .grade w u := step_of_hostWrites_reg h
  refine ⟨fun ⟨hi, he⟩ => ?_, fun hidle => ?_⟩
  · rw [hstep, writeReg_while_busy w (State.busy_of_seq rfl hi he) (by decide)]
  · have hstore : step s = .next { u with gradeReg := gradeStored w } :=
      hstep.trans (congrArg Host.Outcome.next (State.unlessBusy_of_not_busy (u.busy_eq_false_iff.2 hidle) _))
    rw [hstore, gradeStored_eq]
    exact ⟨fun hw => by rw [if_pos hw], fun hw => by rw [if_neg hw]⟩

/-- Settles O14, from what an accepted command does. -/
theorem gradeStarts : Obligations.GradeStarts := fun _ hs hw hh hn =>
  congrArg Host.Outcome.next (State.acceptCommand_of_legal State.startGrade hs hw hh hn)

/-- Settles O32: brightness 100 clamps 255 * 110 / 60 to 255, and the other two stages are neutral. -/
theorem fullBrightnessKeeps255 : Obligations.FullBrightnessKeeps255 := by
  have hfull : brightStage 255#8 100#8 = 255#8 := by decide
  refine ⟨hfull, fun w p hb hc hs => ?_⟩
  rw [gradePixel_of_neutral_tail hc hs, hb]
  refine ⟨fun h => ?_, fun h => ?_, fun h => ?_⟩ <;> dsimp only <;> rw [h, hfull]

/-! ### A whole GRADE -/

/-- What the GRADE in progress makes of pixel i: its value as it stands once it has been graded, and the pipeline's
result on it before. The turns of the command keep it, so that it links the frame at the end to that at the start. -/
def State.gradedPixel (s : State) (i : Nat) : Pixel :=
  if i < s.cnt.toNat then s.pixelAt i else gradePixel s.gradeReg (s.pixelAt i)

/-- How a GRADE in progress in s ends in t after k turns, of which one of the block's for each pixel left
(41_color_grader.md R149, R150). -/
structure State.GradeRun (s t : State) (k : Nat) : Prop where
  turns : blockTurns k s.sched = s.remaining
  idle : t.seq = .idle
  done : t.done = true
  cnt : t.cnt.toNat = s.pixels
  graded : ∀ i, t.gradedPixel i = s.gradedPixel i
  silent : s.sched = [] → t = { s with fb := t.fb, cnt := t.cnt, done := true, seq := .idle }

section
variable {s t u : State} {k : Nat}

/-- Grading a pixel keeps what becomes of every pixel. -/
theorem State.gradedPixel_withGradedPixel (h : (s.cnt + 1).toNat = s.cnt.toNat + 1) (i : Nat) :
    s.withGradedPixel.gradedPixel i = s.gradedPixel i := by
  have hcnt : s.withGradedPixel.cnt.toNat = s.cnt.toNat + 1 := h
  have hreg : s.withGradedPixel.gradeReg = s.gradeReg := rfl
  rw [State.gradedPixel, State.gradedPixel, hcnt, hreg, s.pixelAt_withGradedPixel i]
  rcases Nat.lt_trichotomy i s.cnt.toNat with hi | hi | hi
  · rw [if_pos (by omega), if_neg (by omega), if_pos hi]
  · rw [if_pos (by omega), if_pos hi, if_neg (by omega)]
  · rw [if_neg (by omega), if_neg (by omega), if_neg (by omega)]

theorem State.HostMoves.remaining {pushed : List Byte} (h : s.HostMoves u pushed) : u.remaining = s.remaining := by
  rw [h.fields]; rfl

theorem State.HostMoves.gradedPixel {pushed : List Byte} (h : s.HostMoves u pushed) (i : Nat) :
    u.gradedPixel i = s.gradedPixel i := by
  rw [h.fields]; rfl

/-- With a silent host a block turn takes nothing from the schedule. -/
theorem State.BlockTurn.eq_of_silent (h : s.BlockTurn u) (hs : s.sched = []) : u = s := by
  rcases h with ⟨_, hu⟩ | ⟨hb, _⟩
  · exact hu
  · exact absurd (hs.symm.trans hb) nofun

/-- A host turn leaves the GRADE as it was (20_memory.md R58). -/
theorem State.GradeRun.of_host {op : HostOp} {pushed : List Byte} (hs : s.sched = .host op :: u.sched)
    (h : s.HostMoves u pushed) (hr : u.GradeRun t k) : s.GradeRun t (k + 1) where
  turns := by rw [hs, blockTurns_host, hr.turns, h.remaining]
  idle := hr.idle
  done := hr.done
  cnt := hr.cnt.trans h.pixels
  graded i := (hr.graded i).trans (h.gradedPixel i)
  silent hnil := absurd (hs.symm.trans hnil) nofun

/-- The last pixel's turn ends the GRADE (41_color_grader.md R150). -/
theorem State.GradeRun.of_last_pixel (hu : s.BlockTurn u) (hc : (u.cnt + 1).toNat = u.cnt.toNat + 1)
    (hend : (u.cnt + 1).toNat = u.pixels) : s.GradeRun u.withGradedPixel.complete 1 where
  turns := by
    have hone : u.remaining = 1 := by rw [State.remaining]; omega
    rw [blockTurns_of_blockTurn hu, ← hu.hostMoves.remaining, hone]
    rfl
  idle := rfl
  done := rfl
  cnt := hend.trans hu.hostMoves.pixels
  graded i := (State.gradedPixel_withGradedPixel hc i).trans (hu.hostMoves.gradedPixel i)
  silent hnil := by rw [hu.eq_of_silent hnil]; rfl

/-- Any other pixel's turn takes one off the pixels left (41_color_grader.md R149). -/
theorem State.GradeRun.of_pixel (hu : s.BlockTurn u) (hc : (u.cnt + 1).toNat = u.cnt.toNat + 1)
    (hlt : (u.cnt + 1).toNat < u.pixels) (hr : u.withGradedPixel.GradeRun t k) : s.GradeRun t (k + 1) where
  turns := by
    have hleft : u.remaining = u.withGradedPixel.remaining + 1 := by
      show u.pixels - u.cnt.toNat = u.pixels - (u.cnt + 1).toNat + 1
      omega
    rw [blockTurns_of_blockTurn hu, ← hu.hostMoves.remaining, hleft, ← hr.turns]
    rfl
  idle := hr.idle
  done := hr.done
  cnt := hr.cnt.trans hu.hostMoves.pixels
  graded i := ((hr.graded i).trans (State.gradedPixel_withGradedPixel hc i)).trans (hu.hostMoves.gradedPixel i)
  silent hnil := by
    obtain rfl := hu.eq_of_silent hnil
    exact hr.silent hnil

theorem runBusy_of_not_busy (hb : s.busy = false) (h : runBusy k s = some t) : k = 0 ∧ s = t := by
  cases k with
  | zero => exact ⟨rfl, Option.some.inj h⟩
  | succ k => exact absurd (hb.symm.trans (runBusy_succ_eq_some.1 h).1) nofun

/-- The turns of a GRADE to its end, whatever the host does but SRESET (41_color_grader.md R148 to R150). -/
theorem State.gradeRun_of_runBusy (hi : s.Inv) (hn : s.noSreset) (hs : s.seq = .grade) (h : runBusy k s = some t)
    (ht : t.busy = false) : s.GradeRun t k := by
  induction k generalizing s with
  | zero =>
    obtain rfl := Option.some.inj h
    exact absurd (ht.symm.trans (State.busy_of_seq hs nofun nofun)) nofun
  | succ k ih =>
    obtain ⟨hb, v, hv, hk⟩ := runBusy_succ_eq_some.1 h
    have hiv := stepKeepsInvariant s v hi hv
    have hturn := State.busyTurn_of_step hb hn hv
    have hnv := hturn.noSreset hn
    cases hturn with
    | host hsched hmove => exact .of_host hsched hmove (ih hiv hnv (hmove.seq.trans hs) hk)
    | @block u _ hu hstep =>
      have hiu : u.Inv := by obtain ⟨rest, rfl⟩ := hu.exists_sched; exact hi.withSched rest
      have hsu : u.seq = .grade := hu.hostMoves.seq.trans hs
      have hlt := (State.seqInv_grade hsu).1 hiu.sequencer
      have hc := hiu.cnt_succ (hu.hostMoves.busy.trans hb) hlt
      rw [blockStep_grade_of_lt hsu (hiu.cnt_lt_maxPixels (by simp [hsu]))] at hstep
      obtain rfl := Host.Outcome.next.inj hstep
      by_cases hend : (u.cnt + 1).toNat = u.pixels
      · rw [if_pos hend] at hk
        obtain ⟨rfl, rfl⟩ := runBusy_of_not_busy rfl hk
        exact .of_last_pixel hu hc hend
      · rw [if_neg hend] at hk hiv hnv
        exact .of_pixel hu hc (by omega) (ih hiv hnv hsu hk)

/-- A GRADE reads no input, so it never holds (10_state.md R34). -/
theorem neverHolds_of_grade : NeverHolds fun s => s.seq = .grade where
  holding hs _ := by simp [State.holding, hs, Seq.readsInput]
  host hs h := h.seq.trans hs
  block := by
    intro s t hs hi ht hb
    rw [blockStep_grade_of_lt hs (hi.cnt_lt_maxPixels (by simp [hs]))] at ht
    obtain rfl := Host.Outcome.next.inj ht
    by_cases hend : (s.cnt + 1).toNat = s.pixels
    · rw [if_pos hend] at hb
      cases hb
    · rw [if_neg hend]
      exact hs

end

/-- Settles O35: the run ends because no step of it holds, and `gradedPixel` is the value before the command graded at
CNT = 0, and the value after it at CNT = N. -/
theorem gradeCommandGradesTheFrame : Obligations.GradeCommandGradesTheFrame := by
  intro s hi hs hc hn
  obtain ⟨k, t, _, hrun, ht⟩ := neverHolds_of_grade.exists_runBusy hi hn fun _ => hs
  have hgrade := State.gradeRun_of_runBusy hi hn hs hrun ht
  have hturns : blockTurns k s.sched = s.pixels := by rw [hgrade.turns, State.remaining, hc]; rfl
  have hcnt : t.cnt = BitVec.ofNat 32 s.pixels := by rw [← hgrade.cnt, BitVec.ofNat_toNat, BitVec.setWidth_eq]
  refine ⟨k, t, hturns, runSteps_of_runBusy hrun, hgrade.idle, hgrade.done, hgrade.cnt, fun i hlt => ?_,
    fun j hj => (State.busyRun_of_runBusy hi hn hrun ht).fbByte_of_ge hj, fun hnil => ⟨?_, ?_⟩⟩
  · have h := hgrade.graded i
    have hstart : ¬ i < s.cnt.toNat := by rw [hc]; exact Nat.not_lt_zero i
    rwa [State.gradedPixel, State.gradedPixel, hgrade.cnt, if_pos hlt, if_neg hstart] at h
  · rw [← hturns, hnil, blockTurns_nil]
  · rw [← hcnt]
    exact hgrade.silent hnil

end Sys2Proof.Machine
end

section
/-! PROOF. The family 42_commands.md: what the host's command and register writes do in each STATE, and what the
registers read as. -/

namespace Sys2Proof.Machine

/-! ### Command words -/

/-- The step of a write to CMD (42_commands.md R170). -/
theorem step_of_commandWrite {s u : State} {w : Word} (h : s.HostWrites 0x00#32 w u) : step s = commandWrite w u :=
  step_of_hostWrites_reg (r := .cmd) h

/-- Outside IDLE every command word but SRESET is rejected (42_commands.md R171). -/
theorem commandWrite_of_not_idle {w : Word} {s : State} (hw : w ≠ 0x0000000F#32) (hs : s.seq ≠ .idle) :
    commandWrite w s = .next s.rejectCommand := by
  obtain ⟨t, ht⟩ := commandWrite_goesOn w s
  rcases commandWrite_outcomes ht with ⟨hreset, _⟩ | ⟨_, rfl⟩ | ⟨hidle, _⟩ | ⟨hidle, _⟩
  · exact absurd hreset hw
  · exact ht
  · exact absurd hidle hs
  · exact absurd hidle hs

/-- A word that stands for no instruction is an illegal command with its low byte (30_encoding.md R86). -/
theorem commandWrite_of_illegal {w : Word} (s : State) (hw : ∀ i, decodeCommand w ≠ .ok i) :
    commandWrite w s = .next (s.illegalCommand (w.extractLsb' 0 8)) := by
  rcases commandWrite_cases w s with ⟨i, hi, _⟩ | ⟨_, _, h⟩
  · exact absurd hi (hw i)
  · exact h

/-- Only the six words of 30_encoding.md R85 stand for an instruction. -/
theorem mem_legalWords_of_decodeCommand {w : Word} {i : Instr} (h : decodeCommand w = .ok i) :
    w ∈ [0x00000001#32, 0x00000011#32, 0x00000021#32, 0x00000002#32, 0x00000003#32, 0x0000000F#32] :=
  List.mem_map_of_mem (f := Prod.fst) ((legalCommandWords w i).1 h)

/-- An illegal command word from IDLE raises ILLEGAL_CMD (42_commands.md R172). -/
theorem State.illegalCommand_of_idle {s : State} (b : Byte) (hs : s.seq = .idle) :
    s.illegalCommand b = s.clearCompletion.raise .illegalCmd b := if_pos hs

/-- An accepted command whose dimensions are not legal raises DIMENSION (42_commands.md R172). -/
theorem State.acceptCommand_of_illegal {s : State} (start : State → State) (hs : s.seq = .idle)
    (hd : s.dimensionsLegal = false) : s.acceptCommand start = s.clearCompletion.raise .dimension 0x00#8 := by
  rw [State.acceptCommand, if_pos hs, hd]
  rfl

/-- The dimensions no command starts with (42_commands.md R172, R173). -/
theorem State.dimensionsLegal_eq_false {s : State}
    (h : s.width = 0 ∨ s.height = 0 ∨ s.params.maxPixels < s.width.toNat * s.height.toNat) :
    s.dimensionsLegal = false := by
  rcases h with h | h | h
  · simp [State.dimensionsLegal, h]
  · simp [State.dimensionsLegal, h]
  · have hn : ¬ s.pixels ≤ s.params.maxPixels := Nat.not_le.2 h
    simp [State.dimensionsLegal, hn]

/-- Every legal command but SRESET runs through acceptance (42_commands.md R172). -/
theorem exec_accepts {i : Instr} (s : State)
    (hi : i ∈ [Instr.decodePlane 0#2, .decodePlane 1#2, .decodePlane 2#2, .decodeFrame, .grade]) :
    ∃ start, exec i s = .next (s.acceptCommand start) := by
  simp only [List.mem_cons, List.not_mem_nil, or_false] at hi
  rcases hi with rfl | rfl | rfl | rfl | rfl <;> exact ⟨_, rfl⟩

/-! ### Register writes by value -/

/-- A write the block may refuse, by STATE (20_memory.md R58). -/
theorem State.unlessBusy_eq_ite (write : State → State) (s : State) :
    s.unlessBusy write = if s.seq = .idle ∨ s.seq = .error then write s else { s with wrRej := true } := by
  rcases s.unlessBusy_cases write with ⟨hb, h⟩ | ⟨hb, h⟩
  · have hn : ¬ (s.seq = .idle ∨ s.seq = .error) := by simp [← State.busy_eq_false_iff, hb]
    rw [h, if_neg hn]
  · rw [h, if_pos (s.busy_eq_false_iff.1 hb)]

/-- A W1C bit after a write (42_commands.md R175). -/
theorem and_not_eq_ite (flag written : Bool) : (flag && !written) = if written then false else flag := by
  cases written
  · exact Bool.and_true flag
  · exact Bool.and_false flag

/-- A push while the stream is open and IFIFO has room (42_commands.md R177). -/
theorem State.pushInput_of_room {s : State} (b : Byte) (he : s.eos = false) (hl : s.ififo.length < s.params.fifoDepth) :
    s.pushInput b = { s with ififo := s.ififo ++ [b] } := if_pos ⟨he, hl⟩

/-- A push after EOS or into a full IFIFO (42_commands.md R177). -/
theorem State.pushInput_of_no_room {s : State} (b : Byte) (h : s.eos = true ∨ s.params.fifoDepth ≤ s.ififo.length) :
    s.pushInput b = { s with inRej := true } := by
  refine if_neg fun ⟨heos, hlt⟩ => ?_
  rcases h with he | hge
  · exact absurd (heos.symm.trans he) nofun
  · omega

/-- The low bits of a word as a number. -/
theorem extractLsb'_zero_eq_ofNat (w : Word) (n : Nat) : w.extractLsb' 0 n = BitVec.ofNat n w.toNat := rfl

/-- What a write to IRQ_EN stores (42_commands.md R176). -/
theorem setWidth_extractLsb'_two_eq_mod (w : Word) :
    BitVec.setWidth 32 (w.extractLsb' 0 2) = BitVec.ofNat 32 (w.toNat % 4) := by
  rw [extractLsb'_zero_eq_ofNat, ← BitVec.ofNat_toNat, BitVec.toNat_ofNat]

/-- EOS after a write to IN_CTRL (42_commands.md R178). -/
theorem State.or_eos_eq_ite (s : State) (b : Bool) :
    ({ s with eos := s.eos || b } : State) = if b then { s with eos := true } else s := by
  cases b <;> simp

/-! ### What the registers read as -/

/-- IN_CTRL reads EOS in bit 0 (10_state.md R40). -/
theorem setWidth_ofBool_eq_ite (b : Bool) : BitVec.setWidth 32 (BitVec.ofBool b) = if b then 1#32 else 0#32 := by
  cases b <;> rfl

/-- IN_LEVEL is the number of bytes in IFIFO where it fits 32 bits (10_state.md R41). -/
theorem State.levelWord_of_lt {s : State} (h : s.ififo.length < 2 ^ 32) :
    s.levelWord = BitVec.ofNat 32 s.ififo.length := if_pos h

/-- When BUSY reads 1 (10_state.md R34). -/
theorem State.busy_iff (s : State) : s.busy = true ↔ s.seq ≠ .idle ∧ s.seq ≠ .error := by
  simp [State.busy]

/-- When HOLD reads 1 (10_state.md R34). -/
theorem State.holding_iff (s : State) :
    s.holding = true ↔ s.seq ∈ [Seq.marker, .hdr, .lit, .repv] ∧ s.ififo = [] ∧ s.eos = false := by
  rw [← Seq.readsInput_iff_mem]
  simp [State.holding, and_assoc]

/-- STATUS.ERRCODE is bits 11:8 (10_state.md R34). -/
theorem State.extractLsb'_statusWord_errcode (s : State) : s.statusWord.extractLsb' 8 4 = s.statusErrcode := by
  refine BitVec.eq_of_getLsbD_eq fun i hi => ?_
  rw [BitVec.getLsbD_extractLsb', State.statusWord_upper, if_pos hi]
  simp [hi]

/-- STATUS.PLANE is bits 13:12 (10_state.md R34). -/
theorem State.extractLsb'_statusWord_plane (s : State) : s.statusWord.extractLsb' 12 2 = s.curPlane.bits := by
  refine BitVec.eq_of_getLsbD_eq fun i hi => ?_
  rw [BitVec.getLsbD_extractLsb', show 12 + i = 8 + (4 + i) by omega, State.statusWord_upper, if_neg (by omega)]
  simp [hi]

/-- STATUS bits 31:14 are 0 (10_state.md R34). -/
theorem State.extractLsb'_statusWord_zeros (s : State) : s.statusWord.extractLsb' 14 18 = 0#18 := by
  refine BitVec.eq_of_getLsbD_eq fun i hi => ?_
  rw [BitVec.getLsbD_extractLsb', show 14 + i = 8 + (6 + i) by omega, State.statusWord_upper, if_neg (by omega),
    BitVec.getLsbD_of_ge _ _ (by omega)]
  simp

/-- The registers whose reading the spec states in every state, and what they read as. -/
theorem State.readReg_list (s : State) :
    [(0x00#32, 0#32), (0x04#32, s.statusWord), (0x08#32, s.width), (0x0C#32, s.height), (0x10#32, s.gradeReg),
      (0x14#32, s.irqEn), (0x18#32, 0#32), (0x1C#32, if s.eos then 1#32 else 0#32), (0x24#32, s.inCount),
      (0x28#32, s.frameCount), (0x2C#32, s.cnt), (0x30#32, s.errByte.setWidth 32)] =
    [Reg.cmd, .status, .width, .height, .grade, .irqEn, .inData, .inCtrl, .inCount, .frameCount, .pos, .errByte].map
      fun r => (r.offset, s.readReg r) := by
  rw [← setWidth_ofBool_eq_ite]
  rfl

/-! ### The obligations -/

/-- Settles O15, from what a command word can do outside IDLE. -/
theorem commandRejectedUnlessIdle : Obligations.CommandRejectedUnlessIdle := fun _ _ _ h hw hs =>
  (step_of_commandWrite h).trans (commandWrite_of_not_idle hw hs)

/-- Settles O16: a word outside the table decodes to nothing, and PL = 3 names no plane. -/
theorem illegalCommandRaises : Obligations.IllegalCommandRaises := by
  refine fun u hs => ⟨fun s w h hw => ?_, ?_⟩
  · have hd : ∀ i, decodeCommand w ≠ .ok i := fun _ hi => hw (mem_legalWords_of_decodeCommand hi)
    rw [step_of_commandWrite h, commandWrite_of_illegal u hd, State.illegalCommand_of_idle _ hs]
    rfl
  · exact congrArg Host.Outcome.next (State.illegalCommand_of_idle 0x31#8 hs)

/-- Settles O48: a register's read answers `readReg`, and STATUS is read off field by field. -/
theorem registerReads : Obligations.RegisterReads := by
  intro s u
  obtain ⟨hbusy, hdone, herror, hend, hhold, hcmd, hwr, hin⟩ := u.statusWord_flags
  have hlevel : s.HostReads 0x20#32 u → step s = .next { u with response := .data u.levelWord } :=
    step_of_hostReads_reg (r := .inLevel)
  refine ⟨fun a v hav h => ?_, fun h hlen => ?_, fun h => ⟨_, hlevel h⟩, ?_, hdone, ?_, hend, ?_, hcmd, hwr, hin,
    ?_, ?_, u.extractLsb'_statusWord_zeros⟩
  · rw [u.readReg_list] at hav
    obtain ⟨r, _, hr⟩ := List.mem_map.1 hav
    cases hr
    exact step_of_hostReads_reg h
  · rw [hlevel h, State.levelWord_of_lt hlen]
  · rw [hbusy, State.busy_iff]
  · rw [herror, beq_iff_eq]
  · rw [hhold, State.holding_iff]
  · rw [State.extractLsb'_statusWord_errcode, State.statusErrcode]
    cases u.errcode <;> rfl
  · rw [State.extractLsb'_statusWord_plane]
    cases u.curPlane <;> rfl

/-- Settles O17: each of the five commands meets the dimension check. -/
theorem badDimensionsRaise : Obligations.BadDimensionsRaise := by
  intro s i hi hs hd
  obtain ⟨start, hstart⟩ := exec_accepts s hi
  rw [hstart, State.acceptCommand_of_illegal start hs (State.dimensionsLegal_eq_false hd)]
  rfl

/-- Settles O49, flag by flag. -/
theorem statusWriteClears : Obligations.StatusWriteClears := by
  intro s u w h
  have hstep : step s = .next (u.clearFlags w) := step_of_hostWrites_reg (r := .status) h
  rw [hstep]
  simp only [State.clearFlags, and_not_eq_ite]

/-- Settles O50: both registers are written unless the block is busy. -/
theorem dimensionWrites : Obligations.DimensionWrites := fun _ u _ =>
  ⟨fun h => (step_of_hostWrites_reg (r := .width) h).trans (congrArg Host.Outcome.next (u.unlessBusy_eq_ite _)),
    fun h => (step_of_hostWrites_reg (r := .height) h).trans (congrArg Host.Outcome.next (u.unlessBusy_eq_ite _))⟩

/-- Settles O52, by the value each register takes. -/
theorem interruptEnableAndEosWrites : Obligations.InterruptEnableAndEosWrites := by
  refine fun s u w => ⟨fun h => ?_, fun h => ?_⟩
  · have hstep : step s = .next { u with irqEn := BitVec.setWidth 32 (w.extractLsb' 0 2) } :=
      step_of_hostWrites_reg (r := .irqEn) h
    rw [hstep, setWidth_extractLsb'_two_eq_mod]
  · have hstep : step s = .next { u with eos := u.eos || w.getLsbD 0 } := step_of_hostWrites_reg (r := .inCtrl) h
    rw [hstep, State.or_eos_eq_ite]

/-- Settles O53: a push is taken or dropped. -/
theorem inputPush : Obligations.InputPush := by
  intro s u w h
  have hstep : step s = .next (u.pushInput (w.extractLsb' 0 8)) := step_of_hostWrites_reg (r := .inData) h
  rw [hstep, extractLsb'_zero_eq_ofNat]
  exact ⟨fun ⟨heos, hlt⟩ => congrArg Host.Outcome.next (State.pushInput_of_room _ heos hlt),
    fun hfull => congrArg Host.Outcome.next (State.pushInput_of_no_room _ hfull)⟩

end Sys2Proof.Machine
end

section
/-! PROOF. The family 60_exceptions.md: what can move STATE and the error registers once the block is in ERROR, and what
drives the interrupt line. -/

namespace Sys2Proof.Machine

/-! ### What a host access leaves of STATE and the error registers -/

/-- STATE, ERRCODE and ERR_BYTE, the three that error entry writes (60_exceptions.md R202), are in t as in s. -/
def State.SameError (s t : State) : Prop := t.seq = s.seq ∧ t.errcode = s.errcode ∧ t.errByte = s.errByte

theorem hostRead_sameError (a : Word) (s : State) : s.SameError (hostRead a s) := by
  rcases hostRead_cases a s with ⟨_, h⟩ | ⟨_, h⟩ <;> rw [h] <;> exact ⟨rfl, rfl, rfl⟩

/-- A write that may be refused keeps them if it keeps them when it is taken (20_memory.md R58). -/
theorem State.unlessBusy_sameError {write : State → State} {s : State} (h : s.SameError (write s)) :
    s.SameError (s.unlessBusy write) := by
  rcases s.unlessBusy_cases write with ⟨_, hc⟩ | ⟨_, hc⟩ <;> rw [hc]
  · exact ⟨rfl, rfl, rfl⟩
  · exact h

theorem State.pushInput_sameError (b : Byte) (s : State) : s.SameError (s.pushInput b) := by
  rcases s.pushInput_cases b with ⟨_, _, hc⟩ | ⟨_, hc⟩ <;> rw [hc] <;> exact ⟨rfl, rfl, rfl⟩

theorem State.writeWindowWord_sameError (k : Nat) (w : Word) (s : State) : s.SameError (s.writeWindowWord k w) := by
  obtain ⟨m, hm⟩ := State.writeWindowWord_frame k w s
  rw [hm]
  exact ⟨rfl, rfl, rfl⟩

/-- Outside IDLE a write other than SRESET keeps them: every other command word is rejected (42_commands.md R171), and
no other register's write reaches them. -/
theorem hostWrite_sameError {a w : Word} {s t : State} (hs : s.seq ≠ .idle) (hr : ¬ (a = 0x00#32 ∧ w = 0x0000000F#32))
    (h : hostWrite a w s = .next t) : s.SameError t := by
  rcases hostWrite_cases h with rfl | ⟨v, hv, hc⟩
  · exact ⟨rfl, rfl, rfl⟩
  · suffices hvt : v.SameError t by rw [hv] at hvt; exact hvt
    rcases hc with ⟨ha, hc⟩ | ⟨_, rfl⟩ | ⟨_, rfl⟩ | ⟨_, rfl⟩ | ⟨_, rfl⟩ | ⟨_, rfl⟩ | ⟨_, rfl⟩ | ⟨_, rfl⟩ | rfl |
      ⟨k, _, _, rfl⟩
    · have hvs : v.seq ≠ .idle := by rw [hv]; exact hs
      rw [commandWrite_of_not_idle (fun hw => hr ⟨ha, hw⟩) hvs] at hc
      obtain rfl := Host.Outcome.next.inj hc
      exact ⟨rfl, rfl, rfl⟩
    · exact ⟨rfl, rfl, rfl⟩
    · exact State.unlessBusy_sameError ⟨rfl, rfl, rfl⟩
    · exact State.unlessBusy_sameError ⟨rfl, rfl, rfl⟩
    · exact State.unlessBusy_sameError ⟨rfl, rfl, rfl⟩
    · exact ⟨rfl, rfl, rfl⟩
    · exact State.pushInput_sameError _ v
    · exact ⟨rfl, rfl, rfl⟩
    · exact ⟨rfl, rfl, rfl⟩
    · exact State.unlessBusy_sameError (State.writeWindowWord_sameError k w v)

/-- Outside IDLE every host access other than SRESET keeps them. -/
theorem hostStep_sameError {op : HostOp} {s t : State} (hs : s.seq ≠ .idle)
    (hr : op ≠ .write 0x00#32 0x0000000F#32) (h : hostStep op s = .next t) : s.SameError t := by
  cases op with
  | read a =>
    obtain rfl := Host.Outcome.next.inj h
    exact hostRead_sameError a s
  | write a w => exact hostWrite_sameError hs (fun ⟨ha, hw⟩ => hr (by rw [ha, hw])) h

/-! ### The obligations -/

/-- Settles O43: in ERROR the block's turn passes, and a host access other than SRESET keeps STATE and the error
registers, as it does everywhere outside IDLE. -/
theorem onlySresetLeavesError : Obligations.OnlySresetLeavesError := by
  intro s t hs h
  rcases step_turn h with ⟨rest, h⟩ | ⟨op, rest, hsched, h⟩
  · rw [blockStep_error (s := { s with sched := rest }) hs] at h
    obtain rfl := Host.Outcome.next.inj h
    exact .inr ⟨hs, rfl, rfl⟩
  · by_cases hr : op = .write 0x00#32 0x0000000F#32
    · exact .inl (by rw [State.SresetNext, hsched, hr]; rfl)
    · have hidle : s.seq ≠ .idle := by rw [hs]; exact nofun
      obtain ⟨hseq, hcode, hbyte⟩ := hostStep_sameError (s := { s with sched := rest }) hidle hr h
      exact .inr ⟨hseq.trans hs, hcode, hbyte⟩

/-- Settles O58: bits 1 and 2 of STATUS are the two sources DONE and ERROR of the line. -/
theorem interruptLine : Obligations.InterruptLine := by
  intro s
  obtain ⟨_, hdone, herror, _⟩ := s.statusWord_flags
  rw [hdone, herror, State.irq, State.doneIe, State.errIe, Bool.or_eq_true, Bool.and_eq_true, Bool.and_eq_true]

end Sys2Proof.Machine
end

section
/-! PROOF. The family 70_reset_and_hazards.md: what the state after power-on reset reads as, that it meets the invariant,
and what SRESET puts back. -/

namespace Sys2Proof.Machine

/-! ### What the reset values make of STATUS, IRQ, FB and the invariant -/

/-- In IDLE, with the plane red and every flag clear, STATUS reads 0: IDLE makes BUSY, ERROR, HOLD and ERRCODE 0
(10_state.md R34). -/
theorem State.statusWord_eq_zero {s : State} (hs : s.seq = .idle) (hplane : s.curPlane = .red) (hdone : s.done = false)
    (hend : s.endFlag = false) (hcmd : s.cmdRej = false) (hwr : s.wrRej = false) (hin : s.inRej = false) :
    s.statusWord = 0#32 := by
  have hbusy : s.busy = false := by rw [State.busy, hs]; rfl
  have hhold : s.holding = false := by rw [State.holding, hs]; rfl
  have hcode : s.statusErrcode = 0#4 := by rw [State.statusErrcode, hs]; rfl
  rw [State.statusWord, hs, hplane, hdone, hend, hcmd, hwr, hin, hbusy, hhold, hcode]
  decide

/-- With IRQ_EN = 0 both interrupt sources are masked (60_exceptions.md R207; 70_reset_and_hazards.md R230). -/
theorem State.irq_of_irqEn_zero {s : State} (h : s.irqEn = 0) : s.irq = false := by
  have hdone : s.doneIe = false := by rw [State.doneIe, h]; rfl
  have herr : s.errIe = false := by rw [State.errIe, h]; rfl
  rw [State.irq, hdone, herr, Bool.false_and, Bool.false_and, Bool.or_self]

/-- Until it is first written an FB byte reads as its power-on value (20_memory.md R52). -/
theorem State.fbByte_of_fb_nil {s : State} (h : s.fb = []) (i : Nat) : s.fbByte i = Config.powerOnByte i := by
  rw [State.fbByte, h]
  rfl

/-- The base case of the invariant (70_reset_and_hazards.md R230). -/
theorem State.inv_resetWith {p : Params} (hp : p.legal) : (State.resetWith p).Inv where
  params := hp
  fbWf := rfl
  fbInside := nofun
  fifo := Nat.zero_le _
  grade := show gradeStored 0x00323232#32 = 0x00323232#32 by decide
  irqEn := show (0#32).toNat < 4 by decide
  errcode := ⟨fun hc => absurd rfl hc, nofun⟩
  flags := fun hs => absurd rfl hs
  dimensions := nofun
  sequencer := trivial

/-! ### The obligations -/

/-- Settles O18: SRESET is `State.softReset`, whose fields are those of `State.resetWith` except the five it
keeps: the parameters, FB and the model's own three. -/
theorem softResetValues : Obligations.SoftResetValues := fun _ => rfl

/-- Settles O40: the parameters of `State.reset` are legal, so it is one case of the general reset state. -/
theorem resetMeetsInvariant : Obligations.ResetMeetsInvariant :=
  ⟨fun _ hp => State.inv_resetWith hp, State.inv_resetWith (by decide)⟩

/-- Settles O59: STATUS reads 0 in IDLE with every flag clear, IRQ is low because IRQ_EN = 0, and FB reads as at
power-on because no byte is written yet. -/
theorem powerOnResetValues : Obligations.PowerOnResetValues := fun _ =>
  ⟨rfl, State.statusWord_eq_zero rfl rfl rfl rfl rfl rfl rfl, State.irq_of_irqEn_zero rfl, State.fbByte_of_fb_nil rfl⟩

end Sys2Proof.Machine
end
